-- ==== Sys2Proof/Word.lean ====
section
/-! DEFINITION. The word and byte types of the block. -/

namespace Sys2Proof

/-- A byte of the program, of the stack or of an operand field (R7). -/
abbrev Byte := BitVec 8

/-- A register word. The block's word has `8*W` bits with `W` 4 or 8 (R5, R20); both builds are held in 64 bits, the
bits at and above `8*W` being zero (log 5). -/
abbrev Word := BitVec 64

/-- A program position: 32 bits, unsigned (R24). -/
abbrev Pos := BitVec 32

end Sys2Proof
end

