-- ==== Sys2Proof/Config.lean ====
section
/-! DEFINITION. The implementation parameters (R5), as one record that `State` carries and no step writes, what
the host can do at its ports, and the free value of the host's arithmetic: a constant with no body, of which nothing can be
proved. The other free value, of a callback, is in Machine/State.lean. -/

namespace Sys2Proof

/-- `W`: 4 or 8 bytes a word (R5). -/
inductive WordSize where
  | w4
  | w8
  deriving DecidableEq, Repr

/-- `ENDIAN` (R5, R8). -/
inductive Endian where
  | little
  | big
  deriving DecidableEq, Repr

/-- `FETCH_MODE` (R5, R64, R65). -/
inductive FetchMode where
  | resident
  | streaming
  deriving DecidableEq, Repr

/-- The mnemonics, in the order of the §4.3 table (R92): what `OPCODE_MAP` gives bytes to. -/
inductive Op where
  | ldr | str | lds | sts | ldi | mov | neg | invoke
  | add | sub | mul | div | and | orr | xor | not
  | lsl | lsr | cmp | jmp | call | scope | endScope | eop
  deriving DecidableEq, Repr

/-- Why the host's arithmetic is reached (R220). -/
inductive UndefReason where
  | divByZero
  | divOverflow
  | negOverflow
  | shiftRange
  deriving DecidableEq, Repr

/-- The name of a host callback: what `bound(c)` holds (R36). -/
abbrev CallbackId := Nat

/-- One write through the state-access port (R41, R175). Nothing else of the state can be written. -/
inductive PortWrite where
  | reg (r : Nat) (v : Word)
  | stackByte (address : Nat) (b : Byte)
  | sp (n : Nat)
  | si (n : Nat)
  | frameBase (k n : Nat)
  | frameRet (k : Nat) (t : Pos)
  | pc (t : Pos)
  deriving DecidableEq, Repr

/-- One read through the state-access port (R6, R41, R175): every element of 10_state.md but the window. -/
inductive PortRead where
  | reg (r : Nat)
  | stackByte (address : Nat)
  | pc
  | sp
  | frame (k : Nat)
  | si
  | running
  | ready
  | nameByte (j : Nat)
  | importCount
  | tableSlot (k : Nat)
  | fault
  deriving DecidableEq, Repr

/-- One thing a callback does before it returns (R174-R176). The last three break its duties. -/
inductive CallbackAct where
  | read (q : PortRead)
  | write (w : PortWrite)
  | link (name : List Byte) (c : CallbackId)
  | stop
  | callStep
  | callInit
  | callStart
  deriving DecidableEq, Repr

/-- The parameters of R5 (`NREG` is fixed at 6, R20), and two of the model's own. -/
structure Config where
  wordSize : WordSize
  endian : Endian
  /-- `STACK_CAPACITY`. -/
  stackCapacity : Nat
  /-- `SCOPE_LIMIT`. -/
  scopeLimit : Nat
  /-- `NAME_TABLE_CAPACITY`. -/
  nameTableCapacity : Nat
  /-- `MAX_IMPORTS`. -/
  maxImports : Nat
  fetchMode : FetchMode
  /-- `WINDOW_SIZE`; only read in streaming mode. -/
  windowSize : Nat
  /-- `ENGINE_MAJOR`. -/
  engineMajor : BitVec 16
  /-- `ENGINE_MINOR`. -/
  engineMinor : BitVec 16
  /-- `OPCODE_MAP`: the opcode byte of each mnemonic, in the order of `Op` (R92). -/
  opcodes : Vector Byte 24
  /-- `CMP_SIGNED`. -/
  cmpSigned : Bool
  /-- `DIV_SIGNED`. -/
  divSigned : Bool
  /-- `LSR_ARITHMETIC`. -/
  lsrArithmetic : Bool
  /-- The model's own (log 8): `true`, the host's arithmetic has no step out of UNDEFINED_RESULT, as R220 holds it;
  `false`, it goes on with a free value. -/
  hostArithStops : Bool
  /-- The model's own (log 22): a diagnostic sink is attached (R218). -/
  sinkAttached : Bool
  deriving DecidableEq, Repr

/-- `W`, the bytes of a word (R5). -/
def Config.wordBytes (cfg : Config) : Nat :=
  match cfg.wordSize with
  | .w4 => 4
  | .w8 => 8

/-- `N = 8*W`, the bits of a word (R7). -/
def Config.bits (cfg : Config) : Nat := 8 * cfg.wordBytes

/-- FREE VALUE (log 8): what the host's arithmetic gives for an operation that the source leaves to it, from the reason,
the two operands and the number of such values drawn before. -/
opaque Config.hostArith : UndefReason → Word → Word → Nat → Word

end Sys2Proof
end

