-- ==== Sys2Proof/Machine/Bytes.lean ====
section
/-! DEFINITION. Byte serialisation (R8) and the integer views of a word (R7). -/

namespace Sys2Proof

/-- The number whose base-256 digits are the bytes, least significant first (R8, little). -/
def leNat : List Byte → Nat
  | [] => 0
  | b :: bs => b.toNat + 256 * leNat bs

/-- The `n` lowest base-256 digits of `v`, least significant first. -/
def leBytes (v : Nat) : Nat → List Byte
  | 0 => []
  | n + 1 => BitVec.ofNat 8 v :: leBytes (v / 256) n

/-- `from_bytes` (R8). -/
def fromBytes (e : Endian) (bs : List Byte) : Nat :=
  match e with
  | .little => leNat bs
  | .big => leNat bs.reverse

/-- `to_bytes(v, n)` (R8), for `v` taken modulo `256^n`. -/
def toBytes (e : Endian) (v n : Nat) : List Byte :=
  match e with
  | .little => leBytes v n
  | .big => (leBytes v n).reverse

/-- `trunc_N` of a natural number (R7). -/
def truncN (cfg : Config) (x : Nat) : Word := BitVec.ofNat 64 (x % 2 ^ cfg.bits)

/-- `trunc_N` of an integer (R7). -/
def truncInt (cfg : Config) (x : Int) : Word := BitVec.ofNat 64 (x % 2 ^ cfg.bits).toNat

/-- `s(v)`, the two's-complement value of an `N`-bit word (R7). `u(v)` is `v.toNat`. -/
def signedValue (cfg : Config) (v : Word) : Int :=
  if 2 * v.toNat < 2 ^ cfg.bits then (v.toNat : Int) else (v.toNat : Int) - 2 ^ cfg.bits

end Sys2Proof
end

