-- ==== Sys2Proof/Machine/Defaults.lean ====
section
/-! DEFINITION. The configuration `State.reset` carries. The spec fixes none of these numbers; they are the values its test
vectors assume (95_test_vectors section 0) and its defaults (R5, R92). No statement rests on one: every statement is for
all configurations (log 1, log 2). -/

namespace Sys2Proof

/-- The spec's default `OPCODE_MAP`: the §4.3 table order from 0x00 (R92; log 3). -/
def defaultOpcodes : Vector Byte 24 :=
  #v[0x00, 0x01, 0x02, 0x03, 0x04, 0x05, 0x06, 0x07,
     0x08, 0x09, 0x0A, 0x0B, 0x0C, 0x0D, 0x0E, 0x0F,
     0x10, 0x11, 0x12, 0x13, 0x14, 0x15, 0x16, 0x17]

/-- DESIGN CHOICE (log 2, log 4, log 8, log 22). -/
def defaultConfig : Config where
  wordSize := .w4
  endian := .little
  stackCapacity := 64
  scopeLimit := 4
  nameTableCapacity := 32
  maxImports := 4
  fetchMode := .resident
  windowSize := 32
  engineMajor := 1
  engineMinor := 0
  opcodes := defaultOpcodes
  cmpSigned := true
  divSigned := true
  lsrArithmetic := false
  hostArithStops := false
  sinkAttached := true

end Sys2Proof
end

