-- ==== Sys2Proof/Syntax.lean ====
section
/-! DEFINITION. The instructions: one constructor per row of spec/opcode_table.json, with the FIXED fields of its format
(R91, R93) in offset order. The variable parts, LDI's immediate and SCOPE's payload, are fetched by the handler after its
checks (R104) and so belong to the meaning, not to the decoded instruction (log 20). -/

namespace Sys2Proof

/-- The 24 instructions. A register field is the raw byte of its field: 6 to 255 are legal encodings that fault when
the handler checks them (R95); likewise a CMP kind (R100) and a `len` (R102). -/
inductive Instr where
  /-- LDR `dst, addr_reg, len_reg` (R123). -/
  | ldr (d a l : Byte)
  /-- STR `src, addr_reg, len_reg` (R124). -/
  | str (src a l : Byte)
  /-- LDS `dst, addr, len`: `addr` is the i32 field, read two's complement (R125). -/
  | lds (d : Byte) (addr : BitVec 32) (len : Byte)
  /-- STS `src, addr, len` (R126). -/
  | sts (src : Byte) (addr : BitVec 32) (len : Byte)
  /-- LDI `dst, len`, followed in the program by `len` immediate bytes (R127). -/
  | ldi (d len : Byte)
  /-- MOV `dst, src` (R128). -/
  | mov (d src : Byte)
  /-- NEG `r` (R142). -/
  | neg (r : Byte)
  /-- INVOKE `import_index` (R173). -/
  | invoke (index : BitVec 16)
  /-- ADD `dst, a, b` (R143). -/
  | add (d a b : Byte)
  /-- SUB `dst, a, b` (R144). -/
  | sub (d a b : Byte)
  /-- MUL `dst, a, b` (R145). -/
  | mul (d a b : Byte)
  /-- DIV `dst, a, b` (R146). -/
  | div (d a b : Byte)
  /-- AND `dst, a, b` (R147). -/
  | and (d a b : Byte)
  /-- ORR `dst, a, b` (R148). -/
  | orr (d a b : Byte)
  /-- XOR `dst, a, b` (R149). -/
  | xor (d a b : Byte)
  /-- NOT `dst, a` (R150). -/
  | not (d a : Byte)
  /-- LSL `dst, a, b` (R151). -/
  | lsl (d a b : Byte)
  /-- LSR `dst, a, b` (R152). -/
  | lsr (d a b : Byte)
  /-- CMP `kind, dst, a, b` (R153). -/
  | cmp (k d a b : Byte)
  /-- JMP `cond_reg, target` (R190). -/
  | jmp (c : Byte) (target : Pos)
  /-- CALL `target` (R191). -/
  | call (target : Pos)
  /-- SCOPE `length`, followed in the program by `length` payload bytes (R192). -/
  | scope (length : BitVec 32)
  /-- END (R193). -/
  | endScope
  /-- EOP (R194). -/
  | eop
  deriving DecidableEq, Repr

end Sys2Proof
end

