-- ==== Sys2Proof/WellFormed.lean ====
section
/-! DEFINITION. Legal configurations (R5) and well-formed instructions (R102). -/

namespace Sys2Proof

/-- The legal values of the parameters (R5, R92). -/
abbrev Config.Legal (cfg : Config) : Prop :=
  (1 ≤ cfg.stackCapacity ∧ cfg.stackCapacity ≤ 2 ^ 31 - 1) ∧
  (1 ≤ cfg.scopeLimit ∧ cfg.scopeLimit ≤ 2 ^ 31 - 1) ∧
  cfg.maxImports ≤ 65536 ∧
  cfg.wordBytes ≤ cfg.windowSize ∧
  cfg.opcodes.toList.Nodup

/-- A register field names one of the six registers (R95). -/
def regOk (r : Byte) : Bool := r.toNat < 6

/-- Every field value is inside its legal range (R102): register fields 0..5 (R95), CMP kind 0..5 (R100), `len` of LDS,
STS and LDI 0..W (R96, R97). Every other field value is legal. A term outside is still a legal encoding; its handler
faults. -/
def Instr.wellFormed (cfg : Config) : Instr → Bool
  | .ldr d a l => regOk d && regOk a && regOk l
  | .str src a l => regOk src && regOk a && regOk l
  | .lds d _ len => regOk d && decide (len.toNat ≤ cfg.wordBytes)
  | .sts src _ len => regOk src && decide (len.toNat ≤ cfg.wordBytes)
  | .ldi d len => regOk d && decide (len.toNat ≤ cfg.wordBytes)
  | .mov d src => regOk d && regOk src
  | .neg r => regOk r
  | .invoke _ => true
  | .add d a b => regOk d && regOk a && regOk b
  | .sub d a b => regOk d && regOk a && regOk b
  | .mul d a b => regOk d && regOk a && regOk b
  | .div d a b => regOk d && regOk a && regOk b
  | .and d a b => regOk d && regOk a && regOk b
  | .orr d a b => regOk d && regOk a && regOk b
  | .xor d a b => regOk d && regOk a && regOk b
  | .not d a => regOk d && regOk a
  | .lsl d a b => regOk d && regOk a && regOk b
  | .lsr d a b => regOk d && regOk a && regOk b
  | .cmp k d a b => decide (k.toNat ≤ 5) && regOk d && regOk a && regOk b
  | .jmp c _ => regOk c
  | .call _ => true
  | .scope _ => true
  | .endScope => true
  | .eop => true

end Sys2Proof
end

