-- ==== Sys2Proof/Decode.lean ====
section
/-! DEFINITION. Decoding and encoding (R90-R104): the opcode map, the field layout of every format, the pure decoder on a
list of program bytes, the encoder. The fetch unit (Machine/Fetch.lean) reads the same layout field by field. -/

namespace Sys2Proof

/-- Every mnemonic, in table order. -/
def allOps : List Op :=
  [.ldr, .str, .lds, .sts, .ldi, .mov, .neg, .invoke,
   .add, .sub, .mul, .div, .and, .orr, .xor, .not,
   .lsl, .lsr, .cmp, .jmp, .call, .scope, .endScope, .eop]

/-- The place of a mnemonic in the §4.3 table order (R92). -/
def opRow : Op → Fin 24
  | .ldr => 0 | .str => 1 | .lds => 2 | .sts => 3
  | .ldi => 4 | .mov => 5 | .neg => 6 | .invoke => 7
  | .add => 8 | .sub => 9 | .mul => 10 | .div => 11
  | .and => 12 | .orr => 13 | .xor => 14 | .not => 15
  | .lsl => 16 | .lsr => 17 | .cmp => 18 | .jmp => 19
  | .call => 20 | .scope => 21 | .endScope => 22 | .eop => 23

/-- `OPCODE_MAP` (R92). -/
def opByte (cfg : Config) (o : Op) : Byte := cfg.opcodes[opRow o]

/-- The mnemonic an opcode byte selects; none is an undefined opcode (R101). -/
def decodeOp (cfg : Config) (b : Byte) : Option Op :=
  allOps.find? fun o => opByte cfg o == b

/-- The widths in bytes of the fixed fields after the opcode, in offset order (R91, R93). -/
def layout : Op → List Nat
  | .ldr | .str => [1, 1, 1]
  | .lds | .sts => [1, 4, 1]
  | .ldi => [1, 1]
  | .mov | .not => [1, 1]
  | .neg => [1]
  | .invoke => [2]
  | .add | .sub | .mul | .div | .and | .orr | .xor | .lsl | .lsr => [1, 1, 1]
  | .cmp => [1, 1, 1, 1]
  | .jmp => [1, 4]
  | .call => [4]
  | .scope => [4]
  | .endScope | .eop => []

/-- Field `k` of a list of field values, as a byte. -/
def byteField (vals : List Nat) (k : Nat) : Byte := BitVec.ofNat 8 (vals.getD k 0)

/-- Field `k` of a list of field values, as a 32-bit field. -/
def longField (vals : List Nat) (k : Nat) : BitVec 32 := BitVec.ofNat 32 (vals.getD k 0)

/-- The instruction of a mnemonic and the values of its fixed fields (R93, operand order). -/
def buildInstr (o : Op) (vals : List Nat) : Instr :=
  let byte := byteField vals
  let long := longField vals
  match o with
  | .ldr => .ldr (byte 0) (byte 1) (byte 2)
  | .str => .str (byte 0) (byte 1) (byte 2)
  | .lds => .lds (byte 0) (long 1) (byte 2)
  | .sts => .sts (byte 0) (long 1) (byte 2)
  | .ldi => .ldi (byte 0) (byte 1)
  | .mov => .mov (byte 0) (byte 1)
  | .neg => .neg (byte 0)
  | .invoke => .invoke (BitVec.ofNat 16 (vals.getD 0 0))
  | .add => .add (byte 0) (byte 1) (byte 2)
  | .sub => .sub (byte 0) (byte 1) (byte 2)
  | .mul => .mul (byte 0) (byte 1) (byte 2)
  | .div => .div (byte 0) (byte 1) (byte 2)
  | .and => .and (byte 0) (byte 1) (byte 2)
  | .orr => .orr (byte 0) (byte 1) (byte 2)
  | .xor => .xor (byte 0) (byte 1) (byte 2)
  | .not => .not (byte 0) (byte 1)
  | .lsl => .lsl (byte 0) (byte 1) (byte 2)
  | .lsr => .lsr (byte 0) (byte 1) (byte 2)
  | .cmp => .cmp (byte 0) (byte 1) (byte 2) (byte 3)
  | .jmp => .jmp (byte 0) (long 1)
  | .call => .call (long 0)
  | .scope => .scope (long 0)
  | .endScope => .endScope
  | .eop => .eop

/-- What the decoder says of a list of program bytes. -/
inductive Decoded where
  /-- An instruction, and the bytes after its fixed fields. -/
  | instr (i : Instr) (rest : List Byte)
  /-- The opcode byte is not assigned by the map (R101). -/
  | undefinedOpcode (b : Byte)
  /-- The bytes end before the instruction does (R68, R104). -/
  | short
  deriving DecidableEq, Repr

/-- Splits fields of the given widths off a list of bytes, each value read by `from_bytes` (R91). -/
def takeFields (e : Endian) : List Nat → List Byte → Option (List Nat × List Byte)
  | [], bs => some ([], bs)
  | n :: ns, bs =>
    if n ≤ bs.length then
      (takeFields e ns (bs.drop n)).map fun r => (fromBytes e (bs.take n) :: r.1, r.2)
    else none

/-- Decode of one instruction (R104): the opcode, then the fixed fields of its format. Total on any bytes. -/
def decode (cfg : Config) : List Byte → Decoded
  | [] => .short
  | b :: bs =>
    match decodeOp cfg b with
    | none => .undefinedOpcode b
    | some o =>
      match takeFields cfg.endian (layout o) bs with
      | none => .short
      | some (vals, rest) => .instr (buildInstr o vals) rest

/-- The mnemonic of an instruction. -/
def Instr.op : Instr → Op
  | .ldr .. => .ldr | .str .. => .str | .lds .. => .lds | .sts .. => .sts
  | .ldi .. => .ldi | .mov .. => .mov | .neg .. => .neg | .invoke .. => .invoke
  | .add .. => .add | .sub .. => .sub | .mul .. => .mul | .div .. => .div
  | .and .. => .and | .orr .. => .orr | .xor .. => .xor | .not .. => .not
  | .lsl .. => .lsl | .lsr .. => .lsr | .cmp .. => .cmp | .jmp .. => .jmp
  | .call .. => .call | .scope .. => .scope | .endScope => .endScope | .eop => .eop

/-- The values of an instruction's fixed fields, in offset order. -/
def Instr.operands : Instr → List Nat
  | .ldr d a l => [d.toNat, a.toNat, l.toNat]
  | .str src a l => [src.toNat, a.toNat, l.toNat]
  | .lds d addr len => [d.toNat, addr.toNat, len.toNat]
  | .sts src addr len => [src.toNat, addr.toNat, len.toNat]
  | .ldi d len => [d.toNat, len.toNat]
  | .mov d src => [d.toNat, src.toNat]
  | .neg r => [r.toNat]
  | .invoke index => [index.toNat]
  | .add d a b => [d.toNat, a.toNat, b.toNat]
  | .sub d a b => [d.toNat, a.toNat, b.toNat]
  | .mul d a b => [d.toNat, a.toNat, b.toNat]
  | .div d a b => [d.toNat, a.toNat, b.toNat]
  | .and d a b => [d.toNat, a.toNat, b.toNat]
  | .orr d a b => [d.toNat, a.toNat, b.toNat]
  | .xor d a b => [d.toNat, a.toNat, b.toNat]
  | .not d a => [d.toNat, a.toNat]
  | .lsl d a b => [d.toNat, a.toNat, b.toNat]
  | .lsr d a b => [d.toNat, a.toNat, b.toNat]
  | .cmp k d a b => [k.toNat, d.toNat, a.toNat, b.toNat]
  | .jmp c target => [c.toNat, target.toNat]
  | .call target => [target.toNat]
  | .scope length => [length.toNat]
  | .endScope => []
  | .eop => []

/-- The length in bytes of the opcode and the fixed fields (R93, R94): the whole instruction but for LDI's immediate and
SCOPE's payload. -/
def Instr.fixedLength (i : Instr) : Nat := 1 + (layout i.op).sum

/-- The number of bytes that follow the fixed fields: LDI's immediate, SCOPE's payload (R94). -/
def Instr.variableLength : Instr → Nat
  | .ldi _ len => len.toNat
  | .scope length => length.toNat
  | _ => 0

/-- Fields of the given widths as program bytes. -/
def putFields (e : Endian) : List Nat → List Nat → List Byte
  | n :: ns, v :: vs => toBytes e v n ++ putFields e ns vs
  | _, _ => []

/-- The program bytes of an instruction's opcode and fixed fields (R93). -/
def encode (cfg : Config) (i : Instr) : List Byte :=
  opByte cfg i.op :: putFields cfg.endian (layout i.op) i.operands

/-- The whole instruction as it lies in the program, with its immediate or payload bytes (R96, R99). -/
def encodeWith (cfg : Config) (i : Instr) (payload : List Byte) : List Byte :=
  encode cfg i ++ payload

/-- The instruction that lies first in the bytes of `w`: bit 0 of `w` is bit 0 of the first byte, and `nbits` gives how many
bits the row is given; every bit above is 0. Read under the default configuration, as the table is. -/
def decodeTableWord (nbits w : Nat) : Option Instr :=
  match decode defaultConfig (leBytes w (nbits / 8) ++ List.replicate 16 0) with
  | .instr i _ => some i
  | _ => none

end Sys2Proof
end

