-- ==== Sys2Proof/Machine/State.lean ====
section
/-! DEFINITION. The state of the block (10_state.md), the reasons a step can stop, and the state after reset. -/

namespace Sys2Proof.Machine

/-- Bytes by address, addresses strictly rising; an unlisted address holds no value: it is unwritten (R59; log 7). -/
abbrev Memory := List Host.Cell

/-- A supplier call the fetch unit made and the number of bytes it got (R62). -/
structure SupplyCall where
  index : Nat
  maxLength : Nat
  delivered : Nat
  deriving DecidableEq, Repr

/-- The program-window fetch unit (R38, R60-R68), with the program image behind it. In resident mode `base` and `buf` are
not used. The read cursor B is `pc - base` and the fill F is the length of `buf` (R24, R65; log 18). -/
structure FetchUnit where
  /-- The program image, from absolute position 0 (R60); it never changes while the block is initialised (R61). -/
  image : List Byte
  /-- The program position (R24). -/
  pc : Pos
  /-- P, `program_index`: the absolute position of buffer byte 0 (R65). -/
  base : Pos
  /-- The valid bytes of the window. -/
  buf : List Byte
  /-- How many bytes the supplier delivers at its next calls; with none left it is faithful (R62; log 13). -/
  plan : List Nat
  /-- The supplier calls made, oldest first. -/
  log : List SupplyCall
  deriving DecidableEq, Repr

/-- A scope frame (R29). `ret` 0 means no return address (R30). -/
structure Frame where
  stackBase : Nat
  ret : Pos
  deriving DecidableEq, Repr

/-- The fault kinds (R210). -/
inductive FaultKind where
  | version | stackRange | registerRange | scopeDepth | cmpKind | undefinedOpcode | importFault | headerFormat | operandLength
  deriving DecidableEq, Repr

/-- The subcauses (R210). -/
inductive Subcause where
  | majorMismatch | minorTooNew
  | openBeyondLimit | closeNoneOpen | callNoSlot
  | outOfRange | unbound
  | nameTableOverflow | tooManyImports
  deriving DecidableEq, Repr

/-- A fault's kind with its subcause and the information recorded for it (R210). -/
inductive FaultInfo where
  | version (sub : Subcause) (major minor : BitVec 16)
  | stackRange (address : Int) (length : Nat)
  | registerRange (offset : Nat) (index : Byte)
  | scopeDepth (sub : Subcause) (si : Nat)
  | cmpKind (kind : Byte)
  | undefinedOpcode (opcode : Byte)
  | importFault (sub : Subcause) (index : BitVec 16)
  | headerFormat (sub : Subcause) (importCount : BitVec 32) (bytesRead : Nat)
  | operandLength (length : Nat)
  deriving DecidableEq, Repr

/-- One fault taken (R37, R214). Kind, code and subcause are those of `info`. -/
structure FaultRecord where
  info : FaultInfo
  position : Pos
  deriving DecidableEq, Repr

/-- The message of a sink call: the one text the source gives, or a text it does not give (R219; log 21). -/
inductive Message where
  | importIndexOutOfRange
  | notGiven (kind : FaultKind)
  deriving DecidableEq, Repr

/-- All that the host can read of the state (R41, R175): every element of 10_state.md but the window. It is what a callback has
to go by, and the read-only view that the sink is passed (R218; log 28). -/
structure PortView where
  regs : Vector Word 6
  pc : Pos
  stack : Memory
  sp : Nat
  frames : List Frame
  si : Nat
  running : Bool
  ready : Bool
  nameTable : List Byte
  importCount : BitVec 32
  table : List (Option CallbackId)
  fault : Option FaultRecord
  deriving DecidableEq, Repr

/-- One call of the diagnostic sink (R218): the view of the state as it is when the sink is called, the absolute program position,
the kind and the message. -/
structure SinkReport where
  view : PortView
  position : Pos
  kind : FaultKind
  message : Message
  deriving DecidableEq, Repr

/-- What a read through the state-access port gives (R41, R175). -/
inductive PortValue where
  | word (v : Word)
  /-- A byte of the stack or of the name table; `none`, nothing has written it and the spec gives it no value (R40). -/
  | byte (b : Option Byte)
  | position (p : Pos)
  | number (n : Nat)
  | frame (f : Frame)
  | flag (b : Bool)
  | slot (c : Option CallbackId)
  | fault (f : Option FaultRecord)
  deriving DecidableEq, Repr

/-- What a host command answered (R10, R216, R245, R250, R252; R6 for a read). -/
inductive HostResult where
  | ok
  | halted
  | fault (kind : FaultKind)
  | notRunning
  | initOk
  | initFailed (kind : FaultKind)
  | isRunning (b : Bool)
  | value (v : PortValue)
  | done
  deriving DecidableEq, Repr

/-- A transaction of the host command port or the state-access port, made between steps (R6, R175). -/
inductive HostCommand where
  /-- `init(source)`: the image, and how many bytes the supplier delivers at each call (R245, R62). -/
  | init (image : List Byte) (plan : List Nat)
  | link (name : List Byte) (c : CallbackId)
  | start
  | step
  | stop
  | isRunning
  | write (w : PortWrite)
  | read (q : PortRead)
  deriving DecidableEq, Repr

/-- Why the machine stops with no step out: the model-only outcomes of R220, R221 and R223. None is a fault of the block:
those are next states (R214). -/
inductive Fault where
  /-- UNDEFINED_RESULT (R220). Raised by DIV, NEG, LSL and LSR where the host's arithmetic has no step out
  (`hostArithStops`). Safe: nothing is proved of a run past it. -/
  | undefinedResult (reason : UndefReason)
  /-- FETCH_UNDEFINED (R221). Raised by any fetch of program bytes that the unit does not hold after its refill: of an
  opcode, a field, an immediate, a payload, a header. Safe. -/
  | fetchUndefined
  /-- UNWRITTEN_STACK (R223). Raised by LDR and LDS where a byte of the range was never written. Safe. -/
  | unwrittenStack (address length : Nat)
  deriving DecidableEq, Repr

/-- Why a transition has no meaning. Safe for a host that keeps its duties (R256); a host that breaks one is a blind spot of
the spec itself (93_implementation_defined items 13, 15, 26). -/
inductive Refusal where
  /-- An instruction with no meaning yet: raised by no arm now. Safe. -/
  | notModelled (mnemonic : String)
  /-- A second `init` on one instance (R245, R256). Raised by the init command. Safe for a host that keeps its duty. -/
  | initTwice
  /-- A program image longer than `2^32 - 1` bytes (R26). Raised by the init command. Safe as above. -/
  | imageTooLong
  /-- `link` before a successful init (R172: no meaning). Raised by the link command and act. Safe as above. -/
  | linkBeforeInit
  /-- A write through the state-access port outside the limits of R175 (R176: no meaning) or of a `stack_base` outside R29's
  range (log 29), or an access to an element that does not exist (log 11). Raised by the write and read commands and by a callback. Safe as above. -/
  | portRange
  /-- A callback that calls step, init or start (R176, R262: no meaning). Raised by INVOKE. Safe as above. -/
  | callbackReentry
  deriving DecidableEq, Repr

/-- The whole state of the block, with the transcripts of its ports and the inputs its host has in store. -/
structure State where
  /-- The parameters of R5: no step writes them. -/
  cfg : Config
  /-- The register file x[0..5] (R20). -/
  regs : Vector Word 6
  /-- Which registers have been written since init (R23). -/
  written : Vector Bool 6
  /-- MODEL'S OWN (log 6): the registers read while unwritten, oldest first: each an UNWRITTEN_REGISTER outcome (R222). -/
  unwrittenReads : List (Fin 6)
  /-- The fetch unit and the program (R24, R38, R60). -/
  fu : FetchUnit
  /-- The position of the opcode byte of the instruction in progress (R25, R104). -/
  opAddr : Pos
  /-- The stack bytes (R51, R59). -/
  stack : Memory
  /-- The stack pointer (R28). -/
  sp : Nat
  /-- The scope frames (R29), `SCOPE_LIMIT` of them. -/
  frames : List Frame
  /-- The scope index (R31). -/
  si : Nat
  /-- R32. -/
  running : Bool
  /-- R33. -/
  ready : Bool
  /-- MODEL'S OWN (log 26): `init` has been called on this instance. -/
  initDone : Bool
  /-- The bytes init wrote into the import name table (R34; log 24). -/
  nameTable : List Byte
  /-- R35. -/
  importCount : BitVec 32
  /-- The external function table (R36), `MAX_IMPORTS` slots; `none` is unbound. -/
  table : List (Option CallbackId)
  /-- Every fault taken, newest first (R37); its head is the fault record. -/
  faults : List FaultRecord
  /-- The sink calls made, oldest first (R218). -/
  sinkLog : List SinkReport
  /-- The invocation trace, oldest first (R177). -/
  invocations : List (BitVec 16)
  /-- The reads made through the state-access port with what they gave, oldest first (R6, R41; log 25). -/
  portReads : List (PortRead × PortValue)
  /-- What the last host command answered (R10). -/
  result : Option HostResult
  /-- MODEL'S OWN (log 12): the commands waiting at the host command port, oldest first. -/
  commands : List HostCommand
  /-- MODEL'S OWN (log 10): what the next callbacks do, one list an invocation. -/
  callbackQueue : List (List CallbackAct)
  /-- MODEL'S OWN (log 8): how many free values of the host's arithmetic were drawn. -/
  draws : Nat
  /-- MODEL'S OWN (log 8): why each was drawn, oldest first: each an UNDEFINED_RESULT outcome (R220). -/
  undefinedResults : List UndefReason
  deriving DecidableEq, Repr

/-- The program position (R24). -/
abbrev State.pc (s : State) : Pos := s.fu.pc

/-- The fault record: the last fault, if any (R37). -/
abbrev State.fault (s : State) : Option FaultRecord := s.faults.head?

/-- The fetch unit before the first fetch of init: an empty window at position 0 (R65, R245). -/
def FetchUnit.empty (image : List Byte) (plan : List Nat) : FetchUnit :=
  { image := image, pc := 0, base := 0, buf := [], plan := plan, log := [] }

/-- A block of this configuration before `init`: not ready, not running, no program (R33, R245). The block has no reset
pin; these are the values `init` begins with, and R40's where init leaves them (log 27). -/
def State.blank (cfg : Config) : State where
  cfg := cfg
  regs := Vector.replicate 6 0
  written := Vector.replicate 6 false
  unwrittenReads := []
  fu := FetchUnit.empty [] []
  opAddr := 0
  stack := []
  sp := 0
  frames := List.replicate cfg.scopeLimit ⟨0, 0⟩
  si := 0
  running := false
  ready := false
  initDone := false
  nameTable := []
  importCount := 0
  table := List.replicate cfg.maxImports none
  faults := []
  sinkLog := []
  invocations := []
  portReads := []
  result := none
  commands := []
  callbackQueue := []
  draws := 0
  undefinedResults := []

/-- The machine right after reset: the block before `init`, under the default configuration. -/
def State.reset : State := State.blank defaultConfig

/-- What a transition of the machine answers. -/
abbrev Result := Host.Outcome State Fault Refusal

end Sys2Proof.Machine

namespace Sys2Proof

/-- FREE VALUE (log 10): what callback `c` does at the `n`-th invocation of a run, from all that it can read when it is
called, where the model's queue of callback behaviours is empty (R174: `CALLBACK[index]` is any relation on states). -/
opaque Config.freeCallback : CallbackId → Nat → Machine.PortView → List CallbackAct

end Sys2Proof
end

