-- ==== Sys2Proof/Machine/Fetch.lean ====
section
/-! DEFINITION. The program-window fetch unit (R60-R70): the supplier port, the refill, the fetch primitives and `jump_to`,
first on the unit alone, then on the state. -/

namespace Sys2Proof.Machine

/-- The buffered bytes at and after the program position: `buf[B .. F-1]` (R65). -/
def fuUnread (fu : FetchUnit) : List Byte :=
  if fu.base.toNat ≤ fu.pc.toNat then fu.buf.drop (fu.pc.toNat - fu.base.toNat) else []

/-- How many bytes `supply(index, max)` delivers: a faithful supplier all there are up to `max`; with a plan, no more than
its next entry (R62). -/
def fuDelivered (fu : FetchUnit) (index max : Nat) : Nat :=
  let faithful := min max (fu.image.length - index)
  match fu.plan with
  | [] => faithful
  | k :: _ => min k faithful

/-- `supply(index, max)` (R62): the bytes delivered, and the unit after the call. -/
def fuSupply (fu : FetchUnit) (index max : Nat) : List Byte × FetchUnit :=
  let k := fuDelivered fu index max
  ((fu.image.drop index).take k, { fu with plan := fu.plan.tail, log := fu.log ++ [⟨index, max, k⟩] })

/-- `refill` (R66): the unread tail goes to the front and the supplier is asked for the rest, from the first byte not yet
in the window (C2). -/
def fuRefill (cfg : Config) (fu : FetchUnit) : FetchUnit :=
  let tail := fuUnread fu
  let r := fuSupply fu (fu.pc.toNat + tail.length) (cfg.windowSize - tail.length)
  { r.2 with base := fu.pc, buf := tail ++ r.1 }

/-- `ensure_available(n)` (R66). -/
def fuEnsure (cfg : Config) (n : Nat) (fu : FetchUnit) : FetchUnit :=
  if (fuUnread fu).length < n then fuRefill cfg fu else fu

/-- `bytes(pc, n)` and the advance of `pc` (R63, R64, R66); none is FETCH_UNDEFINED (R68). -/
def fuFetch (cfg : Config) (n : Nat) (fu : FetchUnit) : Option (List Byte × FetchUnit) :=
  match cfg.fetchMode with
  | .resident =>
    if fu.pc.toNat + n ≤ fu.image.length then
      some ((fu.image.drop fu.pc.toNat).take n, { fu with pc := fu.pc + BitVec.ofNat 32 n })
    else none
  | .streaming =>
    let fu' := fuEnsure cfg n fu
    let bs := (fuUnread fu').take n
    if bs.length = n then some (bs, { fu' with pc := fu'.pc + BitVec.ofNat 32 n }) else none

/-- `jump_to(t)` (R64, R67). -/
def fuJump (cfg : Config) (t : Pos) (fu : FetchUnit) : FetchUnit :=
  match cfg.fetchMode with
  | .resident => { fu with pc := t }
  | .streaming =>
    if fu.base.toNat ≤ t.toNat ∧ t.toNat < fu.base.toNat + fu.buf.length then { fu with pc := t }
    else
      let r := fuSupply fu t.toNat cfg.windowSize
      { r.2 with pc := t, base := t, buf := r.1 }

/-- The next `n` program bytes and the state after the fetch (R63); none is FETCH_UNDEFINED. -/
def fetchBytes (n : Nat) (s : State) : Option (List Byte × State) :=
  (fuFetch s.cfg n s.fu).map fun r => (r.1, { s with fu := r.2 })

/-- `fetch_u8`, `fetch_u16`, `fetch_u32` (R63): the value of an `n`-byte field in the configured byte order. -/
def fetchValue (n : Nat) (s : State) : Option (Nat × State) :=
  (fetchBytes n s).map fun r => (fromBytes s.cfg.endian r.1, r.2)

/-- `jump_to(t)` (R67); `pc <- t` of a rule (R9). -/
def State.jumpTo (s : State) (t : Pos) : State := { s with fu := fuJump s.cfg t s.fu }

/-- The fixed fields of a format, fetched one by one in offset order (R63, R104). -/
def fetchFields : List Nat → State → Option (List Nat × State)
  | [], s => some ([], s)
  | n :: ns, s =>
    match fetchValue n s with
    | none => none
    | some (v, s') => (fetchFields ns s').map fun r => (v :: r.1, r.2)

/-- What fetching one instruction gives (R104). -/
inductive Fetched where
  /-- The instruction; the state's `pc` is after its fixed fields and `opAddr` at its opcode. -/
  | instr (i : Instr) (s : State)
  /-- The opcode byte is not assigned; no operand byte was fetched (R101). -/
  | undefinedOpcode (b : Byte) (s : State)
  /-- FETCH_UNDEFINED (R68). -/
  | short

/-- Fetches and decodes the instruction at `pc` (R104). -/
def fetchInstr (s : State) : Fetched :=
  match fetchValue 1 { s with opAddr := s.pc } with
  | none => .short
  | some (v, s1) =>
    match decodeOp s.cfg (BitVec.ofNat 8 v) with
    | none => .undefinedOpcode (BitVec.ofNat 8 v) s1
    | some o =>
      match fetchFields (layout o) s1 with
      | none => .short
      | some (vals, s2) => .instr (buildInstr o vals) s2

end Sys2Proof.Machine
end

