-- ==== Sys2Proof/Machine/Ops.lean ====
section
/-! DEFINITION. The named operations over registers, stack memory and frames, and the one operation that takes a fault. -/

namespace Sys2Proof.Machine

/-! Registers (R20-R23). -/

/-- `x[r]` (R9): the low `8*W` bits, which are all a register has (R20). -/
def State.readReg (s : State) (r : Fin 6) : Word := truncN s.cfg s.regs[r].toNat

/-- `x[r] <- v` (R9): a whole word, and the register is written (R23). -/
def State.setReg (s : State) (r : Fin 6) (v : Word) : State :=
  { s with regs := s.regs.set r (truncN s.cfg v.toNat), written := s.written.set r true }

/-- Notes the sources an instruction reads: each one nothing has written leaves its mark (R222; log 6). -/
def State.noteReads (s : State) (rs : List (Fin 6)) : State :=
  { s with unwrittenReads := s.unwrittenReads ++ rs.filter fun r => !s.written[r] }

/-- Notes that a value of the host's arithmetic is drawn: the counter, and the mark of the UNDEFINED_RESULT outcome (R220;
log 8). -/
def State.noteUndefined (s : State) (reason : UndefReason) : State :=
  { s with draws := s.draws + 1, undefinedResults := s.undefinedResults ++ [reason] }

/-! Stack memory (R50-R59). -/

/-- The canonical form: addresses strictly rising. An unlisted address holds no value, so no entry repeats one. -/
abbrev Memory.wf (m : Memory) : Prop := (m.map Prod.fst).Pairwise (· < ·)

/-- The byte at an address; none is unwritten (R59). -/
def memRead : Memory → Nat → Option Byte
  | [], _ => none
  | (x, y) :: m, a => if x = a then some y else memRead m a

/-- Writes one byte, in its place. -/
def memWrite : Memory → Nat → Byte → Memory
  | [], a, b => [(a, b)]
  | (x, y) :: m, a, b =>
    if a < x then (a, b) :: (x, y) :: m
    else if a = x then (a, b) :: m
    else (x, y) :: memWrite m a b

/-- `MemRead(a, n)` (R9); none where a byte is unwritten (R59). -/
def memReadBytes (m : Memory) (a : Nat) : Nat → Option (List Byte)
  | 0 => some []
  | n + 1 =>
    match memRead m a with
    | none => none
    | some b => (memReadBytes m (a + 1) n).map (b :: ·)

/-- `MemWrite(a, n, bs)` with `n` the length of `bs` (R9). -/
def memWriteBytes (m : Memory) (a : Nat) : List Byte → Memory
  | [] => m
  | b :: bs => memWriteBytes (memWrite m a b) (a + 1) bs

/-- The bytes `bs` written at `a`. -/
def State.writeStack (s : State) (a : Nat) (bs : List Byte) : State :=
  { s with stack := memWriteBytes s.stack a bs }

/-- `in_capacity(a, n)` (R52). -/
def State.inCapacity (s : State) (a : Int) (n : Nat) : Bool := decide (0 ≤ a ∧ a + n ≤ s.cfg.stackCapacity)

/-- `in_live(a, n)` (R52). -/
def State.inLive (s : State) (a : Int) (n : Nat) : Bool := decide (0 ≤ a ∧ a + n ≤ s.sp)

/-! Scope frames (R29). -/

/-- `frames[k]`. -/
def State.frame (s : State) (k : Nat) : Frame := s.frames.getD k ⟨0, 0⟩

/-- `frames[k].stack_base <- n`. -/
def State.setFrameBase (s : State) (k n : Nat) : State :=
  { s with frames := s.frames.set k { s.frame k with stackBase := n } }

/-- `frames[k].ret <- t`. -/
def State.setFrameRet (s : State) (k : Nat) (t : Pos) : State :=
  { s with frames := s.frames.set k { s.frame k with ret := t } }

/-- `sp <- n` (R28). -/
def State.setSp (s : State) (n : Nat) : State := { s with sp := n }

/-- `si <- n` (R31). -/
def State.setSi (s : State) (n : Nat) : State := { s with si := n }

/-- `running <- b` (R32). -/
def State.setRunning (s : State) (b : Bool) : State := { s with running := b }

/-- What the command answers (R10). -/
def State.answer (s : State) (r : HostResult) : State := { s with result := some r }

/-! Taking a fault (R210-R219). -/

/-- The kind of a fault (R210). -/
def FaultInfo.kind : FaultInfo → FaultKind
  | .version .. => .version
  | .stackRange .. => .stackRange
  | .registerRange .. => .registerRange
  | .scopeDepth .. => .scopeDepth
  | .cmpKind .. => .cmpKind
  | .undefinedOpcode .. => .undefinedOpcode
  | .importFault .. => .importFault
  | .headerFormat .. => .headerFormat
  | .operandLength .. => .operandLength

/-- The numeric code of a kind (R210, R211). -/
def FaultKind.code : FaultKind → Nat
  | .version => 0
  | .stackRange => 1
  | .registerRange => 2
  | .scopeDepth => 3
  | .cmpKind => 4
  | .undefinedOpcode => 5
  | .importFault => 6
  | .headerFormat => 7
  | .operandLength => 8

/-- The subcause of a fault, where its kind has one (R210). -/
def FaultInfo.subcause : FaultInfo → Option Subcause
  | .version sub _ _ => some sub
  | .scopeDepth sub _ => some sub
  | .importFault sub _ => some sub
  | .headerFormat sub _ _ => some sub
  | .stackRange .. | .registerRange .. | .cmpKind .. | .undefinedOpcode .. | .operandLength .. => none

/-- The message of a fault: the source gives one text (R219). -/
def FaultInfo.message (f : FaultInfo) : Message :=
  match f with
  | .importFault .outOfRange _ => .importIndexOutOfRange
  | f => .notGiven f.kind

/-- All that the host can read of the state (R41, R175). -/
def State.portView (s : State) : PortView where
  regs := Vector.ofFn s.readReg
  pc := s.pc
  stack := s.stack
  sp := s.sp
  frames := s.frames
  si := s.si
  running := s.running
  ready := s.ready
  nameTable := s.nameTable
  importCount := s.importCount
  table := s.table
  fault := s.fault

/-- The part of fault entry that init's faults share, in the order of R214 (R245): the record, the sink call if a sink is attached,
which is passed a view of the state with the record in it and `running` not yet cleared (R218), and `running <- false`. -/
def State.recordFault (s : State) (f : FaultInfo) (position : Pos) : State :=
  { s with
    faults := ⟨f, position⟩ :: s.faults
    sinkLog := s.sinkLog ++ if s.cfg.sinkAttached then
      [⟨{ s.portView with fault := some ⟨f, position⟩ }, position, f.kind, f.message⟩] else []
    running := false }

/-- The state after `raise Fault(kind, info)` (R214): the instruction undone, `pc` back at the opcode by `jump_to` (R9,
R215; log 14), the fault recorded, the block stopped, the step answering FAULT(kind). Nothing else was committed,
since every check of an instruction stands before its first effect (R215; log 23). -/
def State.takeFault (s : State) (f : FaultInfo) : State :=
  ((s.jumpTo s.opAddr).recordFault f s.opAddr).answer (.fault f.kind)

/-- `raise Fault(kind, info)` (R9, R214): the fault is taken; it is a next state. -/
def raise (f : FaultInfo) (s : State) : Result := .next (s.takeFault f)

/-- The instruction completed (R10). -/
def complete (s : State) : Result := .next (s.answer .ok)

end Sys2Proof.Machine
end

