-- ==== Sys2Proof/Machine/Flags.lean ====
section
/-! DEFINITION. The block has no status flags and no condition codes (R27): the only condition is the Boolean that CMP
computes into a register, here. -/

namespace Sys2Proof.Machine

/-- The integers CMP compares: signed or unsigned by `CMP_SIGNED` (R153). -/
def cmpView (cfg : Config) (v : Word) : Int :=
  if cfg.cmpSigned then signedValue cfg v else (v.toNat : Int)

/-- The comparison of kind `k` (R100, R153); kinds above 5 have none. -/
def cmpHolds (cfg : Config) (k : Byte) (va vb : Word) : Option Bool :=
  let p := cmpView cfg va
  let q := cmpView cfg vb
  match k.toNat with
  | 0 => some (decide (p = q))
  | 1 => some (decide (p ≠ q))
  | 2 => some (decide (p > q))
  | 3 => some (decide (p < q))
  | 4 => some (decide (p ≥ q))
  | 5 => some (decide (p ≤ q))
  | _ => none

/-- A Boolean as a word (R153): 1 or 0. -/
def boolWord (t : Bool) : Word := if t then 1 else 0

end Sys2Proof.Machine
end

