-- ==== Sys2Proof/Machine/Operands.lean ====
section
/-! DEFINITION. The operand forms: checked register fields, transfer lengths, literal addresses, the conversions between words
and bytes, and the three-operand frame. -/

namespace Sys2Proof.Machine

/-- `check_reg` (R9, R95) of the register field at byte `offset` of the instruction; goes on with the register's index. -/
def checkReg (offset : Nat) (r : Byte) (s : State) (k : Fin 6 → Result) : Result :=
  if h : r.toNat < 6 then k ⟨r.toNat, h⟩ else raise (.registerRange offset r) s

/-- The transfer-length check (R120). -/
def checkLength (n : Nat) (s : State) (k : Result) : Result :=
  if n > s.cfg.wordBytes then raise (.operandLength n) s else k

/-- `load_value` (R121): zero-extended. -/
def loadValue (cfg : Config) (bs : List Byte) : Word := truncN cfg (fromBytes cfg.endian bs)

/-- `store_bytes(v, n)` (R122): the low `8n` bits. -/
def storeBytes (cfg : Config) (v : Word) (n : Nat) : List Byte := toBytes cfg.endian (v.toNat % 256 ^ n) n

/-- The effective address of LDS and STS (R97, R125): a negative literal is relative to `sp`. -/
def literalAddress (s : State) (addr : BitVec 32) : Int :=
  if 0 ≤ addr.toInt then addr.toInt else (s.sp : Int) + addr.toInt

/-- Loads `n` checked bytes at `a` into a register (R123, R125). -/
def loadInto (d : Fin 6) (a n : Nat) (s : State) : Result :=
  match memReadBytes s.stack a n with
  | none => .fault (.unwrittenStack a n)
  | some bs => complete (s.setReg d (loadValue s.cfg bs))

/-- The end of an instruction whose result the source leaves to the host's arithmetic (R220; log 8): no step out, or a free
value in the destination, and the mark of the outcome. -/
def undefinedResult (reason : UndefReason) (va vb : Word) (d : Fin 6) (s : State) : Result :=
  if s.cfg.hostArithStops then .fault (.undefinedResult reason)
  else complete ((s.noteUndefined reason).setReg d (Config.hostArith reason va vb s.draws))

/-- An operation of two words, which may end in `undefined_result` (R141). -/
abbrev AluOp := Config → Word → Word → Except UndefReason Word

/-- The three-operand frame (R141). -/
def threeOperand (f : AluOp) (d a b : Byte) (s : State) : Result :=
  checkReg 1 d s fun d =>
  checkReg 2 a s fun a =>
  checkReg 3 b s fun b =>
  let s := s.noteReads [a, b]
  let va := s.readReg a
  let vb := s.readReg b
  match f s.cfg va vb with
  | .ok v => complete (s.setReg d v)
  | .error reason => undefinedResult reason va vb d s

end Sys2Proof.Machine
end

