-- ==== Sys2Proof/Machine/Arith.lean ====
section
/-! DEFINITION. NEG, ADD, SUB, MUL, DIV, AND, ORR, XOR, NOT, LSL, LSR, CMP (R140-R153). -/

namespace Sys2Proof.Machine

/-! The operations of two words: the `f` of each rule. -/

/-- R143. -/
def aluAdd : AluOp := fun cfg va vb => .ok (truncN cfg (va.toNat + vb.toNat))

/-- R144. -/
def aluSub : AluOp := fun cfg va vb => .ok (truncInt cfg ((va.toNat : Int) - vb.toNat))

/-- R145. -/
def aluMul : AluOp := fun cfg va vb => .ok (truncN cfg (va.toNat * vb.toNat))

/-- R146: signed division truncates toward zero. -/
def aluDiv : AluOp := fun cfg va vb =>
  if cfg.divSigned then
    if signedValue cfg vb = 0 then .error .divByZero
    else if signedValue cfg va = -(2 ^ (cfg.bits - 1)) ∧ signedValue cfg vb = -1 then .error .divOverflow
    else .ok (truncInt cfg ((signedValue cfg va).tdiv (signedValue cfg vb)))
  else
    if vb.toNat = 0 then .error .divByZero
    else .ok (truncN cfg (va.toNat / vb.toNat))

/-- R147. -/
def aluAnd : AluOp := fun _ va vb => .ok (va &&& vb)

/-- R148. -/
def aluOrr : AluOp := fun _ va vb => .ok (va ||| vb)

/-- R149. -/
def aluXor : AluOp := fun _ va vb => .ok (va ^^^ vb)

/-- R151: the amount is the whole word of `b`, unsigned. -/
def aluLsl : AluOp := fun cfg va vb =>
  if vb.toNat ≥ cfg.bits then .error .shiftRange
  else .ok (truncN cfg (va.toNat * 2 ^ vb.toNat))

/-- R152: the sign bit or zeros shifted in, by `LSR_ARITHMETIC`. -/
def aluLsr : AluOp := fun cfg va vb =>
  if vb.toNat ≥ cfg.bits then .error .shiftRange
  else if cfg.lsrArithmetic then .ok (truncInt cfg (signedValue cfg va / 2 ^ vb.toNat))
  else .ok (truncN cfg (va.toNat / 2 ^ vb.toNat))

/-! The meanings. -/

/-- NEG (R142): two's complement, but for the most negative word. -/
def execNeg (r : Byte) (s : State) : Result :=
  checkReg 1 r s fun r =>
  let s := s.noteReads [r]
  let v := s.readReg r
  if signedValue s.cfg v = -(2 ^ (s.cfg.bits - 1)) then undefinedResult .negOverflow v 0 r s
  else complete (s.setReg r (truncInt s.cfg (0 - (v.toNat : Int))))

/-- ADD (R143). -/
def execAdd (d a b : Byte) (s : State) : Result := threeOperand aluAdd d a b s

/-- SUB (R144). -/
def execSub (d a b : Byte) (s : State) : Result := threeOperand aluSub d a b s

/-- MUL (R145). -/
def execMul (d a b : Byte) (s : State) : Result := threeOperand aluMul d a b s

/-- DIV (R146). -/
def execDiv (d a b : Byte) (s : State) : Result := threeOperand aluDiv d a b s

/-- AND (R147). -/
def execAnd (d a b : Byte) (s : State) : Result := threeOperand aluAnd d a b s

/-- ORR (R148). -/
def execOrr (d a b : Byte) (s : State) : Result := threeOperand aluOrr d a b s

/-- XOR (R149). -/
def execXor (d a b : Byte) (s : State) : Result := threeOperand aluXor d a b s

/-- NOT (R150). -/
def execNot (d a : Byte) (s : State) : Result :=
  checkReg 1 d s fun d =>
  checkReg 2 a s fun a =>
  let s := s.noteReads [a]
  complete (s.setReg d (truncN s.cfg (2 ^ s.cfg.bits - 1 - (s.readReg a).toNat)))

/-- LSL (R151). -/
def execLsl (d a b : Byte) (s : State) : Result := threeOperand aluLsl d a b s

/-- LSR (R152). -/
def execLsr (d a b : Byte) (s : State) : Result := threeOperand aluLsr d a b s

/-- CMP (R153): the kind is the first field, so it is checked first (R213). -/
def execCmp (k d a b : Byte) (s : State) : Result :=
  if k.toNat > 5 then raise (.cmpKind k) s
  else
    checkReg 2 d s fun d =>
    checkReg 3 a s fun a =>
    checkReg 4 b s fun b =>
    let s := s.noteReads [a, b]
    complete (s.setReg d (boolWord ((cmpHolds s.cfg k (s.readReg a) (s.readReg b)).getD false)))

end Sys2Proof.Machine
end

