-- ==== Sys2Proof/Machine/Control.lean ====
section
/-! DEFINITION. JMP, CALL, SCOPE, END, EOP (R190-R197). -/

namespace Sys2Proof.Machine

/-- Copies the next `n` program bytes to the stack from address `a` on, fetched one at a time (R63, R99): SCOPE's payload and
the root-scope block. None is FETCH_UNDEFINED. -/
def copyToStack : Nat → Nat → State → Option State
  | 0, _, s => some s
  | n + 1, a, s =>
    match fetchBytes 1 s with
    | none => none
    | some (bs, s') => copyToStack n (a + 1) (s'.writeStack a bs)

/-- JMP (R190). -/
def execJmp (c : Byte) (target : Pos) (s : State) : Result :=
  checkReg 1 c s fun c =>
  let s := s.noteReads [c]
  if (s.readReg c).toNat ≠ 0 then complete (s.jumpTo target) else complete s

/-- CALL (R191): stages the resume position in the slot above the current depth. -/
def execCall (target : Pos) (s : State) : Result :=
  if s.si + 1 ≥ s.cfg.scopeLimit then raise (.scopeDepth .callNoSlot s.si) s
  else complete ((s.setFrameRet (s.si + 1) (s.opAddr + 5)).jumpTo target)

/-- SCOPE (R192): depth, then capacity, then the payload. -/
def execScope (length : BitVec 32) (s : State) : Result :=
  if s.si + 1 ≥ s.cfg.scopeLimit then raise (.scopeDepth .openBeyondLimit s.si) s
  else if !s.inCapacity s.sp length.toNat then raise (.stackRange s.sp length.toNat) s
  else
    match copyToStack length.toNat s.sp (s.setFrameBase (s.si + 1) s.sp) with
    | none => .fault .fetchUndefined
    | some s' => complete ((s'.setSp (s'.sp + length.toNat)).setSi (s'.si + 1))

/-- END (R193). -/
def execEndScope (s : State) : Result :=
  if s.si = 0 then raise (.scopeDepth .closeNoneOpen s.si) s
  else
    let f := s.frame s.si
    let s1 := s.setSp f.stackBase
    let s2 := if f.ret ≠ 0 then (s1.setFrameRet s1.si 0).jumpTo f.ret else s1
    complete (s2.setSi (s2.si - 1))

/-- EOP (R194): the block stops; the step answers HALTED. -/
def execEop (s : State) : Result := .next ((s.setRunning false).answer .halted)

end Sys2Proof.Machine
end

