-- ==== Sys2Proof/Machine/External.lean ====
section
/-! DEFINITION. The import table, the state-access port, callbacks and INVOKE (R34-R36, R41, R170-R178). -/

namespace Sys2Proof.Machine

/-- The names in a name table, in declaration order: the strings between terminators (R34, R170). Bytes after the last
terminator are no name. -/
def tableNames (cur : List Byte) : List Byte → List (List Byte)
  | [] => []
  | b :: bs => if b = 0 then cur :: tableNames [] bs else tableNames (cur ++ [b]) bs

/-- The declared names: the first `import_count` of the table (R170). -/
def State.importNames (s : State) : List (List Byte) := (tableNames [] s.nameTable).take s.importCount.toNat

/-- `link(name, c)` (R172): the first slot whose name matches is bound; with no match nothing changes. -/
def State.linkName (s : State) (name : List Byte) (c : CallbackId) : State :=
  match s.importNames.idxOf? name with
  | some k => { s with table := s.table.set k (some c) }
  | none => s

/-- One write through the state-access port, within the limits of R175; none is a write the port does not allow. DESIGN CHOICE
(log 29): R175 limits `sp` and `si` only, and the model also allows no `stack_base` above the range that R29 gives it. -/
def portWrite (w : PortWrite) (s : State) : Option State :=
  match w with
  | .reg r v => if h : r < 6 then some (s.setReg ⟨r, h⟩ v) else none
  | .stackByte a b => if a < s.cfg.stackCapacity then some (s.writeStack a [b]) else none
  | .sp n => if n ≤ s.cfg.stackCapacity then some (s.setSp n) else none
  | .si n => if n < s.cfg.scopeLimit then some (s.setSi n) else none
  | .frameBase k n =>
    if k < s.cfg.scopeLimit ∧ n ≤ s.cfg.stackCapacity then some (s.setFrameBase k n) else none
  | .frameRet k t => if k < s.cfg.scopeLimit then some (s.setFrameRet k t) else none
  | .pc t => some (s.jumpTo t)

/-- What the state-access port gives for a read (R41, R175); none is an element that does not exist. A register gives the value it
holds (log 6), an unwritten byte none. -/
def portValue (q : PortRead) (s : State) : Option PortValue :=
  match q with
  | .reg r => if h : r < 6 then some (.word (s.readReg ⟨r, h⟩)) else none
  | .stackByte a => if a < s.cfg.stackCapacity then some (.byte (memRead s.stack a)) else none
  | .pc => some (.position s.pc)
  | .sp => some (.number s.sp)
  | .frame k => if k < s.cfg.scopeLimit then some (.frame (s.frame k)) else none
  | .si => some (.number s.si)
  | .running => some (.flag s.running)
  | .ready => some (.flag s.ready)
  | .nameByte j => if j < s.cfg.nameTableCapacity then some (.byte s.nameTable[j]?) else none
  | .importCount => some (.number s.importCount.toNat)
  | .tableSlot k => if k < s.cfg.maxImports then some (.slot (s.table.getD k none)) else none
  | .fault => some (.fault s.fault)

/-- The read is recorded; it changes nothing else (R41). -/
def State.recordRead (s : State) (q : PortRead) (v : PortValue) : State :=
  { s with portReads := s.portReads ++ [(q, v)] }

/-- One act of a callback (R175, R176): the state after it, or why it has no meaning. -/
def callbackAct (act : CallbackAct) (s : State) : Except Refusal State :=
  match act with
  | .write w =>
    match portWrite w s with
    | some s' => .ok s'
    | none => .error .portRange
  | .read q =>
    match portValue q s with
    | some v => .ok (s.recordRead q v)
    | none => .error .portRange
  | .link name c => if s.ready then .ok (s.linkName name c) else .error .linkBeforeInit
  | .stop => .ok (s.setRunning false)
  | .callStep | .callInit | .callStart => .error .callbackReentry

/-- The acts of a callback, in order, until it returns (R174). -/
def callbackActs : List CallbackAct → State → Except Refusal State
  | [], s => .ok s
  | act :: acts, s =>
    match callbackAct act s with
    | .ok s' => callbackActs acts s'
    | .error r => .error r

/-- What callback `c` does at this invocation: the head of the queue, or a free value of all it can read (R174; log 10). -/
def State.nextActs (s : State) (c : CallbackId) : List CallbackAct :=
  match s.callbackQueue with
  | acts :: _ => acts
  | [] => Config.freeCallback c s.invocations.length s.portView

/-- The invocation is recorded (R177) and its behaviour taken from the queue. -/
def State.recordInvocation (s : State) (index : BitVec 16) : State :=
  { s with invocations := s.invocations ++ [index], callbackQueue := s.callbackQueue.tail }

/-- INVOKE (R173): range, then binding, then the callback, which sees `pc = op_addr + 3`; the step answers OK when it
returns, whatever `running` then holds (R174). -/
def execInvoke (index : BitVec 16) (s : State) : Result :=
  if index.toNat ≥ s.importCount.toNat then raise (.importFault .outOfRange index) s
  else
    match s.table.getD index.toNat none with
    | none => raise (.importFault .unbound index) s
    | some c =>
      match callbackActs (s.nextActs c) (s.recordInvocation index) with
      | .ok s' => complete s'
      | .error r => .refused r

end Sys2Proof.Machine
end

