-- ==== Sys2Proof/Machine/LoadStore.lean ====
section
/-! DEFINITION. LDR, STR, LDS, STS, LDI, MOV (R120-R128). Every meaning is given the state with `pc` after the fixed fields
and `opAddr` at the opcode, and checks in the order of R213. -/

namespace Sys2Proof.Machine

/-- LDR (R123): the one access held to live data (C4). -/
def execLdr (d a l : Byte) (s : State) : Result :=
  checkReg 1 d s fun d =>
  checkReg 2 a s fun a =>
  checkReg 3 l s fun l =>
  let s := s.noteReads [a, l]
  let addr := (s.readReg a).toNat
  let n := (s.readReg l).toNat
  checkLength n s <|
  if s.inLive addr n then loadInto d addr n s else raise (.stackRange addr n) s

/-- STR (R124). -/
def execStr (src a l : Byte) (s : State) : Result :=
  checkReg 1 src s fun src =>
  checkReg 2 a s fun a =>
  checkReg 3 l s fun l =>
  let s := s.noteReads [src, a, l]
  let v := s.readReg src
  let addr := (s.readReg a).toNat
  let n := (s.readReg l).toNat
  checkLength n s <|
  if s.inCapacity addr n then complete (s.writeStack addr (storeBytes s.cfg v n))
  else raise (.stackRange addr n) s

/-- LDS (R125). -/
def execLds (d : Byte) (addr : BitVec 32) (len : Byte) (s : State) : Result :=
  checkReg 1 d s fun d =>
  checkLength len.toNat s <|
  let ea := literalAddress s addr
  if s.inCapacity ea len.toNat then loadInto d ea.toNat len.toNat s else raise (.stackRange ea len.toNat) s

/-- STS (R126). -/
def execSts (src : Byte) (addr : BitVec 32) (len : Byte) (s : State) : Result :=
  checkReg 1 src s fun src =>
  checkLength len.toNat s <|
  let s := s.noteReads [src]
  let v := s.readReg src
  let ea := literalAddress s addr
  if s.inCapacity ea len.toNat then complete (s.writeStack ea.toNat (storeBytes s.cfg v len.toNat))
  else raise (.stackRange ea len.toNat) s

/-- LDI (R127): the immediate is fetched after the checks, as one read (R63, R104). -/
def execLdi (d len : Byte) (s : State) : Result :=
  checkReg 1 d s fun d =>
  checkLength len.toNat s <|
  match fetchBytes len.toNat s with
  | none => .fault .fetchUndefined
  | some (bs, s) => complete (s.setReg d (loadValue s.cfg bs))

/-- MOV (R128). -/
def execMov (d src : Byte) (s : State) : Result :=
  checkReg 1 d s fun d =>
  checkReg 2 src s fun src =>
  let s := s.noteReads [src]
  complete (s.setReg d (s.readReg src))

end Sys2Proof.Machine
end

