-- ==== Sys2Proof/Machine/Dispatch.lean ====
section
/-! DEFINITION. The meaning of every instruction: one arm per constructor. -/

namespace Sys2Proof.Machine

open Sys2Proof

def exec (i : Instr) (s : State) : Host.Outcome State Fault Refusal :=
  match i with
  | .ldr d a l => Sys2Proof.Machine.execLdr d a l s
  | .str src a l => Sys2Proof.Machine.execStr src a l s
  | .lds d addr len => Sys2Proof.Machine.execLds d addr len s
  | .sts src addr len => Sys2Proof.Machine.execSts src addr len s
  | .ldi d len => Sys2Proof.Machine.execLdi d len s
  | .mov d src => Sys2Proof.Machine.execMov d src s
  | .neg r => Sys2Proof.Machine.execNeg r s
  | .invoke index => Sys2Proof.Machine.execInvoke index s
  | .add d a b => Sys2Proof.Machine.execAdd d a b s
  | .sub d a b => Sys2Proof.Machine.execSub d a b s
  | .mul d a b => Sys2Proof.Machine.execMul d a b s
  | .div d a b => Sys2Proof.Machine.execDiv d a b s
  | .and d a b => Sys2Proof.Machine.execAnd d a b s
  | .orr d a b => Sys2Proof.Machine.execOrr d a b s
  | .xor d a b => Sys2Proof.Machine.execXor d a b s
  | .not d a => Sys2Proof.Machine.execNot d a s
  | .lsl d a b => Sys2Proof.Machine.execLsl d a b s
  | .lsr d a b => Sys2Proof.Machine.execLsr d a b s
  | .cmp k d a b => Sys2Proof.Machine.execCmp k d a b s
  | .jmp c target => Sys2Proof.Machine.execJmp c target s
  | .call target => Sys2Proof.Machine.execCall target s
  | .scope length => Sys2Proof.Machine.execScope length s
  | .endScope => Sys2Proof.Machine.execEndScope s
  | .eop => Sys2Proof.Machine.execEop s

end Sys2Proof.Machine
end

