-- ==== Sys2Proof/Machine/Lifecycle.lean ====
section
/-! DEFINITION. The host's commands but `step`: init with its header loader, link, start, stop, is_running, and a write
or a read through the state-access port (R240-R252, R175). -/

namespace Sys2Proof.Machine

/-- `init_fail(kind, subcause, position)` (R245): recorded as any fault is, at the position of the header field; neither
ready nor running (log 16). -/
def initFail (f : FaultInfo) (position : Pos) (s : State) : Result :=
  .next (({ s with ready := false } : State).recordFault f position |>.answer (.initFailed f.kind))

/-- What init sets before its first fetch (R245). -/
def State.initStart (s : State) (image : List Byte) (plan : List Nat) : State :=
  { s with
    ready := false
    running := false
    initDone := true
    faults := []
    fu := FetchUnit.empty image plan
    sp := 0
    si := 0
    frames := List.replicate s.cfg.scopeLimit ⟨0, 0⟩
    table := List.replicate s.cfg.maxImports none
    regs := Vector.replicate 6 0
    written := Vector.replicate 6 false
    stack := []
    nameTable := []
    importCount := 0 }

/-- Reads import names until `need` terminators are seen or no room is left in the table (R243): whether all were read, and
the state; none is FETCH_UNDEFINED. -/
def readNames : (room need : Nat) → State → Option (Bool × State)
  | _, 0, s => some (true, s)
  | 0, _ + 1, s => some (false, s)
  | room + 1, need + 1, s =>
    match fetchBytes 1 s with
    | none => none
    | some (bs, s') =>
      let s' := { s' with nameTable := s'.nameTable ++ bs }
      readNames room (if bs = [0] then need else need + 1) s'

/-- The root-scope block (R244), then the end of a successful init (R245). -/
def loadRoot (count : BitVec 32) (s : State) : Result :=
  let rpos := s.pc
  match fetchValue 4 s with
  | none => .fault .fetchUndefined
  | some (rlen, s) =>
    if rlen > s.cfg.stackCapacity then initFail (.stackRange 0 rlen) rpos s
    else
      match copyToStack rlen 0 s with
      | none => .fault .fetchUndefined
      | some s => .next (({ s with sp := rlen, importCount := count, ready := true } : State).answer .initOk)

/-- The import count and names (R242, R243), then the root scope. -/
def loadImports (s : State) : Result :=
  match fetchValue 4 s with
  | none => .fault .fetchUndefined
  | some (n, s) =>
    let count := BitVec.ofNat 32 n
    if n > s.cfg.maxImports then initFail (.headerFormat .tooManyImports count 0) 4 s
    else
      match readNames s.cfg.nameTableCapacity n s with
      | none => .fault .fetchUndefined
      | some (false, s) => initFail (.headerFormat .nameTableOverflow count s.nameTable.length) 8 s
      | some (true, s) => loadRoot count s

/-- The header loader from the first byte of the image (R240-R244): the version gate first (R241). -/
def loadHeader (s : State) : Result :=
  match fetchValue 2 s with
  | none => .fault .fetchUndefined
  | some (major, s) =>
    match fetchValue 2 s with
    | none => .fault .fetchUndefined
    | some (minor, s) =>
      if major ≠ s.cfg.engineMajor.toNat then
        initFail (.version .majorMismatch (BitVec.ofNat 16 major) (BitVec.ofNat 16 minor)) 0 s
      else if minor > s.cfg.engineMinor.toNat then
        initFail (.version .minorTooNew (BitVec.ofNat 16 major) (BitVec.ofNat 16 minor)) 2 s
      else loadImports s

/-- `init(source)` (R245): once an instance (R256, log 26), on an image of at most `2^32 - 1` bytes (R26). -/
def runInit (image : List Byte) (plan : List Nat) (s : State) : Result :=
  if s.initDone then .refused .initTwice
  else if image.length ≥ 2 ^ 32 then .refused .imageTooLong
  else loadHeader (s.initStart image plan)

/-- `link(name, c)` (R172, R247). -/
def runLink (name : List Byte) (c : CallbackId) (s : State) : Result :=
  if s.ready then .next ((s.linkName name c).answer .done) else .refused .linkBeforeInit

/-- `start()` (R248): clears every frame and sets running, when ready; changes nothing else. -/
def runStart (s : State) : Result :=
  if s.ready then
    .next (({ s with frames := List.replicate s.cfg.scopeLimit ⟨0, 0⟩, running := true } : State).answer .done)
  else .next (s.answer .done)

/-- `stop()` (R251). -/
def runStop (s : State) : Result := .next ((s.setRunning false).answer .done)

/-- `is_running()` (R252). -/
def runIsRunning (s : State) : Result := .next (s.answer (.isRunning s.running))

/-- A write through the state-access port between steps (R175, R255). -/
def runWrite (w : PortWrite) (s : State) : Result :=
  match portWrite w s with
  | some s' => .next (s'.answer .done)
  | none => .refused .portRange

/-- A read through the state-access port between steps (R6, R175, R255): it answers the value. -/
def runRead (q : PortRead) (s : State) : Result :=
  match portValue q s with
  | some v => .next ((s.recordRead q v).answer (.value v))
  | none => .refused .portRange

end Sys2Proof.Machine
end

