-- ==== Sys2Proof/Machine/Step.lean ====
section
/-! DEFINITION. One transition of the machine: one transaction of the host command port (R6). -/

namespace Sys2Proof.Machine

open Sys2Proof

/-- Fetches, decodes and executes the instruction at `pc` (R104); an unassigned opcode faults (R101). -/
def runInstr (s : State) : Result :=
  match fetchInstr s with
  | .instr i s' => exec i s'
  | .undefinedOpcode b s' => raise (.undefinedOpcode b) s'
  | .short => .fault .fetchUndefined

/-- The `step` transaction (R249): gated by `running`, else NOT_RUNNING and no change (R250). -/
def runStep (s : State) : Result :=
  if s.running then runInstr s else .next (s.answer .notRunning)

/-- One command of the host (R6). -/
def runCommand (c : HostCommand) (s : State) : Result :=
  match c with
  | .init image plan => runInit image plan s
  | .link name cb => runLink name cb s
  | .start => runStart s
  | .step => runStep s
  | .stop => runStop s
  | .isRunning => runIsRunning s
  | .write w => runWrite w s
  | .read q => runRead q s

/-- One transition: the first waiting command; with none waiting the host's loop issues `step` (log 12). -/
def step (s : State) : Host.Outcome State Fault Refusal :=
  match s.commands with
  | [] => runStep s
  | c :: rest => runCommand c { s with commands := rest }

/-- The state with an instruction's bytes at `pc`: the program image holds them there, then zeros; the window is empty and the
supplier faithful; the block is initialised and running, with no command waiting (log 19). -/
def State.withFetchWord (s : State) (nbits w : Nat) : State :=
  let before := s.fu.image.take s.pc.toNat
  let fill := List.replicate (s.pc.toNat - before.length) (0 : Byte)
  let image := before ++ fill ++ leBytes w (nbits / 8) ++ List.replicate 64 0
  { s with
    fu := { s.fu with image := image, base := s.pc, buf := [], plan := [] }
    initDone := true
    ready := true
    running := true
    commands := [] }

end Sys2Proof.Machine
end

