-- ==== Sys2Proof/Safety.lean ====
section
/-! DEFINITION. The terms claims are made in: how a run ends, the invariant of the state, what an instruction writes, the
architectural view that both fetch modes share. -/

namespace Sys2Proof.Safety

open Sys2Proof.Machine

/-- A run has ended well (R254): the step answered HALTED, the fault record is none, and the run has gone through none of the
outcomes that R254 ends it at and this model goes on from: no unwritten register was read (R222; log 6) and no value of the
host's arithmetic was drawn (R220; log 8). -/
abbrev EndedWell (s : State) : Prop :=
  s.result = some .halted ∧ s.fault = none ∧ s.unwrittenReads = [] ∧ s.undefinedResults = []

/-- No UNWRITTEN_REGISTER outcome happened (R222; log 6): a claim about the hardware takes this as a premise. -/
abbrev NoUnwrittenRead (s : State) : Prop := s.unwrittenReads = []

/-- The register field that names register `r` (R95). -/
def field (r : Fin 6) : Byte := BitVec.ofNat 8 r.val

/-- The window holds a stretch of the image that the program position lies in or just after (R38, R65). -/
structure WindowInv (cfg : Config) (fu : FetchUnit) : Prop where
  fits : fu.buf.length ≤ cfg.windowSize
  inside : fu.base.toNat ≤ fu.pc.toNat ∧ fu.pc.toNat ≤ fu.base.toNat + fu.buf.length
  contents : fu.buf = (fu.image.drop fu.base.toNat).take fu.buf.length

/-- What holds of the state between steps (R39), with what the model's own representation adds. -/
structure Inv (s : State) : Prop where
  legal : s.cfg.Legal
  /-- Every register fits the word (R20). -/
  regsFit : ∀ r : Fin 6, s.regs[r].toNat < 2 ^ s.cfg.bits
  /-- R28. -/
  spBound : s.sp ≤ s.cfg.stackCapacity
  /-- R31. -/
  siBound : s.si < s.cfg.scopeLimit
  /-- R29. -/
  framesLength : s.frames.length = s.cfg.scopeLimit
  /-- R29, R193. -/
  frameBases : ∀ f ∈ s.frames, f.stackBase ≤ s.cfg.stackCapacity
  /-- R35, R39. -/
  importBound : s.importCount.toNat ≤ s.cfg.maxImports
  /-- R36. -/
  tableLength : s.table.length = s.cfg.maxImports
  /-- R34. -/
  nameBound : s.nameTable.length ≤ s.cfg.nameTableCapacity
  /-- The canonical form of the stack memory. -/
  stackCanonical : Memory.wf s.stack
  /-- R51. -/
  stackBound : ∀ c ∈ s.stack, c.1 < s.cfg.stackCapacity
  /-- R26. -/
  imageBound : s.fu.image.length < 2 ^ 32
  /-- R38, R65. -/
  window : s.cfg.fetchMode = .streaming → WindowInv s.cfg s.fu
  /-- R33: only a ready block is started. -/
  runningReady : s.running = true → s.ready = true
  readyDone : s.ready = true → s.initDone = true

/-- The bases of the open scopes lie in order, none above `sp` (R39, R58). -/
def ScopesNested (s : State) : Prop :=
  (∀ j k, 1 ≤ j → j ≤ k → k ≤ s.si → (s.frame j).stackBase ≤ (s.frame k).stackBase) ∧
  (∀ k, 1 ≤ k → k ≤ s.si → (s.frame k).stackBase ≤ s.sp)

/-- The register an instruction writes, by its field (R22). -/
def destField : Instr → Option Byte
  | .ldr d _ _ | .lds d _ _ | .ldi d _ | .mov d _ | .neg d => some d
  | .add d _ _ | .sub d _ _ | .mul d _ _ | .div d _ _ => some d
  | .and d _ _ | .orr d _ _ | .xor d _ _ | .not d _ => some d
  | .lsl d _ _ | .lsr d _ _ | .cmp _ d _ _ => some d
  | .str .. | .sts .. | .invoke _ | .jmp .. | .call _ | .scope _ | .endScope | .eop => none

/-- The registers an instruction reads, by their fields in operand order (R22). -/
def sourceFields : Instr → List Byte
  | .ldr _ a l => [a, l]
  | .str src a l => [src, a, l]
  | .sts src _ _ | .mov _ src => [src]
  | .neg r => [r]
  | .add _ a b | .sub _ a b | .mul _ a b | .div _ a b => [a, b]
  | .and _ a b | .orr _ a b | .xor _ a b => [a, b]
  | .not _ a => [a]
  | .lsl _ a b | .lsr _ a b | .cmp _ _ a b => [a, b]
  | .jmp c _ => [c]
  | .lds .. | .ldi .. | .invoke _ | .call _ | .scope _ | .endScope | .eop => []

/-- The whole effect of an instruction that writes `v` to register `d` and nothing else (R22): every other register and every
other element of the state is as before. -/
def afterWrite (s : State) (d : Fin 6) (v : Word) : State :=
  { s with regs := s.regs.set d v, written := s.written.set d true, result := some .ok }

/-- The whole effect of a store that leaves the stack memory `m`. -/
def afterStore (s : State) (m : Memory) : State := { s with stack := m, result := some .ok }

/-- The whole effect of a fault (R214, R215) with `fu` the fetch unit it leaves. -/
def afterFault (s : State) (f : FaultInfo) (fu : FetchUnit) : State :=
  { s with
    fu := fu
    faults := ⟨f, s.opAddr⟩ :: s.faults
    sinkLog := s.sinkLog ++ if s.cfg.sinkAttached then
      [⟨{ s.portView with pc := fu.pc, fault := some ⟨f, s.opAddr⟩ }, s.opAddr, f.kind, f.message⟩] else []
    running := false
    result := some (.fault f.kind) }

/-- Every register of the list has been written since init (R23): reading it is no UNWRITTEN_REGISTER outcome (R222). -/
abbrev Written (s : State) (rs : List (Fin 6)) : Prop := ∀ r ∈ rs, s.written[r] = true

/-- The outcome without the model's marks for unwritten registers (log 6). -/
def dropMarks : Result → Result
  | .next t => .next { t with written := Vector.replicate 6 true, unwrittenReads := [] }
  | .fault f => .fault f
  | .refused r => .refused r

/-- A register field that faults when checked (R95). -/
def badReg (offset : Nat) (r : Byte) : Option FaultInfo :=
  if r.toNat < 6 then none else some (.registerRange offset r)

/-- A `len` field that faults when checked (R120). -/
def badLength (cfg : Config) (len : Byte) : Option FaultInfo :=
  if len.toNat ≤ cfg.wordBytes then none else some (.operandLength len.toNat)

/-- A kind field that faults when checked (R100). -/
def badKind (k : Byte) : Option FaultInfo :=
  if k.toNat ≤ 5 then none else some (.cmpKind k)

/-- The checks of an instruction's fixed fields, in increasing byte offset (R213, step 2). -/
def fieldChecks (cfg : Config) : Instr → List (Option FaultInfo)
  | .ldr d a l => [badReg 1 d, badReg 2 a, badReg 3 l]
  | .str src a l => [badReg 1 src, badReg 2 a, badReg 3 l]
  | .lds d _ len => [badReg 1 d, badLength cfg len]
  | .sts src _ len => [badReg 1 src, badLength cfg len]
  | .ldi d len => [badReg 1 d, badLength cfg len]
  | .mov d src => [badReg 1 d, badReg 2 src]
  | .neg r => [badReg 1 r]
  | .add d a b | .sub d a b | .mul d a b | .div d a b => [badReg 1 d, badReg 2 a, badReg 3 b]
  | .and d a b | .orr d a b | .xor d a b => [badReg 1 d, badReg 2 a, badReg 3 b]
  | .not d a => [badReg 1 d, badReg 2 a]
  | .lsl d a b | .lsr d a b => [badReg 1 d, badReg 2 a, badReg 3 b]
  | .cmp k d a b => [badKind k, badReg 2 d, badReg 3 a, badReg 4 b]
  | .jmp c _ => [badReg 1 c]
  | .invoke _ | .call _ | .scope _ | .endScope | .eop => []

/-- The fault of the first field that fails its check, if any (R213). -/
def firstBadField (cfg : Config) (i : Instr) : Option FaultInfo := (fieldChecks cfg i).findSome? id

/-- Wherever a fixed field is out of its range, the instruction takes the fault of the first such field (R102, R213)
and has no other effect (R215). -/
def FieldFaults (i : Instr) : Prop :=
  ∀ (s : State) (f : FaultInfo), firstBadField s.cfg i = some f →
    exec i s = .next (afterFault s f (fuJump s.cfg s.opAddr s.fu))

/-- Under the default opcode map the instruction's opcode and fixed fields are the bytes `bs`, whatever follows them (R92, R93). -/
def EncodedAs (i : Instr) (bs : Endian → List Byte) : Prop :=
  ∀ (cfg : Config) (rest : List Byte), cfg.opcodes = defaultOpcodes →
    decode cfg (bs cfg.endian ++ rest) = .instr i rest

/-- The instruction completed with some word of `8*W` bits in `d`, drawn from the host's arithmetic for this reason, the mark
of the outcome, and no other effect (log 8). -/
def WroteHostValue (s : State) (d : Fin 6) (reason : UndefReason) (o : Result) : Prop :=
  ∃ w : Word, w.toNat < 2 ^ s.cfg.bits ∧
    o = .next (afterWrite
      { s with draws := s.draws + 1, undefinedResults := s.undefinedResults ++ [reason] } d w)

/-- The byte address of a literal operand of LDS and STS (R125, R126). -/
def literalAt (s : State) (p : BitVec 32) : Int := if 0 ≤ p.toInt then p.toInt else (s.sp : Int) + p.toInt

/-- `i` is a store, STR or STS, of the low `n` bytes of `v` at address `a`, whose registers have been written (R124, R126). -/
def IsStore (s : State) (i : Instr) (v : Word) (n a : Nat) : Prop :=
  (∃ x ra rl : Fin 6, i = .str (field x) (field ra) (field rl) ∧ Written s [x, ra, rl] ∧
    v = s.readReg x ∧ (s.readReg ra).toNat = a ∧ (s.readReg rl).toNat = n) ∨
  ∃ (x : Fin 6) (p : BitVec 32) (len : Byte), i = .sts (field x) p len ∧ Written s [x] ∧
    v = s.readReg x ∧ literalAt s p = a ∧ len.toNat = n

/-- `i` is a load, LDR or LDS, of `m` bytes at address `a` into `d`, whose registers have been written; an LDR reads live data only
(R123, R125). -/
def IsLoad (s : State) (i : Instr) (d : Fin 6) (m a : Nat) : Prop :=
  (∃ ra rl : Fin 6, i = .ldr (field d) (field ra) (field rl) ∧ Written s [ra, rl] ∧
    (s.readReg ra).toNat = a ∧ (s.readReg rl).toNat = m ∧ a + m ≤ s.sp) ∨
  ∃ (p : BitVec 32) (len : Byte), i = .lds (field d) p len ∧ literalAt s p = a ∧ len.toNat = m

/-- The bytes `bs` stand in the stack memory from address `a` on. -/
def BytesAt (m : Memory) (a : Nat) (bs : List Byte) : Prop :=
  ∀ k (h : k < bs.length), memRead m (a + k) = some bs[k]

/-- An act of a callback that keeps its duties (R175, R176), on a block that is ready. That a frame's `stack_base` stays in R29's
range is the model's own limit (log 29). -/
def actAllowed (cfg : Config) : CallbackAct → Bool
  | .read (.reg r) => r < 6
  | .read (.stackByte a) => a < cfg.stackCapacity
  | .read (.frame k) => k < cfg.scopeLimit
  | .read (.nameByte j) => j < cfg.nameTableCapacity
  | .read (.tableSlot k) => k < cfg.maxImports
  | .read .pc | .read .sp | .read .si | .read .running | .read .ready | .read .importCount | .read .fault => true
  | .write (.reg r _) => r < 6
  | .write (.stackByte a _) => a < cfg.stackCapacity
  | .write (.sp n) => n ≤ cfg.stackCapacity
  | .write (.si n) => n < cfg.scopeLimit
  | .write (.frameBase k n) => k < cfg.scopeLimit && n ≤ cfg.stackCapacity
  | .write (.frameRet k _) => k < cfg.scopeLimit
  | .write (.pc _) => true
  | .link _ _ => true
  | .stop => true
  | .callStep | .callInit | .callStart => false

/-- A `step` transaction is issued at `s` (R249): by the host's step command, or by its driving loop where no command waits
(log 12). `s'` is the state the step begins in. -/
def StepIssued (s s' : State) : Prop :=
  (s.commands = [] ∧ s' = s) ∨ ∃ rest, s.commands = .step :: rest ∧ s' = { s with commands := rest }

/-- The whole effect of a write through the state-access port (R41, R175). -/
def WriteEffect (w : PortWrite) (s t : State) : Prop :=
  match w with
  | .reg r v => ∃ (r' : Fin 6) (x : Word), r'.val = r ∧ x.toNat = v.toNat % 2 ^ s.cfg.bits ∧
      t = { s with regs := s.regs.set r' x, written := s.written.set r' true }
  | .stackByte a b => ∃ m, t = { s with stack := m } ∧ memRead m a = some b ∧
      ∀ a', a' ≠ a → memRead m a' = memRead s.stack a'
  | .sp n => t = { s with sp := n }
  | .si n => t = { s with si := n }
  | .frameBase k n => ∃ fs, t = { s with frames := fs } ∧ fs.length = s.frames.length ∧
      fs.getD k ⟨0, 0⟩ = ⟨n, (s.frame k).ret⟩ ∧ ∀ j, j ≠ k → fs.getD j ⟨0, 0⟩ = s.frame j
  | .frameRet k p => ∃ fs, t = { s with frames := fs } ∧ fs.length = s.frames.length ∧
      fs.getD k ⟨0, 0⟩ = ⟨(s.frame k).stackBase, p⟩ ∧ ∀ j, j ≠ k → fs.getD j ⟨0, 0⟩ = s.frame j
  | .pc p => t = s.jumpTo p

/-- The whole effect of one act of a callback (R172, R175, R176); the acts that break its duties have none. -/
def ActEffect (act : CallbackAct) (s t : State) : Prop :=
  match act with
  | .write w => WriteEffect w s t
  | .read q => ∃ v, portValue q s = some v ∧ t = { s with portReads := s.portReads ++ [(q, v)] }
  | .link name c =>
      (∃ (k : Nat) (h : k < s.importNames.length), s.importNames[k] = name ∧
        (∀ (j : Nat) (hj : j < k), s.importNames[j] ≠ name) ∧
        t = { s with table := s.table.set k (some c) }) ∨
      (name ∉ s.importNames ∧ t = s)
  | .stop => t = { s with running := false }
  | .callStep | .callInit | .callStart => False

/-- The effect of a callback's acts, one after the other (R174). -/
def ActsEffect : List CallbackAct → State → State → Prop
  | [], s, t => t = s
  | act :: acts, s, t => ∃ u, ActEffect act s u ∧ ActsEffect acts u t

/-- What both fetch modes share (R69): everything but the mode, the window, the supplier's plan and the supplier calls. -/
def archView (s : State) : State :=
  { s with
    cfg := { s.cfg with fetchMode := .resident, windowSize := 0 }
    fu := { s.fu with base := 0, buf := [], plan := [], log := [] } }

/-- The architectural view of an outcome. -/
def archOutcome : Result → Result
  | .next s => .next (archView s)
  | .fault r => .fault r
  | .refused r => .refused r

/-- The same block in resident mode. -/
def asResident (s : State) : State := { s with cfg := { s.cfg with fetchMode := .resident } }

/-- A command with which the supplier stays faithful (R62). -/
def faithfulCommand : HostCommand → Bool
  | .init _ plan => plan.isEmpty
  | .link .. | .start | .step | .stop | .isRunning | .write _ | .read _ => true

/-- The program header (R240) in a byte order, for names without terminators. -/
def header (e : Endian) (major minor : BitVec 16) (names : List (List Byte)) (root : List Byte) : List Byte :=
  toBytes e major.toNat 2 ++ toBytes e minor.toNat 2 ++ toBytes e names.length 4 ++
    (names.map fun n => n ++ [0]).flatten ++ toBytes e root.length 4 ++ root

/-- The sink call of the fault `r` recorded in `t` (R214, R218), if a sink is attached: the view is that of `t`, but for `running`,
which is cleared after the call and was `running` until then. -/
def sinkCall (t : State) (r : FaultRecord) (running : Bool) : List SinkReport :=
  if t.cfg.sinkAttached then
    [⟨{ t.portView with running := running }, r.position, r.info.kind, r.info.message⟩] else []

/-- A failed init (R245): the fault recorded at a header position, neither ready nor running. -/
def FailedInit (t : State) (f : FaultInfo) (position : Pos) : Prop :=
  t.ready = false ∧ t.running = false ∧ t.fault = some ⟨f, position⟩ ∧ t.result = some (.initFailed f.kind)

end Sys2Proof.Safety
end

