-- ==== Sys2Proof/Certificates/Slice0/Obligations.lean ====
section
/-! DEFINITION. The statements for the provers. Register operands are given as `field r`, which over `r : Fin 6` is every
field that names a register; a field of 6 or more is in the `FieldFaults` clause of each instruction's statement. The `EncodedAs` clause is the rule's
encoding of the instruction. The state after a fault, `afterFault`, is R214's and R215's as logs 14, 23 and 28 read them. -/

open Sys2Proof Sys2Proof.Machine Sys2Proof.Safety

/-! ## Encoding -/

/-- R92, R93: under every legal opcode map and either byte order, the encoding of any instruction, whatever its operands and
whatever follows it, decodes to that instruction and leaves what follows. -/
def Obligations.DecodeOfEncode : Prop :=
  ∀ cfg : Config, cfg.Legal → ∀ (i : Instr) (rest : List Byte),
    decode cfg (encode cfg i ++ rest) = .instr i rest

/-- R90, R93: bytes that decode to an instruction are its encoding, so no two encodings share a meaning by dropped bits. -/
def Obligations.EncodeOfDecode : Prop :=
  ∀ (cfg : Config) (bs rest : List Byte) (i : Instr),
    decode cfg bs = .instr i rest → bs = encode cfg i ++ rest

/-- R93, R105, and 95_test_vectors: words written out byte by byte from the spec's encodings. -/
def Obligations.WordsFromSpecDecode : Prop :=
  decode defaultConfig [0x00, 0x05, 0x03, 0x04] = .instr (.ldr 5 3 4) [] ∧
  decode defaultConfig [0x03, 0x02, 0xFC, 0xFF, 0xFF, 0xFF, 0x04] = .instr (.sts 2 (-4) 4) [] ∧
  decode defaultConfig [0x04, 0x00, 0x01, 0x04] = .instr (.ldi 0 1) [0x04] ∧
  decode defaultConfig [0x12, 0x02, 0x02, 0x00, 0x01] = .instr (.cmp 2 2 0 1) [] ∧
  decode defaultConfig [0x07, 0x02, 0x00] = .instr (.invoke 2) [] ∧
  decode defaultConfig [0x13, 0x00, 0x18, 0x00, 0x00, 0x00] = .instr (.jmp 0 24) [] ∧
  decode { defaultConfig with endian := .big } [0x14, 0x00, 0x00, 0x00, 0x20] = .instr (.call 32) [] ∧
  decode defaultConfig [0x18, 0x00] = .undefinedOpcode 0x18

/-! ## One step -/

/-- R104, R249: where a step is issued on a running block, by the host's step command or with no command waiting, and the bytes at
`pc` decode to an instruction, the step is that instruction's meaning at the state with `op_addr` at the opcode and `pc` after
the fixed fields. In streaming mode the window may have moved as well, and a supplier that under-delivers (R68) may end the step
in FETCH_UNDEFINED instead. Where the image ends before the opcode and its fixed fields do, the step always ends so. -/
def Obligations.StepRunsDecodedInstr : Prop :=
  ∀ h s : State, StepIssued h s → s.running = true → s.fu.image.length < 2 ^ 32 →
    (∀ (i : Instr) (rest : List Byte), decode s.cfg (s.fu.image.drop s.pc.toNat) = .instr i rest →
      (s.cfg.fetchMode = .resident →
        step h = exec i { s with
          opAddr := s.pc
          fu := { s.fu with pc := s.pc + BitVec.ofNat 32 i.fixedLength } }) ∧
      (s.cfg.fetchMode = .streaming → s.cfg.Legal → WindowInv s.cfg s.fu →
        (s.fu.plan ≠ [] ∧ step h = .fault .fetchUndefined) ∨
        ∃ fu', fu'.pc = s.pc + BitVec.ofNat 32 i.fixedLength ∧ fu'.image = s.fu.image ∧
          (s.fu.plan = [] → fu'.plan = []) ∧ WindowInv s.cfg fu' ∧
          step h = exec i { s with opAddr := s.pc, fu := fu' })) ∧
    (decode s.cfg (s.fu.image.drop s.pc.toNat) = .short →
      (s.cfg.fetchMode = .streaming → WindowInv s.cfg s.fu) → step h = .fault .fetchUndefined)

/-- R101: under the default map the undefined opcodes are 0x18 to 0xFF. Under any map, in either mode, where the one byte fetched at
`pc` is not assigned, the step is the fault UNDEFINED_OPCODE, and no operand byte was fetched. -/
def Obligations.UndefinedOpcodeFaults : Prop :=
  (∀ (cfg : Config) (b : Byte), cfg.opcodes = defaultOpcodes → (decodeOp cfg b = none ↔ 0x18 ≤ b.toNat)) ∧
  ∀ (h s : State) (b : Byte) (fu' : FetchUnit), StepIssued h s → s.running = true →
    fuFetch s.cfg 1 s.fu = some ([b], fu') → decodeOp s.cfg b = none →
    step h = .next (afterFault { s with opAddr := s.pc } (.undefinedOpcode b) (fuJump s.cfg s.pc fu'))

/-- R250: a step while not running answers NOT_RUNNING and changes nothing. -/
def Obligations.StepWhileStopped : Prop :=
  ∀ s : State, s.running = false →
    (s.commands = [] → step s = .next { s with result := some .notRunning }) ∧
    (∀ rest, s.commands = .step :: rest →
      step s = .next { s with commands := rest, result := some .notRunning })

/-- R33, R40, R245: before init no configuration is ready or running, no scope is open, no frame holds anything, no slot is
bound, no register and no stack byte is written, no fault is recorded. -/
def Obligations.ResetState : Prop :=
  State.reset = State.blank defaultConfig ∧
  ∀ cfg : Config,
    (State.blank cfg).cfg = cfg ∧ (State.blank cfg).ready = false ∧ (State.blank cfg).running = false ∧
    (State.blank cfg).si = 0 ∧ (State.blank cfg).fault = none ∧
    (∀ k, (State.blank cfg).frame k = ⟨0, 0⟩) ∧
    (∀ slot ∈ (State.blank cfg).table, slot = none) ∧
    (∀ r : Fin 6, (State.blank cfg).written[r] = false) ∧
    (∀ a, memRead (State.blank cfg).stack a = none)

/-! ## The machine as a whole -/

/-- R39: the invariant holds before init, of every legal configuration and at reset. -/
def Obligations.InvAtReset : Prop :=
  (∀ cfg : Config, cfg.Legal → Inv (State.blank cfg)) ∧ Inv State.reset

/-- R39: every transition keeps the invariant, from every state that has it: `0 <= sp <= STACK_CAPACITY`,
`0 <= si < SCOPE_LIMIT`, `import_count <= MAX_IMPORTS`, the window in its bounds and a true copy of the image, the stack memory in its
canonical form, registers that fit the word. -/
def Obligations.StepKeepsInv : Prop :=
  ∀ s t : State, Inv s → step s = .next t → Inv t

/-- R39, R58: a step in which no callback ran keeps the bases of the open scopes in order and at or below `sp`. -/
def Obligations.StepKeepsScopesNested : Prop :=
  ∀ h s t : State, Inv s → ScopesNested s → StepIssued h s → step h = .next t →
    t.invocations = s.invocations → ScopesNested t

/-- R69: with a faithful supplier, a transition in streaming mode and the same transition in resident mode have the same
outcome in everything but the window and the supplier calls. -/
def Obligations.FetchModesAgree : Prop :=
  ∀ s : State, Inv s → s.cfg.fetchMode = .streaming → s.fu.plan = [] →
    (∀ c ∈ s.commands, faithfulCommand c = true) →
    archOutcome (step s) = archOutcome (step (asResident s))

/-- R5, R50, R61: no transition changes the configuration, and none but init changes the program image. -/
def Obligations.ConfigAndImageNeverChange : Prop :=
  ∀ s t : State, step s = .next t →
    t.cfg = s.cfg ∧
    ((∀ image plan rest, s.commands ≠ .init image plan :: rest) → t.fu.image = s.fu.image)

/-- R37, R214, R225: outside init a transition records no fault, or exactly one, which it answers and which stops the block;
no earlier record is lost. -/
def Obligations.FaultRecordKept : Prop :=
  ∀ s t : State, step s = .next t → (∀ image plan rest, s.commands ≠ .init image plan :: rest) →
    (t.faults = s.faults ∧ ∀ k, t.result ≠ some (.fault k)) ∨
    (∃ r, t.faults = r :: s.faults ∧ t.result = some (.fault r.info.kind) ∧ t.running = false)

/-- R32, R230: the block leaves the stopped state only through a start of a ready block. -/
def Obligations.RunningOnlyByStart : Prop :=
  ∀ s t : State, step s = .next t → t.running = true →
    s.running = true ∨ (s.ready = true ∧ ∃ rest, s.commands = .start :: rest)

/-- R9, R214, R215: an instruction that answers a fault has undone itself, with `pc` back at its opcode, recorded the fault there,
called the sink if one is attached and cleared `running`; nothing else of the machine's state has changed. That the state after
the fault is exactly this is the model's reading of R215, which tells a model not to rely on it (log 23); that `pc` goes back by
`jump_to`, which may refill the window, is log 14, and what the sink's view shows log 28. The mark for unwritten reads (log 6)
is left open. -/
def Obligations.FaultEntry : Prop :=
  ∀ (i : Instr) (s t : State) (k : FaultKind), exec i s = .next t → t.result = some (.fault k) →
    t.pc = s.opAddr ∧
    ∃ f, f.kind = k ∧
      t = afterFault { s with unwrittenReads := t.unwrittenReads } f (fuJump s.cfg s.opAddr s.fu)

/-- R210, R211, R219: the nine kinds of fault with their codes 0 to 8, the kind and the subcause of what each fault records, and the one
message text the source gives, for an INVOKE index out of range. Every other message is a token of the model's (log 21). -/
def Obligations.FaultKindsAndCodes : Prop :=
  (∀ sub major minor, (FaultInfo.version sub major minor).kind = .version ∧
    (FaultInfo.version sub major minor).subcause = some sub) ∧
  (∀ address length, (FaultInfo.stackRange address length).kind = .stackRange ∧
    (FaultInfo.stackRange address length).subcause = none) ∧
  (∀ offset index, (FaultInfo.registerRange offset index).kind = .registerRange ∧
    (FaultInfo.registerRange offset index).subcause = none) ∧
  (∀ sub si, (FaultInfo.scopeDepth sub si).kind = .scopeDepth ∧ (FaultInfo.scopeDepth sub si).subcause = some sub) ∧
  (∀ kind, (FaultInfo.cmpKind kind).kind = .cmpKind ∧ (FaultInfo.cmpKind kind).subcause = none) ∧
  (∀ opcode, (FaultInfo.undefinedOpcode opcode).kind = .undefinedOpcode ∧
    (FaultInfo.undefinedOpcode opcode).subcause = none) ∧
  (∀ sub index, (FaultInfo.importFault sub index).kind = .importFault ∧
    (FaultInfo.importFault sub index).subcause = some sub) ∧
  (∀ sub count read, (FaultInfo.headerFormat sub count read).kind = .headerFormat ∧
    (FaultInfo.headerFormat sub count read).subcause = some sub) ∧
  (∀ length, (FaultInfo.operandLength length).kind = .operandLength ∧
    (FaultInfo.operandLength length).subcause = none) ∧
  [FaultKind.version, .stackRange, .registerRange, .scopeDepth, .cmpKind, .undefinedOpcode, .importFault, .headerFormat,
    .operandLength].map FaultKind.code = [0, 1, 2, 3, 4, 5, 6, 7, 8] ∧
  (∀ index, (FaultInfo.importFault .outOfRange index).message = .importIndexOutOfRange) ∧
  ∀ f : FaultInfo, (∀ index, f ≠ .importFault .outOfRange index) → f.message = .notGiven f.kind

/-- R214, R218, R245: a step that answers a fault, and an init that fails, have called the sink once if one is attached, with a view of
the state, the position recorded, the kind and the message. What the view holds is the model's reading (log 28; log 6 for an
unwritten register): every element that the host can read, as it is afterwards with the fault's record in it, but for `running`,
which is cleared after the call. No other transition calls the sink. -/
def Obligations.SinkToldOfFault : Prop :=
  (∀ h s t : State, StepIssued h s → step h = .next t →
    (∀ k, t.result = some (.fault k) →
      ∃ r, t.fault = some r ∧ r.info.kind = k ∧ t.sinkLog = s.sinkLog ++ sinkCall t r true) ∧
    ((∀ k, t.result ≠ some (.fault k)) → t.sinkLog = s.sinkLog)) ∧
  (∀ (s t : State) (image : List Byte) (plan : List Nat) (rest : List HostCommand),
    s.commands = .init image plan :: rest → step s = .next t →
    (∀ k, t.result = some (.initFailed k) →
      ∃ r, t.fault = some r ∧ r.info.kind = k ∧ t.sinkLog = s.sinkLog ++ sinkCall t r false) ∧
    ((∀ k, t.result ≠ some (.initFailed k)) → t.sinkLog = s.sinkLog)) ∧
  ∀ (s t : State) (c : HostCommand) (rest : List HostCommand), s.commands = c :: rest → c ≠ .step →
    (∀ image plan, c ≠ .init image plan) → step s = .next t → t.sinkLog = s.sinkLog

/-- R10, R194: an instruction that reaches a next state answers HALTED exactly when it is EOP, which never faults, and else OK or a
fault; only a fault adds to the record. -/
def Obligations.InstrAnswers : Prop :=
  ∀ (i : Instr) (s t : State), exec i s = .next t →
    (t.result = some .halted ∧ i = .eop ∧ t.faults = s.faults) ∨
    (t.result = some .ok ∧ i ≠ .eop ∧ t.faults = s.faults) ∨
    (∃ k r, t.result = some (.fault k) ∧ i ≠ .eop ∧ r.info.kind = k ∧ t.faults = r :: s.faults)

/-- R254: an instruction ends a run well exactly when it is EOP and nothing went wrong before: no fault on record, no unwritten
register read (R222), no value of the host's arithmetic drawn (R220). The marks of the last two, which are the model's own (logs 6
and 8), are never lost, by any transition. -/
def Obligations.RunEndsWell : Prop :=
  (∀ (i : Instr) (s t : State), exec i s = .next t →
    (EndedWell t ↔ i = .eop ∧ s.fault = none ∧ s.unwrittenReads = [] ∧ s.undefinedResults = [])) ∧
  ∀ s t : State, step s = .next t →
    s.unwrittenReads <+: t.unwrittenReads ∧ s.undefinedResults <+: t.undefinedResults

/-- R22: no instruction but INVOKE, whose callback may, changes a register other than the one its destination field names. -/
def Obligations.OnlyDestinationChanges : Prop :=
  ∀ (i : Instr) (s t : State), exec i s = .next t → (∀ index, i ≠ .invoke index) →
    ∀ r : Fin 6, destField i ≠ some (field r) → t.regs[r] = s.regs[r] ∧ t.written[r] = s.written[r]

/-- R28, R29, R31, R50, R195: which instructions write `sp` and `si` (SCOPE, END), a frame's base (SCOPE), a staged return address
(CALL, END) and the stack bytes (STR, STS, SCOPE); INVOKE's callback may write all of them. -/
def Obligations.ControlStateWriters : Prop :=
  ∀ (i : Instr) (s t : State), exec i s = .next t → (∀ index, i ≠ .invoke index) →
    ((∀ n, i ≠ .scope n) → i ≠ .endScope → t.sp = s.sp ∧ t.si = s.si) ∧
    ((∀ n, i ≠ .scope n) → ∀ k, (t.frame k).stackBase = (s.frame k).stackBase) ∧
    ((∀ p, i ≠ .call p) → i ≠ .endScope → ∀ k, (t.frame k).ret = (s.frame k).ret) ∧
    ((∀ x a l, i ≠ .str x a l) → (∀ x p n, i ≠ .sts x p n) → (∀ n, i ≠ .scope n) →
      ∀ a, memRead t.stack a = memRead s.stack a)

/-- R95, R100, R102, R120, R213: a field out of its range makes any instruction fault, the first such field by byte offset being the one
reported; an instruction is well formed exactly when no field is out of its range. -/
def Obligations.IllegalFieldsFault : Prop :=
  ∀ i : Instr, FieldFaults i ∧ ∀ cfg, firstBadField cfg i = none ↔ i.wellFormed cfg = true

/-- The model's choice (log 6), over R22 and R222: an instruction that completes has left its mark for every source register that nothing
had written, and no mark is ever lost. -/
def Obligations.UnwrittenReadsAreMarked : Prop :=
  ∀ (i : Instr) (s t : State), exec i s = .next t → t.result = some .ok →
    (∀ r ∈ s.unwrittenReads, r ∈ t.unwrittenReads) ∧
    ∀ r : Fin 6, field r ∈ sourceFields i → s.written[r] = false → r ∈ t.unwrittenReads

/-- The model's choice (log 6): but for the marks, an instruction does with unwritten registers what it does with written ones that hold the
same values, so that every result statement below carries over to them. -/
def Obligations.UnwrittenReadsGoOn : Prop :=
  ∀ (i : Instr) (s : State),
    dropMarks (exec i s) = dropMarks (exec i { s with written := Vector.replicate 6 true })

/-! ## Loads, stores, moves -/

/-- R123, in the order of its checks. A load whose bytes are all written completes with their value, zero-extended, in `d`, and
changes nothing else; an unwritten byte is UNWRITTEN_STACK. -/
def Obligations.LdrResult : Prop :=
  (∀ d a l, FieldFaults (.ldr d a l) ∧ EncodedAs (.ldr d a l) fun _ => [0x00, d, a, l]) ∧
  ∀ (s : State) (d a l : Fin 6), Written s [a, l] →
    let addr := (s.readReg a).toNat
    let n := (s.readReg l).toNat
    let o := exec (.ldr (field d) (field a) (field l)) s
    (s.cfg.wordBytes < n →
      o = .next (afterFault s (.operandLength n) (fuJump s.cfg s.opAddr s.fu))) ∧
    (n ≤ s.cfg.wordBytes → s.sp < addr + n →
      o = .next (afterFault s (.stackRange addr n) (fuJump s.cfg s.opAddr s.fu))) ∧
    (n ≤ s.cfg.wordBytes → addr + n ≤ s.sp →
      (∀ bs, bs.length = n → BytesAt s.stack addr bs →
        ∃ v : Word, v.toNat = fromBytes s.cfg.endian bs ∧ o = .next (afterWrite s d v)) ∧
      (∀ k < n, memRead s.stack (addr + k) = none → o = .fault (.unwrittenStack addr n)))

/-- R124, in the order of its checks: the low `n` bytes of the source in the configured order at the address, capacity only, `sp` and
every other byte and register unchanged. -/
def Obligations.StrResult : Prop :=
  (∀ x a l, FieldFaults (.str x a l) ∧ EncodedAs (.str x a l) fun _ => [0x01, x, a, l]) ∧
  ∀ (s : State) (x a l : Fin 6), Written s [x, a, l] →
    let addr := (s.readReg a).toNat
    let n := (s.readReg l).toNat
    let o := exec (.str (field x) (field a) (field l)) s
    (s.cfg.wordBytes < n →
      o = .next (afterFault s (.operandLength n) (fuJump s.cfg s.opAddr s.fu))) ∧
    (n ≤ s.cfg.wordBytes → s.cfg.stackCapacity < addr + n →
      o = .next (afterFault s (.stackRange addr n) (fuJump s.cfg s.opAddr s.fu))) ∧
    (n ≤ s.cfg.wordBytes → addr + n ≤ s.cfg.stackCapacity →
      ∃ m, o = .next (afterStore s m) ∧
        BytesAt m addr (toBytes s.cfg.endian ((s.readReg x).toNat % 256 ^ n) n) ∧
        ∀ a', a' < addr ∨ addr + n ≤ a' → memRead m a' = memRead s.stack a')

/-- R125, in the order of its checks: a nonnegative literal is the address, a negative one is relative to `sp`; capacity only. -/
def Obligations.LdsResult : Prop :=
  (∀ d p n, FieldFaults (.lds d p n) ∧ EncodedAs (.lds d p n) fun e => 0x02 :: d :: (toBytes e p.toNat 4 ++ [n])) ∧
  ∀ (s : State) (d : Fin 6) (p : BitVec 32) (len : Byte), len.toNat ≤ s.cfg.wordBytes →
    let ea : Int := if 0 ≤ p.toInt then p.toInt else s.sp + p.toInt
    let o := exec (.lds (field d) p len) s
    ((ea < 0 ∨ s.cfg.stackCapacity < ea + len.toNat) →
      o = .next (afterFault s (.stackRange ea len.toNat) (fuJump s.cfg s.opAddr s.fu))) ∧
    (∀ a : Nat, ea = a → a + len.toNat ≤ s.cfg.stackCapacity →
      (∀ bs, bs.length = len.toNat → BytesAt s.stack a bs →
        ∃ v : Word, v.toNat = fromBytes s.cfg.endian bs ∧ o = .next (afterWrite s d v)) ∧
      (∀ k < len.toNat, memRead s.stack (a + k) = none → o = .fault (.unwrittenStack a len.toNat)))

/-- R126, in the order of its checks. -/
def Obligations.StsResult : Prop :=
  (∀ x p n, FieldFaults (.sts x p n) ∧ EncodedAs (.sts x p n) fun e => 0x03 :: x :: (toBytes e p.toNat 4 ++ [n])) ∧
  ∀ (s : State) (x : Fin 6) (p : BitVec 32) (len : Byte), Written s [x] → len.toNat ≤ s.cfg.wordBytes →
    let ea : Int := if 0 ≤ p.toInt then p.toInt else s.sp + p.toInt
    let o := exec (.sts (field x) p len) s
    ((ea < 0 ∨ s.cfg.stackCapacity < ea + len.toNat) →
      o = .next (afterFault s (.stackRange ea len.toNat) (fuJump s.cfg s.opAddr s.fu))) ∧
    (∀ a : Nat, ea = a → a + len.toNat ≤ s.cfg.stackCapacity →
      ∃ m, o = .next (afterStore s m) ∧
        BytesAt m a (toBytes s.cfg.endian ((s.readReg x).toNat % 256 ^ len.toNat) len.toNat) ∧
        ∀ a', a' < a ∨ a + len.toNat ≤ a' → memRead m a' = memRead s.stack a')

/-- R127: after its checks the immediate is fetched from `pc`, in either mode, and its value, zero-extended, is in `d`; an immediate that
runs past the program is FETCH_UNDEFINED, and so may any be whose supplier under-delivers (R68). -/
def Obligations.LdiResult : Prop :=
  (∀ d n, FieldFaults (.ldi d n) ∧ EncodedAs (.ldi d n) fun _ => [0x04, d, n]) ∧
  ∀ (s : State) (d : Fin 6) (len : Byte), Inv s → len.toNat ≤ s.cfg.wordBytes → s.pc.toNat ≤ s.fu.image.length →
    let o := exec (.ldi (field d) len) s
    let completes : Prop := ∃ (v : Word) (fu' : FetchUnit),
      v.toNat = fromBytes s.cfg.endian ((s.fu.image.drop s.pc.toNat).take len.toNat) ∧
      fu'.pc.toNat = s.pc.toNat + len.toNat ∧ fu'.image = s.fu.image ∧
      o = .next (afterWrite { s with fu := fu' } d v)
    (s.pc.toNat + len.toNat ≤ s.fu.image.length → (s.cfg.fetchMode = .streaming → s.fu.plan = []) → completes) ∧
    (s.pc.toNat + len.toNat ≤ s.fu.image.length → completes ∨ o = .fault .fetchUndefined) ∧
    (s.fu.image.length < s.pc.toNat + len.toNat → o = .fault .fetchUndefined)

/-- R128: the whole word is copied, and nothing else changes. -/
def Obligations.MovResult : Prop :=
  (∀ d x, FieldFaults (.mov d x) ∧ EncodedAs (.mov d x) fun _ => [0x05, d, x]) ∧
  ∀ (s : State) (d x : Fin 6), Written s [x] →
    exec (.mov (field d) (field x)) s = .next (afterWrite s d (s.readReg x))

/-- R54, which the spec derives from R53 and R8: what a store of `n` bytes leaves, STR or STS, a load of `m <= n` bytes at the same address
sees, LDR or LDS: the low `8m` bits of the stored value in little-endian order, the high ones of its low `8n` bits in
big-endian order. -/
def Obligations.StoreThenLoad : Prop :=
  ∀ (s : State) (i j : Instr) (v : Word) (d : Fin 6) (n m a : Nat),
    IsStore s i v n a → IsLoad s j d m a → n ≤ s.cfg.wordBytes → m ≤ n → a + n ≤ s.cfg.stackCapacity →
    ∃ (t : State) (w : Word),
      exec i s = .next t ∧
      exec j t = .next (afterWrite t d w) ∧
      w.toNat = (match s.cfg.endian with
        | .little => v.toNat % 256 ^ m
        | .big => v.toNat % 256 ^ n / 256 ^ (n - m))

/-! ## Arithmetic, logic, shift, compare -/

/-- R142: two's-complement negation in place, but of the most negative word. That word is UNDEFINED_RESULT with no step out where the
host's arithmetic stops, which is the model's switch `hostArithStops` (log 8); HostArithmeticGoesOn says what it is elsewhere. -/
def Obligations.NegResult : Prop :=
  (∀ r, FieldFaults (.neg r) ∧ EncodedAs (.neg r) fun _ => [0x06, r]) ∧
  ∀ (s : State) (r : Fin 6), Written s [r] →
    ((s.readReg r).toNat ≠ 2 ^ (s.cfg.bits - 1) →
      ∃ v : Word, v.toNat = (2 ^ s.cfg.bits - (s.readReg r).toNat) % 2 ^ s.cfg.bits ∧
        exec (.neg (field r)) s = .next (afterWrite s r v)) ∧
    ((s.readReg r).toNat = 2 ^ (s.cfg.bits - 1) → s.cfg.hostArithStops = true →
      exec (.neg (field r)) s = .fault (.undefinedResult .negOverflow))

/-- R143, R144, R145: addition, subtraction and multiplication modulo `2^N`, both sources read before the result is written. -/
def Obligations.AddSubMulResult : Prop :=
  (∀ d a b, FieldFaults (.add d a b) ∧ FieldFaults (.sub d a b) ∧ FieldFaults (.mul d a b)) ∧
  (∀ d a b, EncodedAs (.add d a b) (fun _ => [0x08, d, a, b]) ∧ EncodedAs (.sub d a b) (fun _ => [0x09, d, a, b]) ∧
    EncodedAs (.mul d a b) fun _ => [0x0A, d, a, b]) ∧
  ∀ (s : State) (d a b : Fin 6), Written s [a, b] →
    let x := (s.readReg a).toNat
    let y := (s.readReg b).toNat
    (∃ v : Word, v.toNat = (x + y) % 2 ^ s.cfg.bits ∧
      exec (.add (field d) (field a) (field b)) s = .next (afterWrite s d v)) ∧
    (∃ v : Word, v.toNat = (x + (2 ^ s.cfg.bits - y)) % 2 ^ s.cfg.bits ∧
      exec (.sub (field d) (field a) (field b)) s = .next (afterWrite s d v)) ∧
    (∃ v : Word, v.toNat = x * y % 2 ^ s.cfg.bits ∧
      exec (.mul (field d) (field a) (field b)) s = .next (afterWrite s d v))

/-- R146: the quotient truncated toward zero, signed or unsigned by `DIV_SIGNED`. A zero divisor and signed overflow are
UNDEFINED_RESULT with no step out where the host's arithmetic stops, which is the model's switch `hostArithStops` (log 8);
HostArithmeticGoesOn says what they are elsewhere. -/
def Obligations.DivResult : Prop :=
  (∀ d a b, FieldFaults (.div d a b) ∧ EncodedAs (.div d a b) fun _ => [0x0B, d, a, b]) ∧
  ∀ (s : State) (d a b : Fin 6), Written s [a, b] →
    let va := s.readReg a
    let vb := s.readReg b
    let overflows : Prop := va.toNat = 2 ^ (s.cfg.bits - 1) ∧ vb.toNat = 2 ^ s.cfg.bits - 1
    let o := exec (.div (field d) (field a) (field b)) s
    (vb.toNat = 0 → s.cfg.hostArithStops = true → o = .fault (.undefinedResult .divByZero)) ∧
    (s.cfg.divSigned = true → overflows → s.cfg.hostArithStops = true → o = .fault (.undefinedResult .divOverflow)) ∧
    (s.cfg.divSigned = true → vb.toNat ≠ 0 → ¬overflows →
      ∃ v : Word, v.toNat < 2 ^ s.cfg.bits ∧
        signedValue s.cfg v = (signedValue s.cfg va).tdiv (signedValue s.cfg vb) ∧
        o = .next (afterWrite s d v)) ∧
    (s.cfg.divSigned = false → vb.toNat ≠ 0 →
      ∃ v : Word, v.toNat = va.toNat / vb.toNat ∧ o = .next (afterWrite s d v))

/-- R147, R148, R149, R150: the bitwise operations, bit by bit below `N` and zero above. -/
def Obligations.BitwiseResult : Prop :=
  (∀ d a b, FieldFaults (.and d a b) ∧ FieldFaults (.orr d a b) ∧ FieldFaults (.xor d a b) ∧ FieldFaults (.not d a)) ∧
  (∀ d a b, EncodedAs (.and d a b) (fun _ => [0x0C, d, a, b]) ∧ EncodedAs (.orr d a b) (fun _ => [0x0D, d, a, b]) ∧
    EncodedAs (.xor d a b) (fun _ => [0x0E, d, a, b]) ∧ EncodedAs (.not d a) fun _ => [0x0F, d, a]) ∧
  (∀ (s : State) (d a b : Fin 6), Written s [a, b] →
    let x := s.readReg a
    let y := s.readReg b
    (∃ v : Word, v.toNat < 2 ^ s.cfg.bits ∧ (∀ k < s.cfg.bits, v.getLsbD k = (x.getLsbD k && y.getLsbD k)) ∧
      exec (.and (field d) (field a) (field b)) s = .next (afterWrite s d v)) ∧
    (∃ v : Word, v.toNat < 2 ^ s.cfg.bits ∧ (∀ k < s.cfg.bits, v.getLsbD k = (x.getLsbD k || y.getLsbD k)) ∧
      exec (.orr (field d) (field a) (field b)) s = .next (afterWrite s d v)) ∧
    (∃ v : Word, v.toNat < 2 ^ s.cfg.bits ∧ (∀ k < s.cfg.bits, v.getLsbD k = (x.getLsbD k ^^ y.getLsbD k)) ∧
      exec (.xor (field d) (field a) (field b)) s = .next (afterWrite s d v))) ∧
  ∀ (s : State) (d a : Fin 6), Written s [a] →
    ∃ v : Word, v.toNat < 2 ^ s.cfg.bits ∧ (∀ k < s.cfg.bits, v.getLsbD k = !(s.readReg a).getLsbD k) ∧
      exec (.not (field d) (field a)) s = .next (afterWrite s d v)

/-- R151: a left shift by the whole unsigned word of `b`. By `N` or more it is UNDEFINED_RESULT with no step out where the host's
arithmetic stops, which is the model's switch `hostArithStops` (log 8); HostArithmeticGoesOn says what it is elsewhere. -/
def Obligations.LslResult : Prop :=
  (∀ d a b, FieldFaults (.lsl d a b) ∧ EncodedAs (.lsl d a b) fun _ => [0x10, d, a, b]) ∧
  ∀ (s : State) (d a b : Fin 6), Written s [a, b] →
    let x := (s.readReg a).toNat
    let sh := (s.readReg b).toNat
    let o := exec (.lsl (field d) (field a) (field b)) s
    (sh < s.cfg.bits → ∃ v : Word, v.toNat = x * 2 ^ sh % 2 ^ s.cfg.bits ∧ o = .next (afterWrite s d v)) ∧
    (s.cfg.bits ≤ sh → s.cfg.hostArithStops = true → o = .fault (.undefinedResult .shiftRange))

/-- R152: a right shift that shifts in zeros, or copies of the sign bit under `LSR_ARITHMETIC`. By `N` or more it is UNDEFINED_RESULT
with no step out where the host's arithmetic stops, which is the model's switch `hostArithStops` (log 8); HostArithmeticGoesOn
says what it is elsewhere. -/
def Obligations.LsrResult : Prop :=
  (∀ d a b, FieldFaults (.lsr d a b) ∧ EncodedAs (.lsr d a b) fun _ => [0x11, d, a, b]) ∧
  ∀ (s : State) (d a b : Fin 6), Written s [a, b] →
    let x := s.readReg a
    let sh := (s.readReg b).toNat
    let o := exec (.lsr (field d) (field a) (field b)) s
    (sh < s.cfg.bits → s.cfg.lsrArithmetic = false →
      ∃ v : Word, v.toNat = x.toNat / 2 ^ sh ∧ o = .next (afterWrite s d v)) ∧
    (sh < s.cfg.bits → s.cfg.lsrArithmetic = true →
      ∃ v : Word, v.toNat < 2 ^ s.cfg.bits ∧ signedValue s.cfg v = signedValue s.cfg x / 2 ^ sh ∧
        o = .next (afterWrite s d v)) ∧
    (s.cfg.bits ≤ sh → s.cfg.hostArithStops = true → o = .fault (.undefinedResult .shiftRange))

/-- The model's choice (log 8), where R220 leaves the host's arithmetic no step out and the source inherits its semantics: under a host whose
arithmetic goes on, the same operations complete with some word in the destination, the mark of the outcome, and no other effect. -/
def Obligations.HostArithmeticGoesOn : Prop :=
  (∀ (s : State) (r : Fin 6), Written s [r] → s.cfg.hostArithStops = false →
    (s.readReg r).toNat = 2 ^ (s.cfg.bits - 1) → WroteHostValue s r .negOverflow (exec (.neg (field r)) s)) ∧
  ∀ (s : State) (d a b : Fin 6), Written s [a, b] → s.cfg.hostArithStops = false →
    let va := (s.readReg a).toNat
    let vb := (s.readReg b).toNat
    (vb = 0 → WroteHostValue s d .divByZero (exec (.div (field d) (field a) (field b)) s)) ∧
    (s.cfg.divSigned = true → va = 2 ^ (s.cfg.bits - 1) → vb = 2 ^ s.cfg.bits - 1 →
      WroteHostValue s d .divOverflow (exec (.div (field d) (field a) (field b)) s)) ∧
    (s.cfg.bits ≤ vb →
      WroteHostValue s d .shiftRange (exec (.lsl (field d) (field a) (field b)) s) ∧
      WroteHostValue s d .shiftRange (exec (.lsr (field d) (field a) (field b)) s))

/-- R153, R100: the comparison of the kind, signed or unsigned by `CMP_SIGNED`, as a whole word 1 or 0; an unrecognised kind faults before any
register is checked. -/
def Obligations.CmpResult : Prop :=
  (∀ k d a b, FieldFaults (.cmp k d a b) ∧ EncodedAs (.cmp k d a b) fun _ => [0x12, k, d, a, b]) ∧
  ∀ (s : State) (k d a b : Fin 6), Written s [a, b] →
    let p : Int := if s.cfg.cmpSigned then signedValue s.cfg (s.readReg a) else ((s.readReg a).toNat : Int)
    let q : Int := if s.cfg.cmpSigned then signedValue s.cfg (s.readReg b) else ((s.readReg b).toNat : Int)
    let holds : Prop := match k with
      | 0 => p = q
      | 1 => p ≠ q
      | 2 => p > q
      | 3 => p < q
      | 4 => p ≥ q
      | 5 => p ≤ q
    let o := exec (.cmp (field k) (field d) (field a) (field b)) s
    (holds → o = .next (afterWrite s d 1)) ∧ (¬holds → o = .next (afterWrite s d 0))

/-! ## INVOKE -/

/-- R173, R177: an index at or above the import count faults first, then an unbound slot, with no callback run and the trace unchanged. Else the
index is recorded and the callback bound there runs, its acts in order, and the step answers OK when it returns. -/
def Obligations.InvokeResult : Prop :=
  (∀ index, EncodedAs (.invoke index) fun e => 0x07 :: toBytes e index.toNat 2) ∧
  ∀ (s : State) (index : BitVec 16),
    let o := exec (.invoke index) s
    (s.importCount.toNat ≤ index.toNat →
      o = .next (afterFault s (.importFault .outOfRange index) (fuJump s.cfg s.opAddr s.fu))) ∧
    (index.toNat < s.importCount.toNat → s.table.getD index.toNat none = none →
      o = .next (afterFault s (.importFault .unbound index) (fuJump s.cfg s.opAddr s.fu))) ∧
    (∀ c u, index.toNat < s.importCount.toNat → s.table.getD index.toNat none = some c →
      callbackActs (s.nextActs c)
        { s with invocations := s.invocations ++ [index], callbackQueue := s.callbackQueue.tail } = .ok u →
      o = .next { u with result := some .ok })

/-- R174, R175, R176, R177: an INVOKE of a bound slot, whose callback keeps its duties, completes: the index is in the trace, then the
callback's acts have had their effects, one after the other and no others, and the step answers OK whatever `running` holds. So
nothing outside the state-access port has changed, and a callback that does nothing changes nothing else. -/
def Obligations.InvokeRunsCallback : Prop :=
  ∀ (s : State) (index : BitVec 16) (c : CallbackId),
    index.toNat < s.importCount.toNat → s.table.getD index.toNat none = some c → s.ready = true →
    s.frames.length = s.cfg.scopeLimit → (∀ act ∈ s.nextActs c, actAllowed s.cfg act = true) →
    ∃ t : State, exec (.invoke index) s = .next t ∧
      t.result = some .ok ∧ t.invocations = s.invocations ++ [index] ∧
      (∃ u, ActsEffect (s.nextActs c)
          { s with invocations := s.invocations ++ [index], callbackQueue := s.callbackQueue.tail } u ∧
        t = { u with result := some .ok }) ∧
      t.cfg = s.cfg ∧ t.fu.image = s.fu.image ∧ t.nameTable = s.nameTable ∧ t.importCount = s.importCount ∧
      t.ready = true ∧ t.faults = s.faults ∧ t.sinkLog = s.sinkLog ∧ t.unwrittenReads = s.unwrittenReads ∧
      t.opAddr = s.opAddr ∧ t.commands = s.commands ∧ t.initDone = s.initDone ∧ t.draws = s.draws ∧
      t.undefinedResults = s.undefinedResults ∧ t.callbackQueue = s.callbackQueue.tail ∧
      (s.nextActs c = [] →
        t = { s with
          invocations := s.invocations ++ [index], callbackQueue := s.callbackQueue.tail, result := some .ok })

/-! ## Control and scopes -/

/-- R190: a nonzero condition register jumps to the target, which is not checked; a zero one falls through. Nothing but the fetch unit
changes. -/
def Obligations.JmpResult : Prop :=
  (∀ c p, FieldFaults (.jmp c p) ∧ EncodedAs (.jmp c p) fun e => 0x13 :: c :: toBytes e p.toNat 4) ∧
  ∀ (s : State) (c : Fin 6) (target : Pos), Written s [c] →
    ((s.readReg c).toNat ≠ 0 →
      (fuJump s.cfg target s.fu).pc = target ∧
      exec (.jmp (field c) target) s = .next { s with fu := fuJump s.cfg target s.fu, result := some .ok }) ∧
    ((s.readReg c).toNat = 0 →
      exec (.jmp (field c) target) s = .next { s with result := some .ok })

/-- R191: the resume position is staged in the slot above the current depth, and control goes to the target; with no such slot the fault is
CALL_NO_SLOT. -/
def Obligations.CallResult : Prop :=
  (∀ target, EncodedAs (.call target) fun e => 0x14 :: toBytes e target.toNat 4) ∧
  ∀ (s : State) (target : Pos), s.frames.length = s.cfg.scopeLimit →
    (s.cfg.scopeLimit ≤ s.si + 1 →
      exec (.call target) s =
        .next (afterFault s (.scopeDepth .callNoSlot s.si) (fuJump s.cfg s.opAddr s.fu))) ∧
    (s.si + 1 < s.cfg.scopeLimit →
      ∃ (fu' : FetchUnit) (fs : List Frame), fu'.pc = target ∧ fu'.image = s.fu.image ∧
        exec (.call target) s = .next { s with fu := fu', frames := fs, result := some .ok } ∧
        fs.length = s.frames.length ∧
        fs.getD (s.si + 1) ⟨0, 0⟩ = ⟨(s.frame (s.si + 1)).stackBase, s.opAddr + 5⟩ ∧
        ∀ k, k ≠ s.si + 1 → fs.getD k ⟨0, 0⟩ = s.frame k)

/-- R192: depth, then capacity; then the payload is copied from the program to the stack at `sp`, the new frame's base is the old `sp`, its
return address is what was staged there, and `sp` and `si` grow. A payload past the program's end is FETCH_UNDEFINED, and so may any be
whose supplier under-delivers (R68). -/
def Obligations.ScopeResult : Prop :=
  (∀ length, EncodedAs (.scope length) fun e => 0x15 :: toBytes e length.toNat 4) ∧
  ∀ (s : State) (length : BitVec 32), Inv s → s.pc.toNat ≤ s.fu.image.length →
    let n := length.toNat
    let o := exec (.scope length) s
    let completes : Prop := ∃ (fu' : FetchUnit) (m : Memory) (fs : List Frame),
      fu'.pc.toNat = s.pc.toNat + n ∧ fu'.image = s.fu.image ∧
      o = .next { s with
        fu := fu', stack := m, frames := fs, sp := s.sp + n, si := s.si + 1, result := some .ok } ∧
      BytesAt m s.sp ((s.fu.image.drop s.pc.toNat).take n) ∧
      (∀ a, a < s.sp ∨ s.sp + n ≤ a → memRead m a = memRead s.stack a) ∧
      fs.length = s.frames.length ∧
      fs.getD (s.si + 1) ⟨0, 0⟩ = ⟨s.sp, (s.frame (s.si + 1)).ret⟩ ∧
      (∀ k, k ≠ s.si + 1 → fs.getD k ⟨0, 0⟩ = s.frame k)
    (s.cfg.scopeLimit ≤ s.si + 1 →
      o = .next (afterFault s (.scopeDepth .openBeyondLimit s.si) (fuJump s.cfg s.opAddr s.fu))) ∧
    (s.si + 1 < s.cfg.scopeLimit → s.cfg.stackCapacity < s.sp + n →
      o = .next (afterFault s (.stackRange s.sp n) (fuJump s.cfg s.opAddr s.fu))) ∧
    (s.si + 1 < s.cfg.scopeLimit → s.sp + n ≤ s.cfg.stackCapacity →
      (s.pc.toNat + n ≤ s.fu.image.length → (s.cfg.fetchMode = .streaming → s.fu.plan = []) → completes) ∧
      (s.pc.toNat + n ≤ s.fu.image.length → completes ∨ o = .fault .fetchUndefined) ∧
      (s.fu.image.length < s.pc.toNat + n → o = .fault .fetchUndefined))

/-- R193: the scope is closed, `sp` is its base, and a staged return address is taken and cleared; with none, control falls through. The
stack bytes keep their values. -/
def Obligations.EndResult : Prop :=
  (EncodedAs .endScope fun _ => [0x16]) ∧
  ∀ s : State, s.frames.length = s.cfg.scopeLimit → s.si < s.cfg.scopeLimit →
    (s.si = 0 →
      exec .endScope s =
        .next (afterFault s (.scopeDepth .closeNoneOpen 0) (fuJump s.cfg s.opAddr s.fu))) ∧
    (s.si ≠ 0 → (s.frame s.si).ret = 0 →
      exec .endScope s =
        .next { s with sp := (s.frame s.si).stackBase, si := s.si - 1, result := some .ok }) ∧
    (s.si ≠ 0 → (s.frame s.si).ret ≠ 0 →
      ∃ (fu' : FetchUnit) (fs : List Frame), fu'.pc = (s.frame s.si).ret ∧ fu'.image = s.fu.image ∧
        exec .endScope s = .next { s with
          fu := fu', frames := fs, sp := (s.frame s.si).stackBase, si := s.si - 1, result := some .ok } ∧
        fs.length = s.frames.length ∧
        fs.getD s.si ⟨0, 0⟩ = ⟨(s.frame s.si).stackBase, 0⟩ ∧
        ∀ k, k ≠ s.si → fs.getD k ⟨0, 0⟩ = s.frame k)

/-- R194, R250: EOP clears `running`, leaves `pc` after itself and everything else as it was, and answers HALTED; the step after it answers
NOT_RUNNING. -/
def Obligations.EopHalts : Prop :=
  (EncodedAs .eop fun _ => [0x17]) ∧
  ∀ s : State, ∃ t : State, exec .eop s = .next t ∧
    t = { s with running := false, result := some .halted } ∧
    (s.commands = [] → step t = .next { s with running := false, result := some .notRunning })

/-- R195, R196, R257: after a CALL, whatever code runs, the first END of a scope opened at the next depth (with the staged address and
the frame's base still in place) resumes after the CALL, with `sp` and `si` as at that scope's SCOPE. `s1'` is the state at the SCOPE and
`s2'` the state at the END. -/
def Obligations.CallScopeEndReturns : Prop :=
  ∀ (s s1 s1' s2 s2' s3 : State) (target : Pos) (length : BitVec 32),
    s.frames.length = s.cfg.scopeLimit → s.opAddr.toNat + 5 < 2 ^ 32 →
    exec (.call target) s = .next s1 → s1.result = some .ok →
    s1'.cfg = s.cfg → s1'.frames.length = s.frames.length → s1'.si = s.si →
    (s1'.frame (s.si + 1)).ret = (s1.frame (s.si + 1)).ret →
    exec (.scope length) s1' = .next s2 → s2.result = some .ok →
    s2'.frame s2'.si = s2.frame s2.si → s2'.si = s2.si →
    exec .endScope s2' = .next s3 →
    s3.result = some .ok ∧ s3.pc = s.opAddr + 5 ∧ s3.sp = s1'.sp ∧ s3.si = s.si

/-! ## Fetch unit -/

/-- R63, R64, R66, R68: with a faithful supplier a fetch of `n` bytes (in streaming mode `n` no more than the window) gives the image's bytes
at `pc` and advances `pc` by `n`, in both modes, and fails exactly when it runs past the end of the image. -/
def Obligations.FetchReadsImage : Prop :=
  ∀ (cfg : Config) (fu : FetchUnit) (n : Nat),
    (cfg.fetchMode = .streaming → n ≤ cfg.windowSize ∧ WindowInv cfg fu ∧ fu.plan = []) →
    fu.image.length < 2 ^ 32 → fu.pc.toNat ≤ fu.image.length →
    (fu.pc.toNat + n ≤ fu.image.length →
      ∃ fu', fuFetch cfg n fu = some ((fu.image.drop fu.pc.toNat).take n, fu') ∧
        fu'.pc.toNat = fu.pc.toNat + n ∧ fu'.image = fu.image ∧
        (cfg.fetchMode = .streaming → WindowInv cfg fu' ∧ fu'.plan = [])) ∧
    (fu.image.length < fu.pc.toNat + n → fuFetch cfg n fu = none)

/-- R62, R66, R68: in streaming mode, whatever the supplier delivers, a fetch of `n` bytes, no more than the window, makes no supplier call
where `n` bytes are buffered. Else it makes one, from the first byte not in the window and for the rest of the window, which
keeps the unread tail; where the bytes delivered do not suffice the fetch is FETCH_UNDEFINED. So is a step whose opcode cannot be
fetched, in either mode. -/
def Obligations.FetchCallsSupplier : Prop :=
  (∀ (cfg : Config) (fu : FetchUnit) (n : Nat), cfg.fetchMode = .streaming → WindowInv cfg fu → n ≤ cfg.windowSize →
    let p := fu.pc.toNat
    let tail := fu.base.toNat + fu.buf.length - p
    let want := cfg.windowSize - tail
    let there := min want (fu.image.length - (p + tail))
    let k := match fu.plan with
      | [] => there
      | most :: _ => min most there
    let asked : FetchUnit := { fu with
      base := fu.pc
      buf := (fu.image.drop p).take (tail + k)
      plan := fu.plan.tail
      log := fu.log ++ [⟨p + tail, want, k⟩] }
    (n ≤ tail → fuFetch cfg n fu =
      some ((fu.image.drop p).take n, { fu with pc := fu.pc + BitVec.ofNat 32 n })) ∧
    (tail < n → n ≤ tail + k → fuFetch cfg n fu =
      some ((fu.image.drop p).take n, { asked with pc := fu.pc + BitVec.ofNat 32 n })) ∧
    (tail + k < n → fuFetch cfg n fu = none)) ∧
  ∀ h s : State, StepIssued h s → s.running = true → fuFetch s.cfg 1 s.fu = none → step h = .fault .fetchUndefined

/-- R67: in both modes the architectural effect of `jump_to(t)` is `pc <- t`. In streaming mode a target in `[P, P+F)` moves the cursor and calls
no supplier; any other discards the window and asks the supplier once, from the target. -/
def Obligations.JumpTo : Prop :=
  ∀ (s : State) (t : Pos),
    (s.jumpTo t).pc = t ∧ archView (s.jumpTo t) = archView { s with fu := { s.fu with pc := t } } ∧
    (s.cfg.fetchMode = .resident → s.jumpTo t = { s with fu := { s.fu with pc := t } }) ∧
    (s.cfg.fetchMode = .streaming → s.fu.base.toNat ≤ t.toNat → t.toNat < s.fu.base.toNat + s.fu.buf.length →
      s.jumpTo t = { s with fu := { s.fu with pc := t } }) ∧
    (s.cfg.fetchMode = .streaming → t.toNat < s.fu.base.toNat ∨ s.fu.base.toNat + s.fu.buf.length ≤ t.toNat →
      ∃ k, (s.jumpTo t).fu.log = s.fu.log ++ [⟨t.toNat, s.cfg.windowSize, k⟩] ∧ (s.jumpTo t).fu.base = t ∧
        (s.jumpTo t).fu.buf = (s.fu.image.drop t.toNat).take k ∧ k ≤ s.cfg.windowSize ∧
        (s.fu.plan = [] → k = min s.cfg.windowSize (s.fu.image.length - t.toNat)))

/-! ## Lifecycle -/

/-- R240, R243, R244, R245, R246: init of an image laid out as the header format says, in either fetch mode with a faithful supplier, leaves the
state R40 lists: ready, not running, `pc` at the entry point, the names recoverable in declaration order, the root block in
the stack and nothing else written. -/
def Obligations.InitLoadsProgram : Prop :=
  ∀ (s : State) (names : List (List Byte)) (root body : List Byte) (minor : BitVec 16) (rest : List HostCommand),
    let head := header s.cfg.endian s.cfg.engineMajor minor names root
    s.cfg.Legal → s.initDone = false →
    minor.toNat ≤ s.cfg.engineMinor.toNat → (∀ n ∈ names, (0 : Byte) ∉ n) →
    names.length ≤ s.cfg.maxImports → ((names.map fun n => n ++ [0]).flatten).length ≤ s.cfg.nameTableCapacity →
    root.length ≤ s.cfg.stackCapacity → (head ++ body).length < 2 ^ 32 →
    s.commands = .init (head ++ body) [] :: rest →
    ∃ t : State, step s = .next t ∧
      t.result = some .initOk ∧ t.ready = true ∧ t.running = false ∧ t.pc.toNat = head.length ∧
      t.sp = root.length ∧ t.si = 0 ∧ (∀ k, t.frame k = ⟨0, 0⟩) ∧
      t.importNames = names ∧ t.importCount.toNat = names.length ∧ (∀ slot ∈ t.table, slot = none) ∧
      BytesAt t.stack 0 root ∧ (∀ a, root.length ≤ a → memRead t.stack a = none) ∧
      (∀ r : Fin 6, t.written[r] = false) ∧ t.fault = none ∧ t.cfg = s.cfg ∧ t.commands = rest

/-- R241: the version gate. A major that differs and a minor above the engine's are rejected; a minor at or below it is never rejected. -/
def Obligations.InitVersionGate : Prop :=
  ∀ (s : State) (major minor : BitVec 16) (more : List Byte) (rest : List HostCommand),
    let image := toBytes s.cfg.endian major.toNat 2 ++ toBytes s.cfg.endian minor.toNat 2 ++ more
    s.cfg.Legal → s.initDone = false → image.length < 2 ^ 32 →
    s.commands = .init image [] :: rest →
    (major ≠ s.cfg.engineMajor →
      ∃ t, step s = .next t ∧ FailedInit t (.version .majorMismatch major minor) 0) ∧
    (major = s.cfg.engineMajor → s.cfg.engineMinor.toNat < minor.toNat →
      ∃ t, step s = .next t ∧ FailedInit t (.version .minorTooNew major minor) 2) ∧
    (major = s.cfg.engineMajor → minor.toNat ≤ s.cfg.engineMinor.toNat →
      ∀ t, step s = .next t → t.result ≠ some (.initFailed .version))

/-- R242, R243, R244, R245: too many imports, a name table that overflows and a root block larger than the stack fail init, each at the
position of its header field, and an init whose header ends early ends in FETCH_UNDEFINED, whatever the supplier delivers. What the
record says beside kind, subcause and position is the model's reading (log 15). -/
def Obligations.InitHeaderLimits : Prop :=
  (∀ (s : State) (minor : BitVec 16) (names : List (List Byte)) (root : List Byte) (n : Nat) (plan : List Nat)
      (rest : List HostCommand),
    let head := header s.cfg.endian s.cfg.engineMajor minor names root
    s.cfg.Legal → s.initDone = false → minor.toNat ≤ s.cfg.engineMinor.toNat → (∀ x ∈ names, (0 : Byte) ∉ x) →
    names.length ≤ s.cfg.maxImports → ((names.map fun x => x ++ [0]).flatten).length ≤ s.cfg.nameTableCapacity →
    root.length ≤ s.cfg.stackCapacity → n < head.length → head.length ≤ 2 ^ 32 →
    s.commands = .init (head.take n) plan :: rest → step s = .fault .fetchUndefined) ∧
  ∀ (s : State) (minor : BitVec 16) (count : BitVec 32) (more : List Byte) (rest : List HostCommand),
    let image := toBytes s.cfg.endian s.cfg.engineMajor.toNat 2 ++ toBytes s.cfg.endian minor.toNat 2 ++
      toBytes s.cfg.endian count.toNat 4 ++ more
    s.cfg.Legal → s.initDone = false → minor.toNat ≤ s.cfg.engineMinor.toNat →
    image.length < 2 ^ 32 → s.commands = .init image [] :: rest →
    (s.cfg.maxImports < count.toNat →
      ∃ t, step s = .next t ∧ FailedInit t (.headerFormat .tooManyImports count 0) 4) ∧
    (count.toNat ≤ s.cfg.maxImports → s.cfg.nameTableCapacity ≤ more.length →
      (more.take s.cfg.nameTableCapacity).count 0 < count.toNat →
      ∃ t, step s = .next t ∧
        FailedInit t (.headerFormat .nameTableOverflow count s.cfg.nameTableCapacity) 8) ∧
    (∀ (names : List (List Byte)) (rlen : BitVec 32) (tail : List Byte),
      (∀ n ∈ names, (0 : Byte) ∉ n) → names.length = count.toNat → count.toNat ≤ s.cfg.maxImports →
      ((names.map fun n => n ++ [0]).flatten).length ≤ s.cfg.nameTableCapacity →
      more = (names.map fun n => n ++ [0]).flatten ++ toBytes s.cfg.endian rlen.toNat 4 ++ tail →
      s.cfg.stackCapacity < rlen.toNat →
      ∃ t, step s = .next t ∧
        FailedInit t (.stackRange 0 rlen.toNat)
          (BitVec.ofNat 32 (8 + ((names.map fun n => n ++ [0]).flatten).length)))

/-- R248: start clears every frame and sets `running`, and changes nothing else; while the block is not ready it has no effect. -/
def Obligations.StartClearsFrames : Prop :=
  ∀ (s : State) (rest : List HostCommand), s.commands = .start :: rest →
    (s.ready = true →
      ∃ t, step s = .next t ∧ (∀ k, t.frame k = ⟨0, 0⟩) ∧ t.frames.length = s.cfg.scopeLimit ∧
        t = { s with commands := rest, frames := t.frames, running := true, result := some .done }) ∧
    (s.ready = false → step s = .next { s with commands := rest, result := some .done })

/-- R251, R252: stop clears `running` and changes nothing else; is_running answers it and changes nothing. -/
def Obligations.StopAndIsRunning : Prop :=
  ∀ (s : State) (rest : List HostCommand),
    (s.commands = .stop :: rest →
      step s = .next { s with commands := rest, running := false, result := some .done }) ∧
    (s.commands = .isRunning :: rest →
      step s = .next { s with commands := rest, result := some (.isRunning s.running) })

/-- R172: link binds the first declared name that matches, and with no match changes nothing, from the host and from a callback; before a
successful init it has no meaning. -/
def Obligations.LinkBindsFirstMatch : Prop :=
  ∀ (s : State) (name : List Byte) (c : CallbackId) (rest : List HostCommand),
    s.commands = .link name c :: rest →
    (s.ready = true → ∀ (k : Nat) (h : k < s.importNames.length), s.importNames[k] = name →
      (∀ (j : Nat) (hj : j < k), s.importNames[j] ≠ name) →
      step s = .next { s with commands := rest, table := s.table.set k (some c), result := some .done } ∧
      callbackAct (.link name c) s = .ok { s with table := s.table.set k (some c) }) ∧
    (s.ready = true → name ∉ s.importNames →
      step s = .next { s with commands := rest, result := some .done } ∧ callbackAct (.link name c) s = .ok s) ∧
    (s.ready = false → step s = .refused .linkBeforeInit ∧ callbackAct (.link name c) s = .error .linkBeforeInit)

/-- R6, R41, R175: a read through the state-access port answers the element it names and changes nothing but the record of reads; a
register gives the value it holds, which is the model's choice for one that nothing has written (log 6), and a byte that
nothing has written none. A read of an element that does not exist has no meaning (log 11). -/
def Obligations.HostReadAnswers : Prop :=
  ∀ (s : State) (q : PortRead) (rest : List HostCommand), s.commands = .read q :: rest →
    let answers (v : PortValue) : Prop := step s = .next { s with
      commands := rest, portReads := s.portReads ++ [(q, v)], result := some (.value v) }
    (actAllowed s.cfg (.read q) = false → step s = .refused .portRange) ∧
    (actAllowed s.cfg (.read q) = true → ∃ v, answers v) ∧
    (∀ r : Fin 6, q = .reg r → answers (.word (s.readReg r))) ∧
    (∀ a, q = .stackByte a → a < s.cfg.stackCapacity → answers (.byte (memRead s.stack a))) ∧
    (q = .pc → answers (.position s.pc)) ∧
    (q = .sp → answers (.number s.sp)) ∧
    (∀ k, q = .frame k → k < s.cfg.scopeLimit → answers (.frame (s.frame k))) ∧
    (q = .si → answers (.number s.si)) ∧
    (q = .running → answers (.flag s.running)) ∧
    (q = .ready → answers (.flag s.ready)) ∧
    (∀ j, q = .nameByte j → j < s.cfg.nameTableCapacity → answers (.byte s.nameTable[j]?)) ∧
    (q = .importCount → answers (.number s.importCount.toNat)) ∧
    (∀ k, q = .tableSlot k → k < s.cfg.maxImports → answers (.slot (s.table.getD k none))) ∧
    (q = .fault → answers (.fault s.fault))

/-- R29, R41, R175, R176: between steps the host's writes through the state-access port succeed within the limits of R175 and have no
meaning outside them, where the model refuses them (log 11); that a frame's `stack_base` above `STACK_CAPACITY` is refused too is
the model's choice (log 29). Each has its own effect and no other (`WriteEffect`); none touches the name table, `import_count`, `ready`, the fault record,
the function table or `running`; a written register holds the value and is marked written, and so is a written stack byte. -/
def Obligations.HostWriteLimits : Prop :=
  ∀ (s : State) (w : PortWrite) (rest : List HostCommand), s.frames.length = s.cfg.scopeLimit →
    s.commands = .write w :: rest →
    (actAllowed s.cfg (.write w) = false → step s = .refused .portRange) ∧
    (actAllowed s.cfg (.write w) = true →
      ∃ t, step s = .next t ∧ t.result = some .done ∧ t.commands = rest ∧
        (∃ u, WriteEffect w { s with commands := rest } u ∧ t = { u with result := some .done }) ∧
        t.cfg = s.cfg ∧ t.fu.image = s.fu.image ∧ t.nameTable = s.nameTable ∧ t.importCount = s.importCount ∧
        t.ready = s.ready ∧ t.faults = s.faults ∧ t.table = s.table ∧ t.running = s.running ∧
        (∀ (r : Fin 6) (v : Word), w = .reg r v →
          (t.readReg r).toNat = v.toNat % 2 ^ s.cfg.bits ∧ t.written[r] = true) ∧
        (∀ a b, w = .stackByte a b → memRead t.stack a = some b) ∧
        (∀ n, w = .sp n → t.sp = n) ∧ (∀ n, w = .si n → t.si = n) ∧ (∀ p, w = .pc p → t.pc = p))

/-- R26, R176, R256: a second init, an image longer than `2^32 - 1` bytes, and a callback that calls step, init or start have no move. -/
def Obligations.BrokenDutiesHaveNoMove : Prop :=
  (∀ (s : State) (image : List Byte) (plan : List Nat) (rest : List HostCommand),
    s.commands = .init image plan :: rest →
    (s.initDone = true → step s = .refused .initTwice) ∧
    (s.initDone = false → 2 ^ 32 ≤ image.length → step s = .refused .imageTooLong)) ∧
  (∀ (s : State) (index : BitVec 16) (c : CallbackId) (acts more : List CallbackAct) (act : CallbackAct),
    index.toNat < s.importCount.toNat → s.table.getD index.toNat none = some c → s.ready = true →
    s.nextActs c = acts ++ act :: more → (∀ x ∈ acts, actAllowed s.cfg x = true) →
    act = .callStep ∨ act = .callInit ∨ act = .callStart →
    exec (.invoke index) s = .refused .callbackReentry)

/-- R217, R248: after a fault, start clears the frames, keeps the fault record and sets `running`, with `pc` at the faulting instruction's
opcode. -/
def Obligations.RestartAfterFault : Prop :=
  ∀ (h s t : State) (k : FaultKind), Inv s → StepIssued h s → s.running = true →
    step h = .next t → t.result = some (.fault k) →
    t.pc = s.pc ∧
    ∃ u, step { t with commands := [.start] } = .next u ∧ u.running = true ∧ u.pc = s.pc ∧
      (∀ j, u.frame j = ⟨0, 0⟩) ∧ u.faults = t.faults ∧ u.fault ≠ none
end

