-- ==== Sys2Proof/Laws/Bytes.lean ====
section
/-! SUPPORT. `from_bytes` and `to_bytes` are inverse (R8), and `trunc_N` (R7). -/

namespace Sys2Proof

@[simp] theorem leBytes_length (v n : Nat) : (leBytes v n).length = n := by
  induction n generalizing v with
  | zero => rfl
  | succ n ih => simp [leBytes, ih]

theorem leNat_leBytes (v n : Nat) : leNat (leBytes v n) = v % 256 ^ n := by
  induction n generalizing v with
  | zero => simp [leBytes, leNat, Nat.mod_one]
  | succ n ih =>
    have h : v % 256 ^ (n + 1) = v % 256 + 256 * (v / 256 % 256 ^ n) := by rw [Nat.pow_succ', Nat.mod_mul]
    rw [leBytes, leNat, ih, h, BitVec.toNat_ofNat]

theorem leNat_lt (bs : List Byte) : leNat bs < 256 ^ bs.length := by
  induction bs with
  | nil => simp [leNat]
  | cons b bs ih =>
    have hb := b.isLt
    rw [leNat, List.length_cons, Nat.pow_succ']
    omega

theorem leBytes_leNat (bs : List Byte) : leBytes (leNat bs) bs.length = bs := by
  induction bs with
  | nil => rfl
  | cons b bs ih =>
    have hb := b.isLt
    have hdiv : (b.toNat + 256 * leNat bs) / 256 = leNat bs := by omega
    have hmod : BitVec.ofNat 8 (b.toNat + 256 * leNat bs) = b := by
      apply BitVec.eq_of_toNat_eq
      rw [BitVec.toNat_ofNat]
      omega
    rw [leNat, List.length_cons, leBytes, hdiv, hmod, ih]

@[simp] theorem toBytes_length (e : Endian) (v n : Nat) : (toBytes e v n).length = n := by
  cases e <;> simp [toBytes]

theorem fromBytes_toBytes (e : Endian) (v n : Nat) : fromBytes e (toBytes e v n) = v % 256 ^ n := by
  cases e <;> simp [fromBytes, toBytes, leNat_leBytes]

theorem toBytes_fromBytes (e : Endian) (bs : List Byte) : toBytes e (fromBytes e bs) bs.length = bs := by
  cases e with
  | little => exact leBytes_leNat bs
  | big =>
    have h := leBytes_leNat bs.reverse
    rw [List.length_reverse] at h
    simp [fromBytes, toBytes, h]

theorem fromBytes_lt (e : Endian) (bs : List Byte) : fromBytes e bs < 256 ^ bs.length := by
  cases e with
  | little => exact leNat_lt bs
  | big => simpa [fromBytes] using leNat_lt bs.reverse

/-- The bits of a word are 32 or 64. -/
theorem bits_cases (cfg : Config) : cfg.bits = 32 ∨ cfg.bits = 64 := by
  cases h : cfg.wordSize <;> simp [Config.bits, Config.wordBytes, h]

theorem pow_bits_le (cfg : Config) : 2 ^ cfg.bits ≤ 2 ^ 64 := by
  rcases bits_cases cfg with h | h <;> simp [h]

theorem pow_bits_eq (cfg : Config) : 2 ^ cfg.bits = 256 ^ cfg.wordBytes := by
  rw [Config.bits, Nat.pow_mul]

theorem truncN_toNat (cfg : Config) (x : Nat) : (truncN cfg x).toNat = x % 2 ^ cfg.bits := by
  have h := Nat.mod_lt x (Nat.two_pow_pos cfg.bits)
  have h' := pow_bits_le cfg
  rw [truncN, BitVec.toNat_ofNat, Nat.mod_eq_of_lt (Nat.lt_of_lt_of_le h h')]

theorem truncInt_toNat (cfg : Config) (x : Int) : (truncInt cfg x).toNat = (x % 2 ^ cfg.bits).toNat := by
  have hp : (0 : Int) < 2 ^ cfg.bits := by positivity
  have h0 := Int.emod_nonneg x (Int.ne_of_gt hp)
  have h1 := Int.emod_lt_of_pos x hp
  have h2 : ((2 : Int) ^ cfg.bits) ≤ 2 ^ 64 := by exact_mod_cast pow_bits_le cfg
  rw [truncInt, BitVec.toNat_ofNat, Nat.mod_eq_of_lt]
  omega

theorem truncN_lt (cfg : Config) (x : Nat) : (truncN cfg x).toNat < 2 ^ cfg.bits := by
  rw [truncN_toNat]; exact Nat.mod_lt _ (Nat.two_pow_pos _)

theorem truncInt_lt (cfg : Config) (x : Int) : (truncInt cfg x).toNat < 2 ^ cfg.bits := by
  have hp : (0 : Int) < 2 ^ cfg.bits := by positivity
  have h0 := Int.emod_nonneg x (Int.ne_of_gt hp)
  have h1 := Int.emod_lt_of_pos x hp
  rw [truncInt_toNat]
  have : ((2 ^ cfg.bits : Nat) : Int) = 2 ^ cfg.bits := by push_cast; rfl
  omega

/-- A word that fits is its own truncation. -/
theorem truncN_of_lt (cfg : Config) (v : Word) (h : v.toNat < 2 ^ cfg.bits) : truncN cfg v.toNat = v := by
  apply BitVec.eq_of_toNat_eq
  rw [truncN_toNat, Nat.mod_eq_of_lt h]

@[simp] theorem truncN_truncN (cfg : Config) (x : Nat) : truncN cfg (truncN cfg x).toNat = truncN cfg x :=
  truncN_of_lt cfg _ (truncN_lt cfg x)

@[simp] theorem truncN_truncInt (cfg : Config) (x : Int) : truncN cfg (truncInt cfg x).toNat = truncInt cfg x :=
  truncN_of_lt cfg _ (truncInt_lt cfg x)

end Sys2Proof
end

