-- ==== Sys2Proof/Laws/Memory.lean ====
section
/-! SUPPORT. The laws of stack memory: read after write, and the canonical form that every write keeps. -/

namespace Sys2Proof.Machine

theorem memRead_memWrite_same (m : Memory) (a : Nat) (b : Byte) : memRead (memWrite m a b) a = some b := by
  induction m with
  | nil => simp [memWrite, memRead]
  | cons c m ih =>
    obtain ⟨x, y⟩ := c
    rcases Nat.lt_trichotomy a x with h | h | h
    · simp [memWrite, memRead, h]
    · simp [memWrite, memRead, h]
    · have h1 : ¬ a < x := by omega
      have h2 : ¬ a = x := by omega
      have h3 : ¬ x = a := by omega
      simp [memWrite, memRead, h1, h2, h3, ih]

theorem memRead_memWrite_other (m : Memory) (a a' : Nat) (b : Byte) (h : a' ≠ a) :
    memRead (memWrite m a b) a' = memRead m a' := by
  induction m with
  | nil => simp [memWrite, memRead, Ne.symm h]
  | cons c m ih =>
    obtain ⟨x, y⟩ := c
    simp only [memWrite]
    split
    · simp [memRead, Ne.symm h]
    · split
      · rename_i h2
        subst h2
        simp [memRead, Ne.symm h]
      · simp only [memRead, ih]

/-- The addresses of a memory after a write. -/
theorem mem_memWrite {m : Memory} {a : Nat} {b : Byte} {c : Host.Cell} (h : c ∈ memWrite m a b) :
    c = (a, b) ∨ c ∈ m := by
  induction m with
  | nil => simpa [memWrite] using h
  | cons d m ih =>
    obtain ⟨x, y⟩ := d
    simp only [memWrite] at h
    split at h
    · simpa using h
    · split at h
      · rcases List.mem_cons.1 h with h | h
        · exact .inl h
        · exact .inr (List.mem_cons_of_mem _ h)
      · rcases List.mem_cons.1 h with h | h
        · exact .inr (h ▸ List.mem_cons_self)
        · rcases ih h with h | h
          · exact .inl h
          · exact .inr (List.mem_cons_of_mem _ h)

/-- A write keeps the canonical form. -/
theorem memWrite_wf {m : Memory} (h : Memory.wf m) (a : Nat) (b : Byte) : Memory.wf (memWrite m a b) := by
  unfold Memory.wf at h ⊢
  induction m with
  | nil => simp [memWrite]
  | cons c m ih =>
    obtain ⟨x, y⟩ := c
    simp only [List.map_cons, List.pairwise_cons] at h
    obtain ⟨h1, h2⟩ := h
    simp only [memWrite]
    split
    · rename_i hax
      simp only [List.map_cons, List.pairwise_cons]
      refine ⟨fun z hz => ?_, h1, h2⟩
      rcases List.mem_cons.1 hz with hz | hz
      · exact hz ▸ hax
      · exact Nat.lt_trans hax (h1 z hz)
    · split
      · rename_i hax
        subst hax
        simp only [List.map_cons, List.pairwise_cons]
        exact ⟨h1, h2⟩
      · simp only [List.map_cons, List.pairwise_cons]
        refine ⟨fun z hz => ?_, ih h2⟩
        obtain ⟨c, hc, rfl⟩ := List.mem_map.1 hz
        rcases mem_memWrite hc with hc | hc
        · subst hc; simp only; omega
        · exact h1 _ (List.mem_map_of_mem hc)

/-- A byte outside the written range reads as before. -/
theorem memRead_memWriteBytes_other (m : Memory) (a a' : Nat) (bs : List Byte)
    (h : a' < a ∨ a + bs.length ≤ a') : memRead (memWriteBytes m a bs) a' = memRead m a' := by
  induction bs generalizing m a with
  | nil => rfl
  | cons b bs ih =>
    rw [List.length_cons] at h
    rw [memWriteBytes, ih _ _ (by omega), memRead_memWrite_other _ _ _ _ (by omega)]

/-- A byte inside the written range reads as written. -/
theorem memRead_memWriteBytes_same (m : Memory) (a : Nat) (bs : List Byte) (k : Nat) (h : k < bs.length) :
    memRead (memWriteBytes m a bs) (a + k) = some bs[k] := by
  induction bs generalizing m a k with
  | nil => simp at h
  | cons b bs ih =>
    rw [memWriteBytes]
    cases k with
    | zero =>
      rw [memRead_memWriteBytes_other _ _ _ _ (by omega), Nat.add_zero, memRead_memWrite_same]
      rfl
    | succ k =>
      have := ih (memWrite m a b) (a + 1) k (by simpa using h)
      rw [show a + (k + 1) = a + 1 + k by omega, this]
      rfl

theorem memWriteBytes_wf {m : Memory} (h : Memory.wf m) (a : Nat) (bs : List Byte) :
    Memory.wf (memWriteBytes m a bs) := by
  induction bs generalizing m a with
  | nil => exact h
  | cons b bs ih => exact ih (memWrite_wf h a b) (a + 1)

/-- The memory at reset is in canonical form. -/
theorem reset_stack_wf : Memory.wf State.reset.stack := List.Pairwise.nil

/-- Every address a write of a range leaves was there before or lies in the range. -/
theorem mem_memWriteBytes {m : Memory} {a : Nat} {bs : List Byte} {c : Host.Cell}
    (h : c ∈ memWriteBytes m a bs) : c ∈ m ∨ (a ≤ c.1 ∧ c.1 < a + bs.length) := by
  induction bs generalizing m a with
  | nil => exact .inl h
  | cons b bs ih =>
    rw [List.length_cons]
    rcases ih h with h | h
    · rcases mem_memWrite h with h | h
      · subst h; exact .inr ⟨Nat.le_refl a, by simp⟩
      · exact .inl h
    · exact .inr ⟨by omega, by omega⟩

/-- Reading a range gives `bs` exactly where `bs` stands in it. -/
theorem memReadBytes_eq_some {m : Memory} {a n : Nat} {bs : List Byte} :
    memReadBytes m a n = some bs ↔ bs.length = n ∧ ∀ k (h : k < bs.length), memRead m (a + k) = some bs[k] := by
  induction n generalizing a bs with
  | zero =>
    simp only [memReadBytes, Option.some.injEq, List.length_eq_zero_iff]
    constructor
    · rintro rfl; exact ⟨rfl, fun k h => absurd h (Nat.not_lt_zero k)⟩
    · rintro ⟨rfl, _⟩; rfl
  | succ n ih =>
    simp only [memReadBytes]
    cases bs with
    | nil =>
      cases h : memRead m a <;> simp
    | cons b bs =>
      constructor
      · intro h
        split at h
        · cases h
        · rename_i b' hb
          obtain ⟨bs', hbs', heq⟩ := Option.map_eq_some_iff.1 h
          obtain ⟨rfl, rfl⟩ := List.cons.inj heq
          obtain ⟨hl, hr⟩ := ih.1 hbs'
          refine ⟨by simp [hl], fun k hk => ?_⟩
          cases k with
          | zero => exact hb
          | succ k =>
            have := hr k (by simpa using hk)
            rw [show a + (k + 1) = a + 1 + k by omega, this]; rfl
      · rintro ⟨hl, hr⟩
        have h0 : memRead m a = some b := hr 0 (by simp)
        have h1 : memReadBytes m (a + 1) n = some bs := ih.2 ⟨by simpa using hl, fun k hk => by
          have := hr (k + 1) (by simpa using hk)
          rw [show a + 1 + k = a + (k + 1) by omega, this]; rfl⟩
        simp [h0, h1]

end Sys2Proof.Machine
end

