-- ==== Sys2Proof/Laws/Fetch.lean ====
section
/-! SUPPORT. What each operation of the fetch unit can do: the spec lemma of a supply, a refill, a fetch and a jump, and the
window invariant they keep (R62-R68). -/

namespace Sys2Proof.Machine

open Sys2Proof.Safety

/-! The supplier. -/

theorem fuDelivered_le (fu : FetchUnit) (index max : Nat) :
    fuDelivered fu index max ≤ max ∧ fuDelivered fu index max ≤ fu.image.length - index := by
  unfold fuDelivered
  cases fu.plan <;> simp only <;> omega

theorem fuDelivered_faithful (fu : FetchUnit) (index max : Nat) (h : fu.plan = []) :
    fuDelivered fu index max = min max (fu.image.length - index) := by
  simp [fuDelivered, h]

@[simp] theorem fuSupply_image (fu : FetchUnit) (i m : Nat) : (fuSupply fu i m).2.image = fu.image := rfl
@[simp] theorem fuSupply_pc (fu : FetchUnit) (i m : Nat) : (fuSupply fu i m).2.pc = fu.pc := rfl
@[simp] theorem fuSupply_plan (fu : FetchUnit) (i m : Nat) : (fuSupply fu i m).2.plan = fu.plan.tail := rfl
@[simp] theorem fuSupply_bytes (fu : FetchUnit) (i m : Nat) :
    (fuSupply fu i m).1 = (fu.image.drop i).take (fuDelivered fu i m) := rfl

/-! `jump_to`. -/

/-- The architectural effect of `jump_to(t)` is `pc <- t` in both modes (R67). -/
@[simp] theorem fuJump_pc (cfg : Config) (t : Pos) (fu : FetchUnit) : (fuJump cfg t fu).pc = t := by
  unfold fuJump; split
  · rfl
  · split <;> rfl

@[simp] theorem fuJump_image (cfg : Config) (t : Pos) (fu : FetchUnit) : (fuJump cfg t fu).image = fu.image := by
  unfold fuJump; split
  · rfl
  · split <;> rfl

theorem fuJump_plan_nil (cfg : Config) (t : Pos) (fu : FetchUnit) (h : fu.plan = []) :
    (fuJump cfg t fu).plan = [] := by
  unfold fuJump; split
  · exact h
  · split
    · exact h
    · simp [h]

/-! Refill and fetch. -/

@[simp] theorem fuRefill_pc (cfg : Config) (fu : FetchUnit) : (fuRefill cfg fu).pc = fu.pc := rfl
@[simp] theorem fuRefill_image (cfg : Config) (fu : FetchUnit) : (fuRefill cfg fu).image = fu.image := rfl

@[simp] theorem fuEnsure_pc (cfg : Config) (n : Nat) (fu : FetchUnit) : (fuEnsure cfg n fu).pc = fu.pc := by
  unfold fuEnsure; split <;> simp

@[simp] theorem fuEnsure_image (cfg : Config) (n : Nat) (fu : FetchUnit) : (fuEnsure cfg n fu).image = fu.image := by
  unfold fuEnsure; split <;> simp

/-- A fetch that succeeds gives `n` bytes, advances `pc` by `n` and leaves the image alone (R63). -/
theorem fuFetch_some {cfg : Config} {n : Nat} {fu fu' : FetchUnit} {bs : List Byte}
    (h : fuFetch cfg n fu = some (bs, fu')) :
    bs.length = n ∧ fu'.pc = fu.pc + BitVec.ofNat 32 n ∧ fu'.image = fu.image := by
  unfold fuFetch at h
  split at h
  · split at h
    · rename_i hle
      cases h
      refine ⟨?_, rfl, rfl⟩
      rw [List.length_take, List.length_drop]; omega
    · cases h
  · simp only at h
    split at h
    · rename_i hl
      cases h
      exact ⟨hl, by simp, by simp⟩
    · cases h

/-- A fetch at the state changes the fetch unit alone. -/
theorem fetchBytes_some {n : Nat} {s s' : State} {bs : List Byte} (h : fetchBytes n s = some (bs, s')) :
    ∃ fu', fuFetch s.cfg n s.fu = some (bs, fu') ∧ s' = { s with fu := fu' } := by
  obtain ⟨⟨bs', fu'⟩, h1, h2⟩ := Option.map_eq_some_iff.1 h
  cases h2
  exact ⟨fu', h1, rfl⟩

theorem fetchBytes_pc {n : Nat} {s s' : State} {bs : List Byte} (h : fetchBytes n s = some (bs, s')) :
    bs.length = n ∧ s'.pc = s.pc + BitVec.ofNat 32 n := by
  obtain ⟨fu', h1, rfl⟩ := fetchBytes_some h
  obtain ⟨hl, hp, -⟩ := fuFetch_some h1
  exact ⟨hl, hp⟩

theorem fetchValue_some {n : Nat} {s s' : State} {v : Nat} (h : fetchValue n s = some (v, s')) :
    ∃ bs fu', fuFetch s.cfg n s.fu = some (bs, fu') ∧ v = fromBytes s.cfg.endian bs ∧ s' = { s with fu := fu' } := by
  obtain ⟨⟨bs, s1⟩, h1, h2⟩ := Option.map_eq_some_iff.1 h
  cases h2
  obtain ⟨fu', h3, rfl⟩ := fetchBytes_some h1
  exact ⟨bs, fu', h3, rfl, rfl⟩

/-- Fetching fields changes the fetch unit alone, and not the image. -/
theorem fetchFields_some {ns : List Nat} {s s' : State} {vals : List Nat}
    (h : fetchFields ns s = some (vals, s')) :
    ∃ fu', s' = { s with fu := fu' } ∧ fu'.image = s.fu.image := by
  induction ns generalizing s s' vals with
  | nil => cases h; exact ⟨s.fu, rfl, rfl⟩
  | cons n ns ih =>
    unfold fetchFields at h
    split at h
    · cases h
    · rename_i v s1 h1
      obtain ⟨⟨vals', s2⟩, h2, h3⟩ := Option.map_eq_some_iff.1 h
      cases h3
      obtain ⟨bs, fu1, hf, -, rfl⟩ := fetchValue_some h1
      obtain ⟨fu2, rfl, hi⟩ := ih h2
      exact ⟨fu2, rfl, hi.trans (fuFetch_some hf).2.2⟩

/-- What fetching an instruction leaves: the fetch unit and `op_addr` alone. -/
theorem fetchInstr_instr {s s' : State} {i : Instr} (h : fetchInstr s = .instr i s') :
    ∃ fu', s' = { s with opAddr := s.pc, fu := fu' } ∧ fu'.image = s.fu.image := by
  unfold fetchInstr at h
  split at h
  · cases h
  · rename_i v s1 h1
    obtain ⟨bs, fu1, hf, -, rfl⟩ := fetchValue_some h1
    split at h
    · cases h
    · split at h
      · cases h
      · rename_i vals s2 h2
        cases h
        obtain ⟨fu2, rfl, hi⟩ := fetchFields_some h2
        exact ⟨fu2, rfl, hi.trans (fuFetch_some hf).2.2⟩

theorem fetchInstr_undefinedOpcode {s s' : State} {b : Byte} (h : fetchInstr s = .undefinedOpcode b s') :
    ∃ fu', s' = { s with opAddr := s.pc, fu := fu' } ∧ fu'.image = s.fu.image := by
  unfold fetchInstr at h
  split at h
  · cases h
  · rename_i v s1 h1
    obtain ⟨bs, fu1, hf, -, rfl⟩ := fetchValue_some h1
    split at h
    · cases h; exact ⟨fu1, rfl, (fuFetch_some hf).2.2⟩
    · split at h <;> cases h

/-! The window invariant (R65). -/

/-- The unread part of the window is the image from `pc` on. -/
theorem fuUnread_eq {cfg : Config} {fu : FetchUnit} (h : WindowInv cfg fu) :
    fuUnread fu = (fu.image.drop fu.pc.toNat).take (fu.base.toNat + fu.buf.length - fu.pc.toNat) := by
  obtain ⟨-, ⟨h1, h2⟩, h3⟩ := h
  rw [fuUnread, if_pos h1, h3, List.drop_take, List.drop_drop]
  congr 1
  · rw [← h3]; omega
  · congr 1; omega

/-- Buffered bytes lie inside the image. -/
theorem window_in_image {cfg : Config} {fu : FetchUnit} (h : WindowInv cfg fu) (hne : fu.buf ≠ []) :
    fu.base.toNat + fu.buf.length ≤ fu.image.length := by
  have hl := congrArg List.length h.contents
  have hp := List.length_pos_iff.2 hne
  rw [List.length_take, List.length_drop] at hl
  omega

theorem fuUnread_length {cfg : Config} {fu : FetchUnit} (h : WindowInv cfg fu) :
    (fuUnread fu).length = fu.base.toNat + fu.buf.length - fu.pc.toNat := by
  have := h.inside
  rw [fuUnread, if_pos h.inside.1, List.length_drop]
  omega

/-- A supply put after a stretch of the image that ends where it starts. -/
theorem take_append_supply (l : List Byte) (p t k : Nat) :
    (l.drop p).take t ++ (l.drop (p + t)).take k = (l.drop p).take (t + k) := by
  rw [List.take_add, List.drop_drop]

theorem fuRefill_inv {cfg : Config} {fu : FetchUnit} (h : WindowInv cfg fu) : WindowInv cfg (fuRefill cfg fu) := by
  have hlen := fuUnread_length h
  have hun := fuUnread_eq h
  rw [← hlen] at hun
  have hfit := h.fits
  have hin := h.inside
  have hd := fuDelivered_le fu (fu.pc.toNat + (fuUnread fu).length) (cfg.windowSize - (fuUnread fu).length)
  have hbuf : (fuRefill cfg fu).buf = (fu.image.drop fu.pc.toNat).take
      ((fuUnread fu).length + fuDelivered fu (fu.pc.toNat + (fuUnread fu).length) (cfg.windowSize - (fuUnread fu).length)) := by
    have := take_append_supply fu.image fu.pc.toNat (fuUnread fu).length
      (fuDelivered fu (fu.pc.toNat + (fuUnread fu).length) (cfg.windowSize - (fuUnread fu).length))
    rw [← this, ← hun]; rfl
  have hbl : (fuRefill cfg fu).buf.length =
      (fuUnread fu).length + fuDelivered fu (fu.pc.toNat + (fuUnread fu).length) (cfg.windowSize - (fuUnread fu).length) := by
    simp only [fuRefill, fuSupply_bytes, List.length_append, List.length_take, List.length_drop]
    omega
  refine ⟨?_, ⟨Nat.le_refl _, Nat.le_add_right _ _⟩, ?_⟩
  · rw [hbl]; omega
  · rw [hbl]; exact hbuf

theorem fuEnsure_inv {cfg : Config} {n : Nat} {fu : FetchUnit} (h : WindowInv cfg fu) : WindowInv cfg (fuEnsure cfg n fu) := by
  unfold fuEnsure; split
  · exact fuRefill_inv h
  · exact h

/-- A streaming fetch keeps the window invariant and reads the image at `pc`. -/
theorem fuFetch_streaming {cfg : Config} {n : Nat} {fu fu' : FetchUnit} {bs : List Byte}
    (hm : cfg.fetchMode = .streaming) (hi : WindowInv cfg fu) (hL : fu.image.length < 2 ^ 32)
    (h : fuFetch cfg n fu = some (bs, fu')) :
    WindowInv cfg fu' ∧ bs = (fu.image.drop fu.pc.toNat).take n ∧ (fu'.pc.toNat = fu.pc.toNat + n) := by
  have hi2 : WindowInv cfg (fuEnsure cfg n fu) := fuEnsure_inv hi
  have hun := fuUnread_eq hi2
  have hul := fuUnread_length hi2
  have hwi := window_in_image hi2
  have hin := hi2.inside
  simp only [fuFetch, hm] at h
  split at h
  · rename_i hl
    rw [List.length_take] at hl
    cases h
    simp only [fuEnsure_pc, fuEnsure_image] at hun hul hwi hin
    have hpc : (fu.pc + BitVec.ofNat 32 n).toNat = fu.pc.toNat + n := by
      rw [BitVec.toNat_add, BitVec.toNat_ofNat]
      rcases Nat.eq_zero_or_pos n with h0 | h0
      · subst h0; have := fu.pc.isLt; simp; omega
      · have hb : (fuEnsure cfg n fu).buf ≠ [] := by
          intro hb; rw [hb] at hul; simp only [List.length_nil] at hul; omega
        have := hwi hb
        rw [Nat.mod_eq_of_lt (a := n) (by omega), Nat.mod_eq_of_lt (by omega)]
    refine ⟨⟨hi2.fits, ⟨?_, ?_⟩, hi2.contents⟩, ?_, by simpa using hpc⟩
    · simp only [fuEnsure_pc, hpc]; omega
    · simp only [fuEnsure_pc, hpc]; omega
    · rw [hun, List.take_take, Nat.min_eq_left (by omega)]
  · cases h

/-- `jump_to` keeps the window invariant (R67). -/
theorem fuJump_inv {cfg : Config} {t : Pos} {fu : FetchUnit} (hm : cfg.fetchMode = .streaming)
    (hi : WindowInv cfg fu) : WindowInv cfg (fuJump cfg t fu) := by
  simp only [fuJump, hm]
  split
  · rename_i h
    exact ⟨hi.fits, ⟨h.1, Nat.le_of_lt h.2⟩, hi.contents⟩
  · have hd := fuDelivered_le fu t.toNat cfg.windowSize
    have hl : ((fu.image.drop t.toNat).take (fuDelivered fu t.toNat cfg.windowSize)).length =
        fuDelivered fu t.toNat cfg.windowSize := by
      rw [List.length_take, List.length_drop]; omega
    refine ⟨?_, ⟨Nat.le_refl _, Nat.le_add_right _ _⟩, ?_⟩
    · simp only [fuSupply_bytes, hl]; exact hd.1
    · simp only [fuSupply_bytes, fuSupply_image, hl]

/-- A streaming fetch, from the unit that `ensure_available` leaves (R66). -/
theorem fuFetch_of_ensure {cfg : Config} {fu fu' : FetchUnit} {n : Nat} (hm : cfg.fetchMode = .streaming)
    (he : fuEnsure cfg n fu = fu') :
    fuFetch cfg n fu = if ((fuUnread fu').take n).length = n then
      some ((fuUnread fu').take n, { fu' with pc := fu'.pc + BitVec.ofNat 32 n }) else none := by
  subst he
  simp only [fuFetch, hm]

/-- A resident fetch (R64). -/
theorem fuFetch_resident {cfg : Config} {n : Nat} {fu : FetchUnit} (hm : cfg.fetchMode = .resident) :
    fuFetch cfg n fu = if fu.pc.toNat + n ≤ fu.image.length then
      some ((fu.image.drop fu.pc.toNat).take n, { fu with pc := fu.pc + BitVec.ofNat 32 n }) else none := by
  simp only [fuFetch, hm]

/-- A fetch that succeeds, in either mode and whatever the supplier delivers, reads the image at `pc` (R63, R64, R66). -/
theorem fuFetch_reads {cfg : Config} {n : Nat} {fu fu' : FetchUnit} {bs : List Byte}
    (hw : cfg.fetchMode = .streaming → WindowInv cfg fu) (hL : fu.image.length < 2 ^ 32)
    (h : fuFetch cfg n fu = some (bs, fu')) :
    bs = (fu.image.drop fu.pc.toNat).take n ∧ fu'.pc.toNat = fu.pc.toNat + n ∧
      (cfg.fetchMode = .streaming → WindowInv cfg fu') := by
  cases hm : cfg.fetchMode with
  | streaming =>
    have := fuFetch_streaming hm (hw hm) hL h
    exact ⟨this.2.1, this.2.2, fun _ => this.1⟩
  | resident =>
    rw [fuFetch_resident hm] at h
    split at h
    · cases h
      refine ⟨rfl, ?_, fun h => by cases h⟩
      simp only [BitVec.toNat_add, BitVec.toNat_ofNat]
      omega
    · cases h

end Sys2Proof.Machine
end

