-- ==== Sys2Proof/Laws/State.lean ====
section
/-! SUPPORT. One lemma per field of the state per named update, so that no proof unfolds a record update. -/

namespace Sys2Proof.Machine

variable (s : State)

/-! setReg -/

@[simp] theorem setReg_cfg (r : Fin 6) (v : Word) : (s.setReg r v).cfg = s.cfg := rfl
@[simp] theorem setReg_regs (r : Fin 6) (v : Word) : (s.setReg r v).regs = s.regs.set r (truncN s.cfg v.toNat) := rfl
@[simp] theorem setReg_written (r : Fin 6) (v : Word) : (s.setReg r v).written = s.written.set r true := rfl
@[simp] theorem setReg_unwrittenReads (r : Fin 6) (v : Word) : (s.setReg r v).unwrittenReads = s.unwrittenReads := rfl
@[simp] theorem setReg_fu (r : Fin 6) (v : Word) : (s.setReg r v).fu = s.fu := rfl
@[simp] theorem setReg_opAddr (r : Fin 6) (v : Word) : (s.setReg r v).opAddr = s.opAddr := rfl
@[simp] theorem setReg_stack (r : Fin 6) (v : Word) : (s.setReg r v).stack = s.stack := rfl
@[simp] theorem setReg_sp (r : Fin 6) (v : Word) : (s.setReg r v).sp = s.sp := rfl
@[simp] theorem setReg_frames (r : Fin 6) (v : Word) : (s.setReg r v).frames = s.frames := rfl
@[simp] theorem setReg_si (r : Fin 6) (v : Word) : (s.setReg r v).si = s.si := rfl
@[simp] theorem setReg_running (r : Fin 6) (v : Word) : (s.setReg r v).running = s.running := rfl
@[simp] theorem setReg_ready (r : Fin 6) (v : Word) : (s.setReg r v).ready = s.ready := rfl
@[simp] theorem setReg_initDone (r : Fin 6) (v : Word) : (s.setReg r v).initDone = s.initDone := rfl
@[simp] theorem setReg_nameTable (r : Fin 6) (v : Word) : (s.setReg r v).nameTable = s.nameTable := rfl
@[simp] theorem setReg_importCount (r : Fin 6) (v : Word) : (s.setReg r v).importCount = s.importCount := rfl
@[simp] theorem setReg_table (r : Fin 6) (v : Word) : (s.setReg r v).table = s.table := rfl
@[simp] theorem setReg_faults (r : Fin 6) (v : Word) : (s.setReg r v).faults = s.faults := rfl
@[simp] theorem setReg_sinkLog (r : Fin 6) (v : Word) : (s.setReg r v).sinkLog = s.sinkLog := rfl
@[simp] theorem setReg_invocations (r : Fin 6) (v : Word) : (s.setReg r v).invocations = s.invocations := rfl
@[simp] theorem setReg_result (r : Fin 6) (v : Word) : (s.setReg r v).result = s.result := rfl
@[simp] theorem setReg_commands (r : Fin 6) (v : Word) : (s.setReg r v).commands = s.commands := rfl
@[simp] theorem setReg_callbackQueue (r : Fin 6) (v : Word) : (s.setReg r v).callbackQueue = s.callbackQueue := rfl
@[simp] theorem setReg_draws (r : Fin 6) (v : Word) : (s.setReg r v).draws = s.draws := rfl
@[simp] theorem setReg_undefinedResults (r : Fin 6) (v : Word) : (s.setReg r v).undefinedResults = s.undefinedResults := rfl
@[simp] theorem setReg_portReads (r : Fin 6) (v : Word) : (s.setReg r v).portReads = s.portReads := rfl

/-! noteReads -/

@[simp] theorem noteReads_cfg (rs : List (Fin 6)) : (s.noteReads rs).cfg = s.cfg := rfl
@[simp] theorem noteReads_regs (rs : List (Fin 6)) : (s.noteReads rs).regs = s.regs := rfl
@[simp] theorem noteReads_written (rs : List (Fin 6)) : (s.noteReads rs).written = s.written := rfl
@[simp] theorem noteReads_unwrittenReads (rs : List (Fin 6)) : (s.noteReads rs).unwrittenReads = s.unwrittenReads ++ rs.filter fun r => !s.written[r] := rfl
@[simp] theorem noteReads_fu (rs : List (Fin 6)) : (s.noteReads rs).fu = s.fu := rfl
@[simp] theorem noteReads_opAddr (rs : List (Fin 6)) : (s.noteReads rs).opAddr = s.opAddr := rfl
@[simp] theorem noteReads_stack (rs : List (Fin 6)) : (s.noteReads rs).stack = s.stack := rfl
@[simp] theorem noteReads_sp (rs : List (Fin 6)) : (s.noteReads rs).sp = s.sp := rfl
@[simp] theorem noteReads_frames (rs : List (Fin 6)) : (s.noteReads rs).frames = s.frames := rfl
@[simp] theorem noteReads_si (rs : List (Fin 6)) : (s.noteReads rs).si = s.si := rfl
@[simp] theorem noteReads_running (rs : List (Fin 6)) : (s.noteReads rs).running = s.running := rfl
@[simp] theorem noteReads_ready (rs : List (Fin 6)) : (s.noteReads rs).ready = s.ready := rfl
@[simp] theorem noteReads_initDone (rs : List (Fin 6)) : (s.noteReads rs).initDone = s.initDone := rfl
@[simp] theorem noteReads_nameTable (rs : List (Fin 6)) : (s.noteReads rs).nameTable = s.nameTable := rfl
@[simp] theorem noteReads_importCount (rs : List (Fin 6)) : (s.noteReads rs).importCount = s.importCount := rfl
@[simp] theorem noteReads_table (rs : List (Fin 6)) : (s.noteReads rs).table = s.table := rfl
@[simp] theorem noteReads_faults (rs : List (Fin 6)) : (s.noteReads rs).faults = s.faults := rfl
@[simp] theorem noteReads_sinkLog (rs : List (Fin 6)) : (s.noteReads rs).sinkLog = s.sinkLog := rfl
@[simp] theorem noteReads_invocations (rs : List (Fin 6)) : (s.noteReads rs).invocations = s.invocations := rfl
@[simp] theorem noteReads_result (rs : List (Fin 6)) : (s.noteReads rs).result = s.result := rfl
@[simp] theorem noteReads_commands (rs : List (Fin 6)) : (s.noteReads rs).commands = s.commands := rfl
@[simp] theorem noteReads_callbackQueue (rs : List (Fin 6)) : (s.noteReads rs).callbackQueue = s.callbackQueue := rfl
@[simp] theorem noteReads_draws (rs : List (Fin 6)) : (s.noteReads rs).draws = s.draws := rfl
@[simp] theorem noteReads_undefinedResults (rs : List (Fin 6)) : (s.noteReads rs).undefinedResults = s.undefinedResults := rfl
@[simp] theorem noteReads_portReads (rs : List (Fin 6)) : (s.noteReads rs).portReads = s.portReads := rfl

/-! writeStack -/

@[simp] theorem writeStack_cfg (a : Nat) (bs : List Byte) : (s.writeStack a bs).cfg = s.cfg := rfl
@[simp] theorem writeStack_regs (a : Nat) (bs : List Byte) : (s.writeStack a bs).regs = s.regs := rfl
@[simp] theorem writeStack_written (a : Nat) (bs : List Byte) : (s.writeStack a bs).written = s.written := rfl
@[simp] theorem writeStack_unwrittenReads (a : Nat) (bs : List Byte) : (s.writeStack a bs).unwrittenReads = s.unwrittenReads := rfl
@[simp] theorem writeStack_fu (a : Nat) (bs : List Byte) : (s.writeStack a bs).fu = s.fu := rfl
@[simp] theorem writeStack_opAddr (a : Nat) (bs : List Byte) : (s.writeStack a bs).opAddr = s.opAddr := rfl
@[simp] theorem writeStack_stack (a : Nat) (bs : List Byte) : (s.writeStack a bs).stack = memWriteBytes s.stack a bs := rfl
@[simp] theorem writeStack_sp (a : Nat) (bs : List Byte) : (s.writeStack a bs).sp = s.sp := rfl
@[simp] theorem writeStack_frames (a : Nat) (bs : List Byte) : (s.writeStack a bs).frames = s.frames := rfl
@[simp] theorem writeStack_si (a : Nat) (bs : List Byte) : (s.writeStack a bs).si = s.si := rfl
@[simp] theorem writeStack_running (a : Nat) (bs : List Byte) : (s.writeStack a bs).running = s.running := rfl
@[simp] theorem writeStack_ready (a : Nat) (bs : List Byte) : (s.writeStack a bs).ready = s.ready := rfl
@[simp] theorem writeStack_initDone (a : Nat) (bs : List Byte) : (s.writeStack a bs).initDone = s.initDone := rfl
@[simp] theorem writeStack_nameTable (a : Nat) (bs : List Byte) : (s.writeStack a bs).nameTable = s.nameTable := rfl
@[simp] theorem writeStack_importCount (a : Nat) (bs : List Byte) : (s.writeStack a bs).importCount = s.importCount := rfl
@[simp] theorem writeStack_table (a : Nat) (bs : List Byte) : (s.writeStack a bs).table = s.table := rfl
@[simp] theorem writeStack_faults (a : Nat) (bs : List Byte) : (s.writeStack a bs).faults = s.faults := rfl
@[simp] theorem writeStack_sinkLog (a : Nat) (bs : List Byte) : (s.writeStack a bs).sinkLog = s.sinkLog := rfl
@[simp] theorem writeStack_invocations (a : Nat) (bs : List Byte) : (s.writeStack a bs).invocations = s.invocations := rfl
@[simp] theorem writeStack_result (a : Nat) (bs : List Byte) : (s.writeStack a bs).result = s.result := rfl
@[simp] theorem writeStack_commands (a : Nat) (bs : List Byte) : (s.writeStack a bs).commands = s.commands := rfl
@[simp] theorem writeStack_callbackQueue (a : Nat) (bs : List Byte) : (s.writeStack a bs).callbackQueue = s.callbackQueue := rfl
@[simp] theorem writeStack_draws (a : Nat) (bs : List Byte) : (s.writeStack a bs).draws = s.draws := rfl
@[simp] theorem writeStack_undefinedResults (a : Nat) (bs : List Byte) : (s.writeStack a bs).undefinedResults = s.undefinedResults := rfl
@[simp] theorem writeStack_portReads (a : Nat) (bs : List Byte) : (s.writeStack a bs).portReads = s.portReads := rfl

/-! setFrameBase -/

@[simp] theorem setFrameBase_cfg (k n : Nat) : (s.setFrameBase k n).cfg = s.cfg := rfl
@[simp] theorem setFrameBase_regs (k n : Nat) : (s.setFrameBase k n).regs = s.regs := rfl
@[simp] theorem setFrameBase_written (k n : Nat) : (s.setFrameBase k n).written = s.written := rfl
@[simp] theorem setFrameBase_unwrittenReads (k n : Nat) : (s.setFrameBase k n).unwrittenReads = s.unwrittenReads := rfl
@[simp] theorem setFrameBase_fu (k n : Nat) : (s.setFrameBase k n).fu = s.fu := rfl
@[simp] theorem setFrameBase_opAddr (k n : Nat) : (s.setFrameBase k n).opAddr = s.opAddr := rfl
@[simp] theorem setFrameBase_stack (k n : Nat) : (s.setFrameBase k n).stack = s.stack := rfl
@[simp] theorem setFrameBase_sp (k n : Nat) : (s.setFrameBase k n).sp = s.sp := rfl
@[simp] theorem setFrameBase_frames (k n : Nat) : (s.setFrameBase k n).frames = s.frames.set k { s.frame k with stackBase := n } := rfl
@[simp] theorem setFrameBase_si (k n : Nat) : (s.setFrameBase k n).si = s.si := rfl
@[simp] theorem setFrameBase_running (k n : Nat) : (s.setFrameBase k n).running = s.running := rfl
@[simp] theorem setFrameBase_ready (k n : Nat) : (s.setFrameBase k n).ready = s.ready := rfl
@[simp] theorem setFrameBase_initDone (k n : Nat) : (s.setFrameBase k n).initDone = s.initDone := rfl
@[simp] theorem setFrameBase_nameTable (k n : Nat) : (s.setFrameBase k n).nameTable = s.nameTable := rfl
@[simp] theorem setFrameBase_importCount (k n : Nat) : (s.setFrameBase k n).importCount = s.importCount := rfl
@[simp] theorem setFrameBase_table (k n : Nat) : (s.setFrameBase k n).table = s.table := rfl
@[simp] theorem setFrameBase_faults (k n : Nat) : (s.setFrameBase k n).faults = s.faults := rfl
@[simp] theorem setFrameBase_sinkLog (k n : Nat) : (s.setFrameBase k n).sinkLog = s.sinkLog := rfl
@[simp] theorem setFrameBase_invocations (k n : Nat) : (s.setFrameBase k n).invocations = s.invocations := rfl
@[simp] theorem setFrameBase_result (k n : Nat) : (s.setFrameBase k n).result = s.result := rfl
@[simp] theorem setFrameBase_commands (k n : Nat) : (s.setFrameBase k n).commands = s.commands := rfl
@[simp] theorem setFrameBase_callbackQueue (k n : Nat) : (s.setFrameBase k n).callbackQueue = s.callbackQueue := rfl
@[simp] theorem setFrameBase_draws (k n : Nat) : (s.setFrameBase k n).draws = s.draws := rfl
@[simp] theorem setFrameBase_undefinedResults (k n : Nat) : (s.setFrameBase k n).undefinedResults = s.undefinedResults := rfl
@[simp] theorem setFrameBase_portReads (k n : Nat) : (s.setFrameBase k n).portReads = s.portReads := rfl

/-! setFrameRet -/

@[simp] theorem setFrameRet_cfg (k : Nat) (t : Pos) : (s.setFrameRet k t).cfg = s.cfg := rfl
@[simp] theorem setFrameRet_regs (k : Nat) (t : Pos) : (s.setFrameRet k t).regs = s.regs := rfl
@[simp] theorem setFrameRet_written (k : Nat) (t : Pos) : (s.setFrameRet k t).written = s.written := rfl
@[simp] theorem setFrameRet_unwrittenReads (k : Nat) (t : Pos) : (s.setFrameRet k t).unwrittenReads = s.unwrittenReads := rfl
@[simp] theorem setFrameRet_fu (k : Nat) (t : Pos) : (s.setFrameRet k t).fu = s.fu := rfl
@[simp] theorem setFrameRet_opAddr (k : Nat) (t : Pos) : (s.setFrameRet k t).opAddr = s.opAddr := rfl
@[simp] theorem setFrameRet_stack (k : Nat) (t : Pos) : (s.setFrameRet k t).stack = s.stack := rfl
@[simp] theorem setFrameRet_sp (k : Nat) (t : Pos) : (s.setFrameRet k t).sp = s.sp := rfl
@[simp] theorem setFrameRet_frames (k : Nat) (t : Pos) : (s.setFrameRet k t).frames = s.frames.set k { s.frame k with ret := t } := rfl
@[simp] theorem setFrameRet_si (k : Nat) (t : Pos) : (s.setFrameRet k t).si = s.si := rfl
@[simp] theorem setFrameRet_running (k : Nat) (t : Pos) : (s.setFrameRet k t).running = s.running := rfl
@[simp] theorem setFrameRet_ready (k : Nat) (t : Pos) : (s.setFrameRet k t).ready = s.ready := rfl
@[simp] theorem setFrameRet_initDone (k : Nat) (t : Pos) : (s.setFrameRet k t).initDone = s.initDone := rfl
@[simp] theorem setFrameRet_nameTable (k : Nat) (t : Pos) : (s.setFrameRet k t).nameTable = s.nameTable := rfl
@[simp] theorem setFrameRet_importCount (k : Nat) (t : Pos) : (s.setFrameRet k t).importCount = s.importCount := rfl
@[simp] theorem setFrameRet_table (k : Nat) (t : Pos) : (s.setFrameRet k t).table = s.table := rfl
@[simp] theorem setFrameRet_faults (k : Nat) (t : Pos) : (s.setFrameRet k t).faults = s.faults := rfl
@[simp] theorem setFrameRet_sinkLog (k : Nat) (t : Pos) : (s.setFrameRet k t).sinkLog = s.sinkLog := rfl
@[simp] theorem setFrameRet_invocations (k : Nat) (t : Pos) : (s.setFrameRet k t).invocations = s.invocations := rfl
@[simp] theorem setFrameRet_result (k : Nat) (t : Pos) : (s.setFrameRet k t).result = s.result := rfl
@[simp] theorem setFrameRet_commands (k : Nat) (t : Pos) : (s.setFrameRet k t).commands = s.commands := rfl
@[simp] theorem setFrameRet_callbackQueue (k : Nat) (t : Pos) : (s.setFrameRet k t).callbackQueue = s.callbackQueue := rfl
@[simp] theorem setFrameRet_draws (k : Nat) (t : Pos) : (s.setFrameRet k t).draws = s.draws := rfl
@[simp] theorem setFrameRet_undefinedResults (k : Nat) (t : Pos) : (s.setFrameRet k t).undefinedResults = s.undefinedResults := rfl
@[simp] theorem setFrameRet_portReads (k : Nat) (t : Pos) : (s.setFrameRet k t).portReads = s.portReads := rfl

/-! setSp -/

@[simp] theorem setSp_cfg (n : Nat) : (s.setSp n).cfg = s.cfg := rfl
@[simp] theorem setSp_regs (n : Nat) : (s.setSp n).regs = s.regs := rfl
@[simp] theorem setSp_written (n : Nat) : (s.setSp n).written = s.written := rfl
@[simp] theorem setSp_unwrittenReads (n : Nat) : (s.setSp n).unwrittenReads = s.unwrittenReads := rfl
@[simp] theorem setSp_fu (n : Nat) : (s.setSp n).fu = s.fu := rfl
@[simp] theorem setSp_opAddr (n : Nat) : (s.setSp n).opAddr = s.opAddr := rfl
@[simp] theorem setSp_stack (n : Nat) : (s.setSp n).stack = s.stack := rfl
@[simp] theorem setSp_sp (n : Nat) : (s.setSp n).sp = n := rfl
@[simp] theorem setSp_frames (n : Nat) : (s.setSp n).frames = s.frames := rfl
@[simp] theorem setSp_si (n : Nat) : (s.setSp n).si = s.si := rfl
@[simp] theorem setSp_running (n : Nat) : (s.setSp n).running = s.running := rfl
@[simp] theorem setSp_ready (n : Nat) : (s.setSp n).ready = s.ready := rfl
@[simp] theorem setSp_initDone (n : Nat) : (s.setSp n).initDone = s.initDone := rfl
@[simp] theorem setSp_nameTable (n : Nat) : (s.setSp n).nameTable = s.nameTable := rfl
@[simp] theorem setSp_importCount (n : Nat) : (s.setSp n).importCount = s.importCount := rfl
@[simp] theorem setSp_table (n : Nat) : (s.setSp n).table = s.table := rfl
@[simp] theorem setSp_faults (n : Nat) : (s.setSp n).faults = s.faults := rfl
@[simp] theorem setSp_sinkLog (n : Nat) : (s.setSp n).sinkLog = s.sinkLog := rfl
@[simp] theorem setSp_invocations (n : Nat) : (s.setSp n).invocations = s.invocations := rfl
@[simp] theorem setSp_result (n : Nat) : (s.setSp n).result = s.result := rfl
@[simp] theorem setSp_commands (n : Nat) : (s.setSp n).commands = s.commands := rfl
@[simp] theorem setSp_callbackQueue (n : Nat) : (s.setSp n).callbackQueue = s.callbackQueue := rfl
@[simp] theorem setSp_draws (n : Nat) : (s.setSp n).draws = s.draws := rfl
@[simp] theorem setSp_undefinedResults (n : Nat) : (s.setSp n).undefinedResults = s.undefinedResults := rfl
@[simp] theorem setSp_portReads (n : Nat) : (s.setSp n).portReads = s.portReads := rfl

/-! setSi -/

@[simp] theorem setSi_cfg (n : Nat) : (s.setSi n).cfg = s.cfg := rfl
@[simp] theorem setSi_regs (n : Nat) : (s.setSi n).regs = s.regs := rfl
@[simp] theorem setSi_written (n : Nat) : (s.setSi n).written = s.written := rfl
@[simp] theorem setSi_unwrittenReads (n : Nat) : (s.setSi n).unwrittenReads = s.unwrittenReads := rfl
@[simp] theorem setSi_fu (n : Nat) : (s.setSi n).fu = s.fu := rfl
@[simp] theorem setSi_opAddr (n : Nat) : (s.setSi n).opAddr = s.opAddr := rfl
@[simp] theorem setSi_stack (n : Nat) : (s.setSi n).stack = s.stack := rfl
@[simp] theorem setSi_sp (n : Nat) : (s.setSi n).sp = s.sp := rfl
@[simp] theorem setSi_frames (n : Nat) : (s.setSi n).frames = s.frames := rfl
@[simp] theorem setSi_si (n : Nat) : (s.setSi n).si = n := rfl
@[simp] theorem setSi_running (n : Nat) : (s.setSi n).running = s.running := rfl
@[simp] theorem setSi_ready (n : Nat) : (s.setSi n).ready = s.ready := rfl
@[simp] theorem setSi_initDone (n : Nat) : (s.setSi n).initDone = s.initDone := rfl
@[simp] theorem setSi_nameTable (n : Nat) : (s.setSi n).nameTable = s.nameTable := rfl
@[simp] theorem setSi_importCount (n : Nat) : (s.setSi n).importCount = s.importCount := rfl
@[simp] theorem setSi_table (n : Nat) : (s.setSi n).table = s.table := rfl
@[simp] theorem setSi_faults (n : Nat) : (s.setSi n).faults = s.faults := rfl
@[simp] theorem setSi_sinkLog (n : Nat) : (s.setSi n).sinkLog = s.sinkLog := rfl
@[simp] theorem setSi_invocations (n : Nat) : (s.setSi n).invocations = s.invocations := rfl
@[simp] theorem setSi_result (n : Nat) : (s.setSi n).result = s.result := rfl
@[simp] theorem setSi_commands (n : Nat) : (s.setSi n).commands = s.commands := rfl
@[simp] theorem setSi_callbackQueue (n : Nat) : (s.setSi n).callbackQueue = s.callbackQueue := rfl
@[simp] theorem setSi_draws (n : Nat) : (s.setSi n).draws = s.draws := rfl
@[simp] theorem setSi_undefinedResults (n : Nat) : (s.setSi n).undefinedResults = s.undefinedResults := rfl
@[simp] theorem setSi_portReads (n : Nat) : (s.setSi n).portReads = s.portReads := rfl

/-! setRunning -/

@[simp] theorem setRunning_cfg (b : Bool) : (s.setRunning b).cfg = s.cfg := rfl
@[simp] theorem setRunning_regs (b : Bool) : (s.setRunning b).regs = s.regs := rfl
@[simp] theorem setRunning_written (b : Bool) : (s.setRunning b).written = s.written := rfl
@[simp] theorem setRunning_unwrittenReads (b : Bool) : (s.setRunning b).unwrittenReads = s.unwrittenReads := rfl
@[simp] theorem setRunning_fu (b : Bool) : (s.setRunning b).fu = s.fu := rfl
@[simp] theorem setRunning_opAddr (b : Bool) : (s.setRunning b).opAddr = s.opAddr := rfl
@[simp] theorem setRunning_stack (b : Bool) : (s.setRunning b).stack = s.stack := rfl
@[simp] theorem setRunning_sp (b : Bool) : (s.setRunning b).sp = s.sp := rfl
@[simp] theorem setRunning_frames (b : Bool) : (s.setRunning b).frames = s.frames := rfl
@[simp] theorem setRunning_si (b : Bool) : (s.setRunning b).si = s.si := rfl
@[simp] theorem setRunning_running (b : Bool) : (s.setRunning b).running = b := rfl
@[simp] theorem setRunning_ready (b : Bool) : (s.setRunning b).ready = s.ready := rfl
@[simp] theorem setRunning_initDone (b : Bool) : (s.setRunning b).initDone = s.initDone := rfl
@[simp] theorem setRunning_nameTable (b : Bool) : (s.setRunning b).nameTable = s.nameTable := rfl
@[simp] theorem setRunning_importCount (b : Bool) : (s.setRunning b).importCount = s.importCount := rfl
@[simp] theorem setRunning_table (b : Bool) : (s.setRunning b).table = s.table := rfl
@[simp] theorem setRunning_faults (b : Bool) : (s.setRunning b).faults = s.faults := rfl
@[simp] theorem setRunning_sinkLog (b : Bool) : (s.setRunning b).sinkLog = s.sinkLog := rfl
@[simp] theorem setRunning_invocations (b : Bool) : (s.setRunning b).invocations = s.invocations := rfl
@[simp] theorem setRunning_result (b : Bool) : (s.setRunning b).result = s.result := rfl
@[simp] theorem setRunning_commands (b : Bool) : (s.setRunning b).commands = s.commands := rfl
@[simp] theorem setRunning_callbackQueue (b : Bool) : (s.setRunning b).callbackQueue = s.callbackQueue := rfl
@[simp] theorem setRunning_draws (b : Bool) : (s.setRunning b).draws = s.draws := rfl
@[simp] theorem setRunning_undefinedResults (b : Bool) : (s.setRunning b).undefinedResults = s.undefinedResults := rfl
@[simp] theorem setRunning_portReads (b : Bool) : (s.setRunning b).portReads = s.portReads := rfl

/-! answer -/

@[simp] theorem answer_cfg (r : HostResult) : (s.answer r).cfg = s.cfg := rfl
@[simp] theorem answer_regs (r : HostResult) : (s.answer r).regs = s.regs := rfl
@[simp] theorem answer_written (r : HostResult) : (s.answer r).written = s.written := rfl
@[simp] theorem answer_unwrittenReads (r : HostResult) : (s.answer r).unwrittenReads = s.unwrittenReads := rfl
@[simp] theorem answer_fu (r : HostResult) : (s.answer r).fu = s.fu := rfl
@[simp] theorem answer_opAddr (r : HostResult) : (s.answer r).opAddr = s.opAddr := rfl
@[simp] theorem answer_stack (r : HostResult) : (s.answer r).stack = s.stack := rfl
@[simp] theorem answer_sp (r : HostResult) : (s.answer r).sp = s.sp := rfl
@[simp] theorem answer_frames (r : HostResult) : (s.answer r).frames = s.frames := rfl
@[simp] theorem answer_si (r : HostResult) : (s.answer r).si = s.si := rfl
@[simp] theorem answer_running (r : HostResult) : (s.answer r).running = s.running := rfl
@[simp] theorem answer_ready (r : HostResult) : (s.answer r).ready = s.ready := rfl
@[simp] theorem answer_initDone (r : HostResult) : (s.answer r).initDone = s.initDone := rfl
@[simp] theorem answer_nameTable (r : HostResult) : (s.answer r).nameTable = s.nameTable := rfl
@[simp] theorem answer_importCount (r : HostResult) : (s.answer r).importCount = s.importCount := rfl
@[simp] theorem answer_table (r : HostResult) : (s.answer r).table = s.table := rfl
@[simp] theorem answer_faults (r : HostResult) : (s.answer r).faults = s.faults := rfl
@[simp] theorem answer_sinkLog (r : HostResult) : (s.answer r).sinkLog = s.sinkLog := rfl
@[simp] theorem answer_invocations (r : HostResult) : (s.answer r).invocations = s.invocations := rfl
@[simp] theorem answer_result (r : HostResult) : (s.answer r).result = some r := rfl
@[simp] theorem answer_commands (r : HostResult) : (s.answer r).commands = s.commands := rfl
@[simp] theorem answer_callbackQueue (r : HostResult) : (s.answer r).callbackQueue = s.callbackQueue := rfl
@[simp] theorem answer_draws (r : HostResult) : (s.answer r).draws = s.draws := rfl
@[simp] theorem answer_undefinedResults (r : HostResult) : (s.answer r).undefinedResults = s.undefinedResults := rfl
@[simp] theorem answer_portReads (r : HostResult) : (s.answer r).portReads = s.portReads := rfl

/-! jumpTo -/

@[simp] theorem jumpTo_cfg (t : Pos) : (s.jumpTo t).cfg = s.cfg := rfl
@[simp] theorem jumpTo_regs (t : Pos) : (s.jumpTo t).regs = s.regs := rfl
@[simp] theorem jumpTo_written (t : Pos) : (s.jumpTo t).written = s.written := rfl
@[simp] theorem jumpTo_unwrittenReads (t : Pos) : (s.jumpTo t).unwrittenReads = s.unwrittenReads := rfl
@[simp] theorem jumpTo_fu (t : Pos) : (s.jumpTo t).fu = fuJump s.cfg t s.fu := rfl
@[simp] theorem jumpTo_opAddr (t : Pos) : (s.jumpTo t).opAddr = s.opAddr := rfl
@[simp] theorem jumpTo_stack (t : Pos) : (s.jumpTo t).stack = s.stack := rfl
@[simp] theorem jumpTo_sp (t : Pos) : (s.jumpTo t).sp = s.sp := rfl
@[simp] theorem jumpTo_frames (t : Pos) : (s.jumpTo t).frames = s.frames := rfl
@[simp] theorem jumpTo_si (t : Pos) : (s.jumpTo t).si = s.si := rfl
@[simp] theorem jumpTo_running (t : Pos) : (s.jumpTo t).running = s.running := rfl
@[simp] theorem jumpTo_ready (t : Pos) : (s.jumpTo t).ready = s.ready := rfl
@[simp] theorem jumpTo_initDone (t : Pos) : (s.jumpTo t).initDone = s.initDone := rfl
@[simp] theorem jumpTo_nameTable (t : Pos) : (s.jumpTo t).nameTable = s.nameTable := rfl
@[simp] theorem jumpTo_importCount (t : Pos) : (s.jumpTo t).importCount = s.importCount := rfl
@[simp] theorem jumpTo_table (t : Pos) : (s.jumpTo t).table = s.table := rfl
@[simp] theorem jumpTo_faults (t : Pos) : (s.jumpTo t).faults = s.faults := rfl
@[simp] theorem jumpTo_sinkLog (t : Pos) : (s.jumpTo t).sinkLog = s.sinkLog := rfl
@[simp] theorem jumpTo_invocations (t : Pos) : (s.jumpTo t).invocations = s.invocations := rfl
@[simp] theorem jumpTo_result (t : Pos) : (s.jumpTo t).result = s.result := rfl
@[simp] theorem jumpTo_commands (t : Pos) : (s.jumpTo t).commands = s.commands := rfl
@[simp] theorem jumpTo_callbackQueue (t : Pos) : (s.jumpTo t).callbackQueue = s.callbackQueue := rfl
@[simp] theorem jumpTo_draws (t : Pos) : (s.jumpTo t).draws = s.draws := rfl
@[simp] theorem jumpTo_undefinedResults (t : Pos) : (s.jumpTo t).undefinedResults = s.undefinedResults := rfl
@[simp] theorem jumpTo_portReads (t : Pos) : (s.jumpTo t).portReads = s.portReads := rfl

/-! recordFault -/

@[simp] theorem recordFault_cfg (f : FaultInfo) (p : Pos) : (s.recordFault f p).cfg = s.cfg := rfl
@[simp] theorem recordFault_regs (f : FaultInfo) (p : Pos) : (s.recordFault f p).regs = s.regs := rfl
@[simp] theorem recordFault_written (f : FaultInfo) (p : Pos) : (s.recordFault f p).written = s.written := rfl
@[simp] theorem recordFault_unwrittenReads (f : FaultInfo) (p : Pos) : (s.recordFault f p).unwrittenReads = s.unwrittenReads := rfl
@[simp] theorem recordFault_fu (f : FaultInfo) (p : Pos) : (s.recordFault f p).fu = s.fu := rfl
@[simp] theorem recordFault_opAddr (f : FaultInfo) (p : Pos) : (s.recordFault f p).opAddr = s.opAddr := rfl
@[simp] theorem recordFault_stack (f : FaultInfo) (p : Pos) : (s.recordFault f p).stack = s.stack := rfl
@[simp] theorem recordFault_sp (f : FaultInfo) (p : Pos) : (s.recordFault f p).sp = s.sp := rfl
@[simp] theorem recordFault_frames (f : FaultInfo) (p : Pos) : (s.recordFault f p).frames = s.frames := rfl
@[simp] theorem recordFault_si (f : FaultInfo) (p : Pos) : (s.recordFault f p).si = s.si := rfl
@[simp] theorem recordFault_running (f : FaultInfo) (p : Pos) : (s.recordFault f p).running = false := rfl
@[simp] theorem recordFault_ready (f : FaultInfo) (p : Pos) : (s.recordFault f p).ready = s.ready := rfl
@[simp] theorem recordFault_initDone (f : FaultInfo) (p : Pos) : (s.recordFault f p).initDone = s.initDone := rfl
@[simp] theorem recordFault_nameTable (f : FaultInfo) (p : Pos) : (s.recordFault f p).nameTable = s.nameTable := rfl
@[simp] theorem recordFault_importCount (f : FaultInfo) (p : Pos) : (s.recordFault f p).importCount = s.importCount := rfl
@[simp] theorem recordFault_table (f : FaultInfo) (p : Pos) : (s.recordFault f p).table = s.table := rfl
@[simp] theorem recordFault_faults (f : FaultInfo) (p : Pos) : (s.recordFault f p).faults = ⟨f, p⟩ :: s.faults := rfl
@[simp] theorem recordFault_sinkLog (f : FaultInfo) (p : Pos) : (s.recordFault f p).sinkLog = s.sinkLog ++ (if s.cfg.sinkAttached then [⟨{ s.portView with fault := some ⟨f, p⟩ }, p, f.kind, f.message⟩] else []) := rfl
@[simp] theorem recordFault_invocations (f : FaultInfo) (p : Pos) : (s.recordFault f p).invocations = s.invocations := rfl
@[simp] theorem recordFault_result (f : FaultInfo) (p : Pos) : (s.recordFault f p).result = s.result := rfl
@[simp] theorem recordFault_commands (f : FaultInfo) (p : Pos) : (s.recordFault f p).commands = s.commands := rfl
@[simp] theorem recordFault_callbackQueue (f : FaultInfo) (p : Pos) : (s.recordFault f p).callbackQueue = s.callbackQueue := rfl
@[simp] theorem recordFault_draws (f : FaultInfo) (p : Pos) : (s.recordFault f p).draws = s.draws := rfl
@[simp] theorem recordFault_undefinedResults (f : FaultInfo) (p : Pos) : (s.recordFault f p).undefinedResults = s.undefinedResults := rfl
@[simp] theorem recordFault_portReads (f : FaultInfo) (p : Pos) : (s.recordFault f p).portReads = s.portReads := rfl

/-! recordInvocation -/

@[simp] theorem recordInvocation_cfg (index : BitVec 16) : (s.recordInvocation index).cfg = s.cfg := rfl
@[simp] theorem recordInvocation_regs (index : BitVec 16) : (s.recordInvocation index).regs = s.regs := rfl
@[simp] theorem recordInvocation_written (index : BitVec 16) : (s.recordInvocation index).written = s.written := rfl
@[simp] theorem recordInvocation_unwrittenReads (index : BitVec 16) : (s.recordInvocation index).unwrittenReads = s.unwrittenReads := rfl
@[simp] theorem recordInvocation_fu (index : BitVec 16) : (s.recordInvocation index).fu = s.fu := rfl
@[simp] theorem recordInvocation_opAddr (index : BitVec 16) : (s.recordInvocation index).opAddr = s.opAddr := rfl
@[simp] theorem recordInvocation_stack (index : BitVec 16) : (s.recordInvocation index).stack = s.stack := rfl
@[simp] theorem recordInvocation_sp (index : BitVec 16) : (s.recordInvocation index).sp = s.sp := rfl
@[simp] theorem recordInvocation_frames (index : BitVec 16) : (s.recordInvocation index).frames = s.frames := rfl
@[simp] theorem recordInvocation_si (index : BitVec 16) : (s.recordInvocation index).si = s.si := rfl
@[simp] theorem recordInvocation_running (index : BitVec 16) : (s.recordInvocation index).running = s.running := rfl
@[simp] theorem recordInvocation_ready (index : BitVec 16) : (s.recordInvocation index).ready = s.ready := rfl
@[simp] theorem recordInvocation_initDone (index : BitVec 16) : (s.recordInvocation index).initDone = s.initDone := rfl
@[simp] theorem recordInvocation_nameTable (index : BitVec 16) : (s.recordInvocation index).nameTable = s.nameTable := rfl
@[simp] theorem recordInvocation_importCount (index : BitVec 16) : (s.recordInvocation index).importCount = s.importCount := rfl
@[simp] theorem recordInvocation_table (index : BitVec 16) : (s.recordInvocation index).table = s.table := rfl
@[simp] theorem recordInvocation_faults (index : BitVec 16) : (s.recordInvocation index).faults = s.faults := rfl
@[simp] theorem recordInvocation_sinkLog (index : BitVec 16) : (s.recordInvocation index).sinkLog = s.sinkLog := rfl
@[simp] theorem recordInvocation_invocations (index : BitVec 16) : (s.recordInvocation index).invocations = s.invocations ++ [index] := rfl
@[simp] theorem recordInvocation_result (index : BitVec 16) : (s.recordInvocation index).result = s.result := rfl
@[simp] theorem recordInvocation_commands (index : BitVec 16) : (s.recordInvocation index).commands = s.commands := rfl
@[simp] theorem recordInvocation_callbackQueue (index : BitVec 16) : (s.recordInvocation index).callbackQueue = s.callbackQueue.tail := rfl
@[simp] theorem recordInvocation_draws (index : BitVec 16) : (s.recordInvocation index).draws = s.draws := rfl
@[simp] theorem recordInvocation_undefinedResults (index : BitVec 16) : (s.recordInvocation index).undefinedResults = s.undefinedResults := rfl
@[simp] theorem recordInvocation_portReads (index : BitVec 16) : (s.recordInvocation index).portReads = s.portReads := rfl

/-! noteUndefined -/

@[simp] theorem noteUndefined_cfg (reason : UndefReason) : (s.noteUndefined reason).cfg = s.cfg := rfl
@[simp] theorem noteUndefined_regs (reason : UndefReason) : (s.noteUndefined reason).regs = s.regs := rfl
@[simp] theorem noteUndefined_written (reason : UndefReason) : (s.noteUndefined reason).written = s.written := rfl
@[simp] theorem noteUndefined_unwrittenReads (reason : UndefReason) : (s.noteUndefined reason).unwrittenReads = s.unwrittenReads := rfl
@[simp] theorem noteUndefined_fu (reason : UndefReason) : (s.noteUndefined reason).fu = s.fu := rfl
@[simp] theorem noteUndefined_opAddr (reason : UndefReason) : (s.noteUndefined reason).opAddr = s.opAddr := rfl
@[simp] theorem noteUndefined_stack (reason : UndefReason) : (s.noteUndefined reason).stack = s.stack := rfl
@[simp] theorem noteUndefined_sp (reason : UndefReason) : (s.noteUndefined reason).sp = s.sp := rfl
@[simp] theorem noteUndefined_frames (reason : UndefReason) : (s.noteUndefined reason).frames = s.frames := rfl
@[simp] theorem noteUndefined_si (reason : UndefReason) : (s.noteUndefined reason).si = s.si := rfl
@[simp] theorem noteUndefined_running (reason : UndefReason) : (s.noteUndefined reason).running = s.running := rfl
@[simp] theorem noteUndefined_ready (reason : UndefReason) : (s.noteUndefined reason).ready = s.ready := rfl
@[simp] theorem noteUndefined_initDone (reason : UndefReason) : (s.noteUndefined reason).initDone = s.initDone := rfl
@[simp] theorem noteUndefined_nameTable (reason : UndefReason) : (s.noteUndefined reason).nameTable = s.nameTable := rfl
@[simp] theorem noteUndefined_importCount (reason : UndefReason) : (s.noteUndefined reason).importCount = s.importCount := rfl
@[simp] theorem noteUndefined_table (reason : UndefReason) : (s.noteUndefined reason).table = s.table := rfl
@[simp] theorem noteUndefined_faults (reason : UndefReason) : (s.noteUndefined reason).faults = s.faults := rfl
@[simp] theorem noteUndefined_sinkLog (reason : UndefReason) : (s.noteUndefined reason).sinkLog = s.sinkLog := rfl
@[simp] theorem noteUndefined_invocations (reason : UndefReason) : (s.noteUndefined reason).invocations = s.invocations := rfl
@[simp] theorem noteUndefined_result (reason : UndefReason) : (s.noteUndefined reason).result = s.result := rfl
@[simp] theorem noteUndefined_commands (reason : UndefReason) : (s.noteUndefined reason).commands = s.commands := rfl
@[simp] theorem noteUndefined_callbackQueue (reason : UndefReason) : (s.noteUndefined reason).callbackQueue = s.callbackQueue := rfl
@[simp] theorem noteUndefined_draws (reason : UndefReason) : (s.noteUndefined reason).draws = s.draws + 1 := rfl
@[simp] theorem noteUndefined_undefinedResults (reason : UndefReason) : (s.noteUndefined reason).undefinedResults = s.undefinedResults ++ [reason] := rfl
@[simp] theorem noteUndefined_portReads (reason : UndefReason) : (s.noteUndefined reason).portReads = s.portReads := rfl

/-! recordRead -/

@[simp] theorem recordRead_cfg (q : PortRead) (v : PortValue) : (s.recordRead q v).cfg = s.cfg := rfl
@[simp] theorem recordRead_regs (q : PortRead) (v : PortValue) : (s.recordRead q v).regs = s.regs := rfl
@[simp] theorem recordRead_written (q : PortRead) (v : PortValue) : (s.recordRead q v).written = s.written := rfl
@[simp] theorem recordRead_unwrittenReads (q : PortRead) (v : PortValue) : (s.recordRead q v).unwrittenReads = s.unwrittenReads := rfl
@[simp] theorem recordRead_fu (q : PortRead) (v : PortValue) : (s.recordRead q v).fu = s.fu := rfl
@[simp] theorem recordRead_opAddr (q : PortRead) (v : PortValue) : (s.recordRead q v).opAddr = s.opAddr := rfl
@[simp] theorem recordRead_stack (q : PortRead) (v : PortValue) : (s.recordRead q v).stack = s.stack := rfl
@[simp] theorem recordRead_sp (q : PortRead) (v : PortValue) : (s.recordRead q v).sp = s.sp := rfl
@[simp] theorem recordRead_frames (q : PortRead) (v : PortValue) : (s.recordRead q v).frames = s.frames := rfl
@[simp] theorem recordRead_si (q : PortRead) (v : PortValue) : (s.recordRead q v).si = s.si := rfl
@[simp] theorem recordRead_running (q : PortRead) (v : PortValue) : (s.recordRead q v).running = s.running := rfl
@[simp] theorem recordRead_ready (q : PortRead) (v : PortValue) : (s.recordRead q v).ready = s.ready := rfl
@[simp] theorem recordRead_initDone (q : PortRead) (v : PortValue) : (s.recordRead q v).initDone = s.initDone := rfl
@[simp] theorem recordRead_nameTable (q : PortRead) (v : PortValue) : (s.recordRead q v).nameTable = s.nameTable := rfl
@[simp] theorem recordRead_importCount (q : PortRead) (v : PortValue) : (s.recordRead q v).importCount = s.importCount := rfl
@[simp] theorem recordRead_table (q : PortRead) (v : PortValue) : (s.recordRead q v).table = s.table := rfl
@[simp] theorem recordRead_faults (q : PortRead) (v : PortValue) : (s.recordRead q v).faults = s.faults := rfl
@[simp] theorem recordRead_sinkLog (q : PortRead) (v : PortValue) : (s.recordRead q v).sinkLog = s.sinkLog := rfl
@[simp] theorem recordRead_invocations (q : PortRead) (v : PortValue) : (s.recordRead q v).invocations = s.invocations := rfl
@[simp] theorem recordRead_result (q : PortRead) (v : PortValue) : (s.recordRead q v).result = s.result := rfl
@[simp] theorem recordRead_commands (q : PortRead) (v : PortValue) : (s.recordRead q v).commands = s.commands := rfl
@[simp] theorem recordRead_callbackQueue (q : PortRead) (v : PortValue) : (s.recordRead q v).callbackQueue = s.callbackQueue := rfl
@[simp] theorem recordRead_draws (q : PortRead) (v : PortValue) : (s.recordRead q v).draws = s.draws := rfl
@[simp] theorem recordRead_undefinedResults (q : PortRead) (v : PortValue) : (s.recordRead q v).undefinedResults = s.undefinedResults := rfl
@[simp] theorem recordRead_portReads (q : PortRead) (v : PortValue) : (s.recordRead q v).portReads = s.portReads ++ [(q, v)] := rfl

end Sys2Proof.Machine
end

