-- ==== Sys2Proof/Laws/Ops.lean ====
section
/-! SUPPORT. One lemma per shared operation: what it does, or what a next state out of it can be. -/

namespace Sys2Proof.Machine

open Sys2Proof.Safety

/-! Registers. -/

@[simp] theorem readReg_setReg_same (s : State) (r : Fin 6) (v : Word) :
    (s.setReg r v).readReg r = truncN s.cfg v.toNat := by
  simp [State.readReg]

theorem readReg_setReg_other (s : State) (r r' : Fin 6) (v : Word) (h : r' ≠ r) :
    (s.setReg r v).readReg r' = s.readReg r' := by
  have h' : (r : Nat) ≠ r' := fun e => h (Fin.ext e.symm)
  simp [State.readReg, h']

@[simp] theorem readReg_noteReads (s : State) (rs : List (Fin 6)) (r : Fin 6) :
    (s.noteReads rs).readReg r = s.readReg r := rfl

/-- What a register reads fits the word (R20). -/
theorem readReg_lt (s : State) (r : Fin 6) : (s.readReg r).toNat < 2 ^ s.cfg.bits := truncN_lt _ _

/-! Range predicates (R52). -/

theorem inCapacity_iff (s : State) (a : Int) (n : Nat) :
    s.inCapacity a n = true ↔ 0 ≤ a ∧ a + n ≤ s.cfg.stackCapacity := decide_eq_true_iff

theorem inLive_iff (s : State) (a : Int) (n : Nat) : s.inLive a n = true ↔ 0 ≤ a ∧ a + n ≤ s.sp :=
  decide_eq_true_iff

/-! Operand checks. -/

@[simp] theorem field_toNat (r : Fin 6) : (field r).toNat = r.val := by
  have := r.isLt
  rw [field, BitVec.toNat_ofNat]; omega

/-- A field that names a register passes the check (R95). -/
@[simp] theorem checkReg_field (offset : Nat) (r : Fin 6) (s : State) (k : Fin 6 → Result) :
    checkReg offset (field r) s k = k r := by
  simp [checkReg]

/-- A field of 6 or more faults (R95). -/
theorem checkReg_fault (offset : Nat) (r : Byte) (s : State) (k : Fin 6 → Result) (h : 6 ≤ r.toNat) :
    checkReg offset r s k = raise (.registerRange offset r) s := by
  simp [checkReg, Nat.not_lt.2 h]

/-- What a checked register field can lead to. -/
theorem checkReg_cases (offset : Nat) (r : Byte) (s : State) (k : Fin 6 → Result) :
    (∃ r' : Fin 6, r = field r' ∧ checkReg offset r s k = k r') ∨
    (6 ≤ r.toNat ∧ checkReg offset r s k = raise (.registerRange offset r) s) := by
  by_cases h : r.toNat < 6
  · refine .inl ⟨⟨r.toNat, h⟩, ?_, by simp [checkReg, h]⟩
    apply BitVec.eq_of_toNat_eq
    simp
  · exact .inr ⟨Nat.not_lt.1 h, checkReg_fault _ _ _ _ (Nat.not_lt.1 h)⟩

theorem checkLength_ok {n : Nat} {s : State} {k : Result} (h : n ≤ s.cfg.wordBytes) : checkLength n s k = k := by
  simp [checkLength, Nat.not_lt.2 h]

theorem checkLength_fault {n : Nat} {s : State} {k : Result} (h : s.cfg.wordBytes < n) :
    checkLength n s k = raise (.operandLength n) s := by
  simp [checkLength, h]

/-! Faults. -/

/-- A fault, as the whole effect of R214 and R215. -/
theorem raise_eq (f : FaultInfo) (s : State) : raise f s = .next (afterFault s f (fuJump s.cfg s.opAddr s.fu)) := rfl

/-! Completion. -/

/-- Reading written registers leaves no mark. -/
theorem noteReads_of_written {s : State} {rs : List (Fin 6)} (h : Written s rs) : s.noteReads rs = s := by
  have e : (rs.filter fun r => !s.written[r]) = [] :=
    List.filter_eq_nil_iff.2 fun r hr => by simpa using h r hr
  rw [State.noteReads, e, List.append_nil]

theorem complete_setReg (s : State) (d : Fin 6) (v : Word) :
    complete (s.setReg d v) = .next (afterWrite s d (truncN s.cfg v.toNat)) := rfl

theorem complete_writeStack (s : State) (a : Nat) (bs : List Byte) :
    complete (s.writeStack a bs) = .next (afterStore s (memWriteBytes s.stack a bs)) := rfl

/-- The three-operand frame on register fields (R141). -/
theorem threeOperand_ok {f : AluOp} {d a b : Fin 6} {s : State} {v : Word}
    (h : f s.cfg (s.readReg a) (s.readReg b) = .ok v) :
    threeOperand f (field d) (field a) (field b) s =
      .next (afterWrite (s.noteReads [a, b]) d (truncN s.cfg v.toNat)) := by
  simp [threeOperand, h, complete_setReg]

/-- The three-operand frame where the result is left to the host's arithmetic (R141, R220). -/
theorem threeOperand_error {f : AluOp} {d a b : Fin 6} {s : State} {reason : UndefReason}
    (h : f s.cfg (s.readReg a) (s.readReg b) = .error reason) :
    threeOperand f (field d) (field a) (field b) s =
      undefinedResult reason (s.readReg a) (s.readReg b) d (s.noteReads [a, b]) := by
  simp [threeOperand, h]

/-- The host's arithmetic where it has no step out (R220). -/
theorem undefinedResult_stops {reason : UndefReason} {va vb : Word} {d : Fin 6} {s : State}
    (h : s.cfg.hostArithStops = true) : undefinedResult reason va vb d s = .fault (.undefinedResult reason) := by
  simp [undefinedResult, h]

/-- The host's arithmetic where it goes on: a free value and the mark (log 8). -/
theorem undefinedResult_goesOn {reason : UndefReason} {va vb : Word} {d : Fin 6} {s : State}
    (h : s.cfg.hostArithStops = false) : WroteHostValue s d reason (undefinedResult reason va vb d s) :=
  ⟨truncN s.cfg (Config.hostArith reason va vb s.draws).toNat, truncN_lt _ _, by simp [undefinedResult, h]; rfl⟩

/-- `loadInto` where every byte is written. -/
theorem loadInto_ok {d : Fin 6} {a n : Nat} {s : State} {bs : List Byte} (h : memReadBytes s.stack a n = some bs) :
    loadInto d a n s = complete (s.setReg d (loadValue s.cfg bs)) := by
  simp [loadInto, h]

/-- `loadInto` where a byte is unwritten (R223). -/
theorem loadInto_unwritten {d : Fin 6} {a n : Nat} {s : State} (h : memReadBytes s.stack a n = none) :
    loadInto d a n s = .fault (.unwrittenStack a n) := by
  simp [loadInto, h]

end Sys2Proof.Machine
end

