-- ==== Sys2Proof/Laws/Control.lean ====
section
/-! SUPPORT. What copying program bytes to the stack can do, and the frame updates read back. -/

namespace Sys2Proof.Machine

open Sys2Proof.Safety

theorem memWriteBytes_append (m : Memory) (a : Nat) (bs cs : List Byte) :
    memWriteBytes m a (bs ++ cs) = memWriteBytes (memWriteBytes m a bs) (a + bs.length) cs := by
  induction bs generalizing m a with
  | nil => rfl
  | cons b bs ih =>
    rw [List.cons_append, memWriteBytes, memWriteBytes, ih, List.length_cons, Nat.add_assoc, Nat.add_comm 1]

/-- A copy that succeeds writes `n` bytes at `a` and changes nothing else but the fetch unit, whose image stays. -/
theorem copyToStack_some {n a : Nat} {s s' : State} (h : copyToStack n a s = some s') :
    ∃ fu' bs, bs.length = n ∧ fu'.image = s.fu.image ∧
      s' = { s with fu := fu', stack := memWriteBytes s.stack a bs } := by
  induction n generalizing a s with
  | zero => cases h; exact ⟨_, [], rfl, rfl, rfl⟩
  | succ n ih =>
    unfold copyToStack at h
    split at h
    · cases h
    · rename_i bs s1 h1
      obtain ⟨fu1, hf, rfl⟩ := fetchBytes_some h1
      obtain ⟨hl, -, hi⟩ := fuFetch_some hf
      obtain ⟨fu2, cs, hl2, hi2, rfl⟩ := ih h
      refine ⟨fu2, bs ++ cs, by simp [hl, hl2, Nat.add_comm], hi2.trans hi, ?_⟩
      rw [memWriteBytes_append, hl]
      rfl

@[simp] theorem frame_setFrameBase_same (s : State) (k n : Nat) (h : k < s.frames.length) :
    (s.setFrameBase k n).frame k = ⟨n, (s.frame k).ret⟩ := by
  simp [State.frame, State.setFrameBase, h]

theorem frame_setFrameBase_other (s : State) (k j n : Nat) (h : j ≠ k) :
    (s.setFrameBase k n).frame j = s.frame j := by
  simp [State.frame, State.setFrameBase, List.getElem?_set_ne (Ne.symm h)]

@[simp] theorem frame_setFrameRet_same (s : State) (k : Nat) (t : Pos) (h : k < s.frames.length) :
    (s.setFrameRet k t).frame k = ⟨(s.frame k).stackBase, t⟩ := by
  simp [State.frame, State.setFrameRet, h]

theorem frame_setFrameRet_other (s : State) (k j : Nat) (t : Pos) (h : j ≠ k) :
    (s.setFrameRet k t).frame j = s.frame j := by
  simp [State.frame, State.setFrameRet, List.getElem?_set_ne (Ne.symm h)]

/-- A frame update never moves another frame's base, nor its own when it writes `ret`. -/
theorem stackBase_setFrameRet (s : State) (k j : Nat) (t : Pos) :
    ((s.setFrameRet k t).frame j).stackBase = (s.frame j).stackBase := by
  by_cases h : j = k
  · subst h
    by_cases hl : j < s.frames.length
    · rw [frame_setFrameRet_same _ _ _ hl]
    · simp [State.frame, State.setFrameRet, hl]
  · rw [frame_setFrameRet_other _ _ _ _ h]

theorem ret_setFrameBase (s : State) (k j n : Nat) :
    ((s.setFrameBase k n).frame j).ret = (s.frame j).ret := by
  by_cases h : j = k
  · subst h
    by_cases hl : j < s.frames.length
    · rw [frame_setFrameBase_same _ _ _ hl]
    · simp [State.frame, State.setFrameBase, hl]
  · rw [frame_setFrameBase_other _ _ _ _ h]

end Sys2Proof.Machine
end

