-- ==== Sys2Proof/Laws/Decode.lean ====
section
/-! SUPPORT. The opcode map is read back by the decoder (R92, R101), and fields are read back as put (R91). -/

namespace Sys2Proof

theorem mem_allOps (o : Op) : o ∈ allOps := by cases o <;> decide

theorem opRow_injective {o o' : Op} (h : opRow o = opRow o') : o = o' := by
  cases o <;> cases o' <;> first | rfl | (exact absurd h (by decide))

/-- An injective map gives different bytes to different mnemonics. -/
theorem opByte_injective {cfg : Config} (h : cfg.opcodes.toList.Nodup) {o o' : Op}
    (he : opByte cfg o = opByte cfg o') : o = o' := by
  apply opRow_injective
  apply Fin.ext
  have h1 := List.nodup_iff_injective_get.1 h
  have h2 := @h1 ⟨opRow o, by simp⟩ ⟨opRow o', by simp⟩ (by simpa [opByte] using he)
  simpa using h2

/-- The byte the map gives a mnemonic selects that mnemonic (R92). -/
theorem decodeOp_opByte {cfg : Config} (h : cfg.opcodes.toList.Nodup) (o : Op) :
    decodeOp cfg (opByte cfg o) = some o := by
  unfold decodeOp
  cases hf : allOps.find? (fun o' => opByte cfg o' == opByte cfg o) with
  | none => exact absurd (List.find?_eq_none.1 hf o (mem_allOps o)) (by simp)
  | some o' =>
    have := List.find?_some hf
    have he : o' = o := opByte_injective h (by simpa using this)
    rw [he]

/-- A byte that selects a mnemonic is the one the map gives it. -/
theorem opByte_of_decodeOp {cfg : Config} {b : Byte} {o : Op} (h : decodeOp cfg b = some o) : opByte cfg o = b := by
  simpa using List.find?_some h

@[simp] theorem putFields_length (e : Endian) (ns vs : List Nat) (h : ns.length = vs.length) :
    (putFields e ns vs).length = ns.sum := by
  induction ns generalizing vs with
  | nil => cases vs <;> simp [putFields]
  | cons n ns ih =>
    cases vs with
    | nil => simp at h
    | cons v vs => simp [putFields, ih vs (by simpa using h)]

end Sys2Proof
end

