-- ==== Sys2Proof/Laws/Exec.lean ====
section
/-! SUPPORT. The inversion of `exec`: every next state an instruction can reach, once. -/

namespace Sys2Proof.Machine

open Sys2Proof.Safety

/-- A fault taken after the reads `reads`. -/
def Faulted (s t : State) : Prop := ∃ reads f, t = afterFault (s.noteReads reads) f (fuJump s.cfg s.opAddr s.fu)

/-- The destination register written, after the source registers were read; an LDI has moved the fetch unit, an operation of the
host's arithmetic has drawn a value and left its mark. -/
def Wrote (i : Instr) (s t : State) : Prop :=
  ∃ reads d v fu n us, destField i = some (field d) ∧ sourceFields i = reads.map field ∧
    (fu = s.fu ∨ ∃ k bs, fuFetch s.cfg k s.fu = some (bs, fu)) ∧
    t = afterWrite
      { s.noteReads reads with fu := fu, draws := n, undefinedResults := s.undefinedResults ++ us } d v

theorem Faulted.of_raise {s t : State} {f : FaultInfo} {reads : List (Fin 6)}
    (h : raise f (s.noteReads reads) = .next t) : Faulted s t := by
  rw [raise_eq] at h
  cases h
  exact ⟨reads, f, rfl⟩

theorem Faulted.of_raise_nil {s t : State} {f : FaultInfo} (h : raise f s = .next t) : Faulted s t := by
  rw [raise_eq] at h
  cases h
  exact ⟨[], f, by rw [noteReads_of_written (List.forall_mem_nil _)]⟩

/-- A checked register field: the fault, or the register it names. -/
theorem checkReg_next {offset : Nat} {r : Byte} {s t : State} {k : Fin 6 → Result}
    (h : checkReg offset r s k = .next t) : Faulted s t ∨ ∃ r', r = field r' ∧ k r' = .next t := by
  rcases checkReg_cases offset r s k with ⟨r', hr, e⟩ | ⟨-, e⟩
  · exact .inr ⟨r', hr, e ▸ h⟩
  · exact .inl (Faulted.of_raise_nil (e ▸ h))

theorem checkLength_next {n : Nat} {s t : State} {reads : List (Fin 6)} {k : Result}
    (h : checkLength n (s.noteReads reads) k = .next t) : Faulted s t ∨ k = .next t := by
  unfold checkLength at h
  split at h
  · exact .inl (Faulted.of_raise h)
  · exact .inr h

theorem checkLength_next_nil {n : Nat} {s t : State} {k : Result} (h : checkLength n s k = .next t) :
    Faulted s t ∨ k = .next t := by
  unfold checkLength at h
  split at h
  · exact .inl (Faulted.of_raise_nil h)
  · exact .inr h

theorem Wrote.of_setReg {i : Instr} {s t : State} {reads : List (Fin 6)} {d : Fin 6} {v : Word}
    (hd : destField i = some (field d)) (hs : sourceFields i = reads.map field)
    (h : complete ((s.noteReads reads).setReg d v) = .next t) : Wrote i s t := by
  rw [complete_setReg] at h
  cases h
  exact ⟨reads, d, _, s.fu, s.draws, [], hd, hs, .inl rfl, by rw [List.append_nil]; rfl⟩

theorem Wrote.of_setReg_nil {i : Instr} {s t : State} {fu : FetchUnit} {d : Fin 6} {v : Word}
    (hd : destField i = some (field d)) (hs : sourceFields i = [])
    (hf : fu = s.fu ∨ ∃ k bs, fuFetch s.cfg k s.fu = some (bs, fu))
    (h : complete (State.setReg { s with fu := fu } d v) = .next t) : Wrote i s t := by
  rw [complete_setReg] at h
  cases h
  exact ⟨[], d, _, fu, s.draws, [], hd, hs, hf, by rw [noteReads_of_written (List.forall_mem_nil _), List.append_nil]⟩

theorem Wrote.of_undefinedResult {i : Instr} {s t : State} {reads : List (Fin 6)} {d : Fin 6} {va vb : Word}
    {reason : UndefReason} (hd : destField i = some (field d)) (hs : sourceFields i = reads.map field)
    (h : undefinedResult reason va vb d (s.noteReads reads) = .next t) : Wrote i s t := by
  unfold undefinedResult at h
  split at h
  · cases h
  · cases h
    exact ⟨reads, d, _, s.fu, s.draws + 1, [reason], hd, hs, .inl rfl, rfl⟩

theorem threeOperand_next {i : Instr} {f : AluOp} {d a b : Byte} {s t : State}
    (hd : destField i = some d) (hs : sourceFields i = [a, b]) (h : threeOperand f d a b s = .next t) :
    Faulted s t ∨ Wrote i s t := by
  unfold threeOperand at h
  replace h := checkReg_next h
  obtain h | ⟨d, rfl, h⟩ := h
  · exact .inl h
  replace h := checkReg_next h
  obtain h | ⟨a, rfl, h⟩ := h
  · exact .inl h
  replace h := checkReg_next h
  obtain h | ⟨b, rfl, h⟩ := h
  · exact .inl h
  simp only at h
  split at h
  · exact .inr (Wrote.of_setReg (reads := [a, b]) hd hs h)
  · exact .inr (Wrote.of_undefinedResult (reads := [a, b]) hd hs h)

/-- Every next state of an instruction: a fault, a register written, or the effect of an instruction with no destination. -/
theorem exec_cases {i : Instr} {s t : State} (h : exec i s = .next t) :
    Faulted s t ∨ Wrote i s t ∨
    (∃ reads a bs, ((∃ x y z, i = .str x y z) ∨ ∃ x p n, i = .sts x p n) ∧ sourceFields i = reads.map field ∧
      a + bs.length ≤ s.cfg.stackCapacity ∧ t = afterStore (s.noteReads reads) (memWriteBytes s.stack a bs)) ∨
    (∃ r p fu, i = .jmp (field r) p ∧ (fu = s.fu ∨ fu = fuJump s.cfg p s.fu) ∧
      t = { s.noteReads [r] with fu := fu, result := some .ok }) ∨
    (∃ p, i = .call p ∧ s.si + 1 < s.cfg.scopeLimit ∧
      t = ((s.setFrameRet (s.si + 1) (s.opAddr + 5)).jumpTo p).answer .ok) ∨
    (∃ n fu bs, i = .scope n ∧ bs.length = n.toNat ∧ fu.image = s.fu.image ∧ s.si + 1 < s.cfg.scopeLimit ∧
      s.sp + n.toNat ≤ s.cfg.stackCapacity ∧
      t = { s.setFrameBase (s.si + 1) s.sp with
        fu := fu, stack := memWriteBytes s.stack s.sp bs, sp := s.sp + n.toNat, si := s.si + 1, result := some .ok }) ∨
    (i = .endScope ∧ s.si ≠ 0 ∧
      (((s.frame s.si).ret = 0 ∧ t = ((s.setSp (s.frame s.si).stackBase).setSi (s.si - 1)).answer .ok) ∨
       ((s.frame s.si).ret ≠ 0 ∧
        t = (((((s.setSp (s.frame s.si).stackBase).setFrameRet s.si 0).jumpTo (s.frame s.si).ret).setSi (s.si - 1)).answer
          .ok)))) ∨
    (i = .eop ∧ t = (s.setRunning false).answer .halted) ∨
    (∃ index c u, i = .invoke index ∧ index.toNat < s.importCount.toNat ∧ s.table.getD index.toNat none = some c ∧
      callbackActs (s.nextActs c) (s.recordInvocation index) = .ok u ∧ t = u.answer .ok) := by
  cases i <;> dsimp only [exec] at h
  case ldr d a l =>
    unfold execLdr at h
    replace h := checkReg_next h
    obtain h | ⟨d, rfl, h⟩ := h
    · exact .inl h
    replace h := checkReg_next h
    obtain h | ⟨a, rfl, h⟩ := h
    · exact .inl h
    replace h := checkReg_next h
    obtain h | ⟨l, rfl, h⟩ := h
    · exact .inl h
    obtain h | h := checkLength_next h
    · exact .inl h
    split at h
    · unfold loadInto at h
      split at h
      · cases h
      · exact .inr (.inl (Wrote.of_setReg rfl rfl h))
    · exact .inl (Faulted.of_raise h)
  case str x a l =>
    unfold execStr at h
    replace h := checkReg_next h
    obtain h | ⟨x, rfl, h⟩ := h
    · exact .inl h
    replace h := checkReg_next h
    obtain h | ⟨a, rfl, h⟩ := h
    · exact .inl h
    replace h := checkReg_next h
    obtain h | ⟨l, rfl, h⟩ := h
    · exact .inl h
    obtain h | h := checkLength_next h
    · exact .inl h
    split at h
    · rename_i hc
      rw [inCapacity_iff] at hc
      rw [complete_writeStack] at h
      cases h
      refine .inr (.inr (.inl ⟨[x, a, l], _, _, .inl ⟨_, _, _, rfl⟩, rfl, ?_, rfl⟩))
      rw [storeBytes, toBytes_length]
      simp only [readReg_noteReads, noteReads_cfg] at hc ⊢
      omega
    · exact .inl (Faulted.of_raise h)
  case lds d p n =>
    unfold execLds at h
    replace h := checkReg_next h
    obtain h | ⟨d, rfl, h⟩ := h
    · exact .inl h
    obtain h | h := checkLength_next_nil h
    · exact .inl h
    simp only at h
    split at h
    · unfold loadInto at h
      split at h
      · cases h
      · exact .inr (.inl (Wrote.of_setReg_nil rfl rfl (.inl rfl) h))
    · exact .inl (Faulted.of_raise_nil h)
  case sts x p n =>
    unfold execSts at h
    replace h := checkReg_next h
    obtain h | ⟨x, rfl, h⟩ := h
    · exact .inl h
    obtain h | h := checkLength_next_nil h
    · exact .inl h
    simp only at h
    split at h
    · rename_i hc
      rw [inCapacity_iff] at hc
      rw [complete_writeStack] at h
      cases h
      refine .inr (.inr (.inl ⟨[x], _, _, .inr ⟨_, _, _, rfl⟩, rfl, ?_, rfl⟩))
      rw [storeBytes, toBytes_length]
      simp only [noteReads_cfg] at hc ⊢
      omega
    · exact .inl (Faulted.of_raise h)
  case ldi d n =>
    unfold execLdi at h
    replace h := checkReg_next h
    obtain h | ⟨d, rfl, h⟩ := h
    · exact .inl h
    obtain h | h := checkLength_next_nil h
    · exact .inl h
    split at h
    · cases h
    · rename_i hf
      obtain ⟨fu, hfu, rfl⟩ := fetchBytes_some hf
      exact .inr (.inl (Wrote.of_setReg_nil rfl rfl (.inr ⟨_, _, hfu⟩) h))
  case mov d x =>
    unfold execMov at h
    replace h := checkReg_next h
    obtain h | ⟨d, rfl, h⟩ := h
    · exact .inl h
    replace h := checkReg_next h
    obtain h | ⟨x, rfl, h⟩ := h
    · exact .inl h
    exact .inr (.inl (Wrote.of_setReg rfl rfl h))
  case neg r =>
    unfold execNeg at h
    replace h := checkReg_next h
    obtain h | ⟨r, rfl, h⟩ := h
    · exact .inl h
    simp only at h
    split at h
    · exact .inr (.inl (Wrote.of_undefinedResult rfl rfl h))
    · exact .inr (.inl (Wrote.of_setReg rfl rfl h))
  case invoke index =>
    unfold execInvoke at h
    split at h
    · exact .inl (Faulted.of_raise_nil h)
    split at h
    · exact .inl (Faulted.of_raise_nil h)
    split at h
    · rename_i hlt _ c hc _ u hu
      cases h
      exact .inr (.inr (.inr (.inr (.inr (.inr (.inr (.inr ⟨index, c, u, rfl, by omega, hc, hu, rfl⟩)))))))
    · cases h
  case not d a =>
    unfold execNot at h
    replace h := checkReg_next h
    obtain h | ⟨d, rfl, h⟩ := h
    · exact .inl h
    replace h := checkReg_next h
    obtain h | ⟨a, rfl, h⟩ := h
    · exact .inl h
    exact .inr (.inl (Wrote.of_setReg rfl rfl h))
  case cmp k d a b =>
    unfold execCmp at h
    split at h
    · exact .inl (Faulted.of_raise_nil h)
    replace h := checkReg_next h
    obtain h | ⟨d, rfl, h⟩ := h
    · exact .inl h
    replace h := checkReg_next h
    obtain h | ⟨a, rfl, h⟩ := h
    · exact .inl h
    replace h := checkReg_next h
    obtain h | ⟨b, rfl, h⟩ := h
    · exact .inl h
    exact .inr (.inl (Wrote.of_setReg rfl rfl h))
  case jmp r p =>
    unfold execJmp at h
    replace h := checkReg_next h
    obtain h | ⟨r, rfl, h⟩ := h
    · exact .inl h
    simp only at h
    split at h <;> cases h
    · exact .inr (.inr (.inr (.inl ⟨r, p, fuJump s.cfg p s.fu, rfl, .inr rfl, rfl⟩)))
    · exact .inr (.inr (.inr (.inl ⟨r, p, s.fu, rfl, .inl rfl, rfl⟩)))
  case call p =>
    unfold execCall at h
    split at h
    · exact .inl (Faulted.of_raise_nil h)
    · cases h
      exact .inr (.inr (.inr (.inr (.inl ⟨p, rfl, by omega, rfl⟩))))
  case scope n =>
    unfold execScope at h
    split at h
    · exact .inl (Faulted.of_raise_nil h)
    split at h
    · exact .inl (Faulted.of_raise_nil h)
    rename_i hc
    simp only [Bool.not_eq_true, Bool.not_eq_false', inCapacity_iff] at hc
    split at h
    · cases h
    · rename_i u hu
      obtain ⟨fu, bs, hl, hi, rfl⟩ := copyToStack_some hu
      cases h
      exact .inr (.inr (.inr (.inr (.inr (.inl ⟨n, fu, bs, rfl, hl, hi, by omega, by omega, rfl⟩)))))
  case endScope =>
    unfold execEndScope at h
    split at h
    · exact .inl (Faulted.of_raise_nil h)
    rename_i hsi
    refine .inr (.inr (.inr (.inr (.inr (.inr (.inl ⟨rfl, hsi, ?_⟩))))))
    simp only at h
    split at h <;> rename_i hr <;> cases h
    · exact .inr ⟨hr, rfl⟩
    · exact .inl ⟨by simpa using hr, rfl⟩
  case eop =>
    cases h
    exact .inr (.inr (.inr (.inr (.inr (.inr (.inr (.inl ⟨rfl, rfl⟩)))))))
  all_goals exact (threeOperand_next rfl rfl h).imp_right .inl

end Sys2Proof.Machine
end

