-- ==== Sys2Proof/Laws/Lifecycle.lean ====
section
/-! SUPPORT. What init can do: the inversion of its loader. -/

namespace Sys2Proof.Machine

/-- Reading names changes the fetch unit and appends at most `room` bytes to the name table. -/
theorem readNames_some {Q : FetchUnit → Prop} {room need : Nat} {s s' : State} {ok : Bool}
    (h : readNames room need s = some (ok, s'))
    (hQ : ∀ n fu bs fu', fuFetch s.cfg n fu = some (bs, fu') → Q fu → Q fu') (hs : Q s.fu) :
    ∃ fu' bs, Q fu' ∧ fu'.image = s.fu.image ∧ bs.length ≤ room ∧
      s' = { s with fu := fu', nameTable := s.nameTable ++ bs } := by
  induction room generalizing need s with
  | zero =>
    cases need <;>
    · simp only [readNames, Option.some.injEq, Prod.mk.injEq] at h
      obtain ⟨-, rfl⟩ := h
      exact ⟨s.fu, [], hs, rfl, Nat.le_refl 0, by rw [List.append_nil]⟩
  | succ room ih =>
    cases need with
    | zero =>
      simp only [readNames, Option.some.injEq, Prod.mk.injEq] at h
      obtain ⟨-, rfl⟩ := h
      exact ⟨s.fu, [], hs, rfl, Nat.zero_le _, by rw [List.append_nil]⟩
    | succ need =>
      simp only [readNames] at h
      split at h
      · cases h
      · rename_i bs s1 h1
        obtain ⟨fu1, hf, rfl⟩ := fetchBytes_some h1
        obtain ⟨hl, -, hi⟩ := fuFetch_some hf
        obtain ⟨fu2, cs, hq, hi2, hl2, rfl⟩ := ih (s := { s with fu := fu1, nameTable := s.nameTable ++ bs }) h hQ
          (hQ _ _ _ _ hf hs)
        refine ⟨fu2, bs ++ cs, hq, hi2.trans hi, ?_, ?_⟩
        · rw [List.length_append]; omega
        · rw [List.append_assoc]

/-- A copy keeps what every fetch keeps. -/
theorem copyToStack_keeps {Q : FetchUnit → Prop} {n a : Nat} {s s' : State}
    (h : copyToStack n a s = some s')
    (hQ : ∀ n fu bs fu', fuFetch s.cfg n fu = some (bs, fu') → Q fu → Q fu') (hs : Q s.fu) : Q s'.fu := by
  induction n generalizing a s with
  | zero => cases h; exact hs
  | succ n ih =>
    unfold copyToStack at h
    split at h
    · cases h
    · rename_i bs s1 h1
      obtain ⟨fu1, hf, rfl⟩ := fetchBytes_some h1
      exact ih (s := State.writeStack { s with fu := fu1 } a bs) h hQ (hQ _ _ _ _ hf hs)

/-- The next states of init: a failed init, with the fault recorded, or a loaded program. `Q` is any property of the fetch unit that
every fetch keeps. -/
theorem runInit_next {Q : FetchUnit → Prop} {image : List Byte} {plan : List Nat} {s t : State}
    (hQ : ∀ n fu bs fu', fuFetch s.cfg n fu = some (bs, fu') → Q fu → Q fu') (h0 : Q (FetchUnit.empty image plan))
    (h : runInit image plan s = .next t) :
    s.initDone = false ∧ image.length < 2 ^ 32 ∧
    ∃ fu' names, Q fu' ∧ fu'.image = image ∧ names.length ≤ s.cfg.nameTableCapacity ∧
      ((∃ f p, t = (({ s.initStart image plan with fu := fu', nameTable := names } : State).recordFault f p).answer
          (.initFailed f.kind)) ∨
       ∃ (root : List Byte) (count : BitVec 32),
        root.length ≤ s.cfg.stackCapacity ∧ count.toNat ≤ s.cfg.maxImports ∧
        t = ({ s.initStart image plan with
          fu := fu', nameTable := names, stack := memWriteBytes [] 0 root, sp := root.length,
          importCount := count, ready := true } : State).answer .initOk) := by
  unfold runInit at h
  split at h
  · cases h
  rename_i hd
  split at h
  · cases h
  rename_i hl
  refine ⟨by simpa using hd, by omega, ?_⟩
  unfold loadHeader at h
  split at h
  · cases h
  rename_i major s1 h1
  obtain ⟨b1, fu1, hf1, -, rfl⟩ := fetchValue_some h1
  have hq1 := hQ _ _ _ _ hf1 h0
  have hi1 : fu1.image = image := (fuFetch_some hf1).2.2
  split at h
  · cases h
  rename_i minor s2 h2
  obtain ⟨b2, fu2, hf2, -, rfl⟩ := fetchValue_some h2
  have hq2 := hQ _ _ _ _ hf2 hq1
  have hi2 : fu2.image = image := (fuFetch_some hf2).2.2.trans hi1
  split at h
  · cases h; exact ⟨fu2, [], hq2, hi2, Nat.zero_le _, .inl ⟨_, _, rfl⟩⟩
  split at h
  · cases h; exact ⟨fu2, [], hq2, hi2, Nat.zero_le _, .inl ⟨_, _, rfl⟩⟩
  unfold loadImports at h
  split at h
  · cases h
  rename_i n s3 h3
  obtain ⟨b3, fu3, hf3, -, rfl⟩ := fetchValue_some h3
  have hq3 := hQ _ _ _ _ hf3 hq2
  have hi3 : fu3.image = image := (fuFetch_some hf3).2.2.trans hi2
  simp only at h
  split at h
  · cases h; exact ⟨fu3, [], hq3, hi3, Nat.zero_le _, .inl ⟨_, _, rfl⟩⟩
  rename_i hn
  split at h
  · cases h
  · rename_i s4 h4
    obtain ⟨fu4, names, hq4, hi4, hl4, rfl⟩ := readNames_some h4 hQ hq3
    cases h
    exact ⟨fu4, names, hq4, hi4.trans hi3, hl4, .inl ⟨_, _, rfl⟩⟩
  · rename_i s4 h4
    obtain ⟨fu4, names, hq4, hi4, hl4, rfl⟩ := readNames_some h4 hQ hq3
    unfold loadRoot at h
    simp only at h
    split at h
    · cases h
    rename_i rlen s5 h5
    obtain ⟨b5, fu5, hf5, -, rfl⟩ := fetchValue_some h5
    have hq5 := hQ _ _ _ _ hf5 hq4
    have hi5 : fu5.image = image := (fuFetch_some hf5).2.2.trans (hi4.trans hi3)
    split at h
    · cases h; exact ⟨fu5, names, hq5, hi5, hl4, .inl ⟨_, _, rfl⟩⟩
    rename_i hr
    split at h
    · cases h
    · rename_i s6 h6
      have hq6 := copyToStack_keeps h6 hQ hq5
      obtain ⟨fu6, root, hl6, hi6, rfl⟩ := copyToStack_some h6
      cases h
      have hr' : rlen ≤ s.cfg.stackCapacity := Nat.not_lt.1 hr
      have hn' : n ≤ s.cfg.maxImports := Nat.not_lt.1 hn
      refine ⟨fu6, names, hq6, hi6.trans hi5, hl4, .inr ⟨root, BitVec.ofNat 32 n, hl6 ▸ hr', ?_, ?_⟩⟩
      · rw [BitVec.toNat_ofNat]; exact Nat.le_trans (Nat.mod_le _ _) hn'
      · rw [hl6]; rfl

end Sys2Proof.Machine
end

