-- ==== Sys2Proof/Laws/PerInstr.lean ====
section
/-! SUPPORT. Families of statements about every instruction as syntax, one lemma per constructor. -/

namespace Sys2Proof.Laws.EncodedLength

open Sys2Proof

/-- The encoding of an instruction's opcode and fixed fields has the length its format gives (R93). -/
def Statement (i : Instr) : Prop := ∀ cfg : Config, (encode cfg i).length = i.fixedLength

/-- The one step of every case: as many operands as the layout has fields. -/
theorem of_operands {i : Instr} (h : (layout i.op).length = i.operands.length) : Statement i := by
  intro cfg
  rw [encode, List.length_cons, putFields_length _ _ _ h, Instr.fixedLength, Nat.add_comm]

theorem ldr (d a l : Byte) : Statement (.ldr d a l) := of_operands rfl
theorem str (src a l : Byte) : Statement (.str src a l) := of_operands rfl
theorem lds (d : Byte) (addr : BitVec 32) (len : Byte) : Statement (.lds d addr len) := of_operands rfl
theorem sts (src : Byte) (addr : BitVec 32) (len : Byte) : Statement (.sts src addr len) := of_operands rfl
theorem ldi (d len : Byte) : Statement (.ldi d len) := of_operands rfl
theorem mov (d src : Byte) : Statement (.mov d src) := of_operands rfl
theorem neg (r : Byte) : Statement (.neg r) := of_operands rfl
theorem invoke (index : BitVec 16) : Statement (.invoke index) := of_operands rfl
theorem add (d a b : Byte) : Statement (.add d a b) := of_operands rfl
theorem sub (d a b : Byte) : Statement (.sub d a b) := of_operands rfl
theorem mul (d a b : Byte) : Statement (.mul d a b) := of_operands rfl
theorem div (d a b : Byte) : Statement (.div d a b) := of_operands rfl
theorem and (d a b : Byte) : Statement (.and d a b) := of_operands rfl
theorem orr (d a b : Byte) : Statement (.orr d a b) := of_operands rfl
theorem xor (d a b : Byte) : Statement (.xor d a b) := of_operands rfl
theorem not (d a : Byte) : Statement (.not d a) := of_operands rfl
theorem lsl (d a b : Byte) : Statement (.lsl d a b) := of_operands rfl
theorem lsr (d a b : Byte) : Statement (.lsr d a b) := of_operands rfl
theorem cmp (k d a b : Byte) : Statement (.cmp k d a b) := of_operands rfl
theorem jmp (c : Byte) (target : Pos) : Statement (.jmp c target) := of_operands rfl
theorem call (target : Pos) : Statement (.call target) := of_operands rfl
theorem scope (length : BitVec 32) : Statement (.scope length) := of_operands rfl
theorem endScope : Statement .endScope := of_operands rfl
theorem eop : Statement .eop := of_operands rfl

end Sys2Proof.Laws.EncodedLength
end

