-- ==== Sys2Proof/Laws/Port.lean ====
section
/-! SUPPORT. What a write, a read and a callback act through the state-access port do, and what they leave alone (R41, R172,
R175, R176). -/

namespace Sys2Proof.Machine

open Sys2Proof.Safety

/-- A write within the limits of R175 succeeds with its own effect. -/
theorem portWrite_effect {w : PortWrite} {s : State} (hf : s.frames.length = s.cfg.scopeLimit)
    (ha : actAllowed s.cfg (.write w) = true) : ∃ t, portWrite w s = some t ∧ WriteEffect w s t := by
  cases w <;> simp only [actAllowed, Bool.and_eq_true, decide_eq_true_eq] at ha <;> simp only [portWrite, WriteEffect]
  case pc p => exact ⟨_, rfl, rfl⟩
  case reg r v => rw [dif_pos ha]; exact ⟨_, rfl, ⟨r, ha⟩, truncN s.cfg v.toNat, rfl, truncN_toNat _ _, rfl⟩
  case stackByte a b =>
    rw [if_pos ha]
    exact ⟨_, rfl, _, rfl, by simp [memWriteBytes, memRead_memWrite_same],
      fun a' h => memRead_memWriteBytes_other _ _ _ _ (by simp only [List.length_singleton]; omega)⟩
  case frameBase k n =>
    rw [if_pos ha]
    exact ⟨_, rfl, _, rfl, by simp, frame_setFrameBase_same _ _ _ (by omega),
      fun j hj => frame_setFrameBase_other _ _ _ _ hj⟩
  case frameRet k n =>
    rw [if_pos ha]
    exact ⟨_, rfl, _, rfl, by simp, frame_setFrameRet_same _ _ _ (by omega),
      fun j hj => frame_setFrameRet_other _ _ _ _ hj⟩
  all_goals rw [if_pos ha]; exact ⟨_, rfl, rfl⟩

/-- A write outside the limits of R175 has no meaning (R176). -/
theorem portWrite_none {w : PortWrite} {s : State} (ha : actAllowed s.cfg (.write w) = false) : portWrite w s = none := by
  cases w <;> simp only [actAllowed, Bool.and_eq_false_iff, decide_eq_false_iff_not] at ha <;> simp only [portWrite]
  case pc t => simp at ha
  case frameBase => rw [if_neg (by tauto)]
  all_goals first | rw [dif_neg ha] | rw [if_neg ha]

/-- A read gives a value exactly where its element exists. -/
theorem portValue_isSome (q : PortRead) (s : State) : (portValue q s).isSome = actAllowed s.cfg (.read q) := by
  cases q <;> simp only [actAllowed, portValue, Option.isSome_some]
  all_goals split <;> simp_all

/-- A link has its own effect (R172). -/
theorem linkName_effect (s : State) (name : List Byte) (c : CallbackId) : ActEffect (.link name c) s (s.linkName name c) := by
  unfold ActEffect State.linkName
  rcases h : s.importNames.idxOf? name with _ | k
  · rw [List.idxOf?, List.findIdx?_eq_none_iff] at h
    exact .inr ⟨fun hm => by simpa using h name hm, rfl⟩
  · rw [List.idxOf?, List.findIdx?_eq_some_iff_getElem] at h
    obtain ⟨h1, h2, h3⟩ := h
    exact .inl ⟨k, h1, by simpa using h2, fun j hj => by simpa using h3 j hj, rfl⟩

/-- What no act through the port touches (R41). -/
structure PortFrame (s t : State) : Prop where
  cfg : t.cfg = s.cfg
  image : t.fu.image = s.fu.image
  opAddr : t.opAddr = s.opAddr
  nameTable : t.nameTable = s.nameTable
  importCount : t.importCount = s.importCount
  ready : t.ready = s.ready
  initDone : t.initDone = s.initDone
  faults : t.faults = s.faults
  sinkLog : t.sinkLog = s.sinkLog
  invocations : t.invocations = s.invocations
  unwrittenReads : t.unwrittenReads = s.unwrittenReads
  undefinedResults : t.undefinedResults = s.undefinedResults
  draws : t.draws = s.draws
  commands : t.commands = s.commands
  callbackQueue : t.callbackQueue = s.callbackQueue
  framesLength : t.frames.length = s.frames.length
  result : t.result = s.result

theorem PortFrame.refl (s : State) : PortFrame s s := by constructor <;> rfl

theorem PortFrame.trans {a b c : State} (h : PortFrame a b) (h' : PortFrame b c) : PortFrame a c where
  cfg := h'.cfg.trans h.cfg
  image := h'.image.trans h.image
  opAddr := h'.opAddr.trans h.opAddr
  nameTable := h'.nameTable.trans h.nameTable
  importCount := h'.importCount.trans h.importCount
  ready := h'.ready.trans h.ready
  initDone := h'.initDone.trans h.initDone
  faults := h'.faults.trans h.faults
  sinkLog := h'.sinkLog.trans h.sinkLog
  invocations := h'.invocations.trans h.invocations
  unwrittenReads := h'.unwrittenReads.trans h.unwrittenReads
  undefinedResults := h'.undefinedResults.trans h.undefinedResults
  draws := h'.draws.trans h.draws
  commands := h'.commands.trans h.commands
  callbackQueue := h'.callbackQueue.trans h.callbackQueue
  framesLength := h'.framesLength.trans h.framesLength
  result := h'.result.trans h.result

/-- A write touches nothing outside its limits, nor the table, nor `running` (R41). -/
theorem portWrite_frame {w : PortWrite} {s t : State} (h : portWrite w s = some t) :
    PortFrame s t ∧ t.table = s.table ∧ t.running = s.running := by
  cases w <;> simp only [portWrite] at h
  case pc t =>
    cases h
    refine ⟨?_, rfl, rfl⟩
    constructor <;> simp
  all_goals
    split at h
    · cases h
      refine ⟨?_, rfl, rfl⟩
      constructor <;> simp
    · cases h

theorem linkName_frame (s : State) (name : List Byte) (c : CallbackId) : PortFrame s (s.linkName name c) := by
  unfold State.linkName
  split
  · constructor <;> rfl
  · exact .refl s

/-- An act that has a meaning touches nothing outside the port. -/
theorem callbackAct_frame {act : CallbackAct} {s t : State} (h : callbackAct act s = .ok t) : PortFrame s t := by
  cases act <;> simp only [callbackAct] at h
  case read q => split at h <;> cases h; constructor <;> rfl
  case write w =>
    split at h
    · rename_i hw; cases h; exact (portWrite_frame hw).1
    · cases h
  case link name c => split at h <;> cases h; exact linkName_frame _ _ _
  case stop => cases h; constructor <;> rfl
  all_goals cases h

theorem callbackActs_frame {acts : List CallbackAct} {s t : State} (h : callbackActs acts s = .ok t) : PortFrame s t := by
  induction acts generalizing s with
  | nil => cases h; exact .refl _
  | cons act acts ih =>
    unfold callbackActs at h
    split at h
    · rename_i s1 h1
      exact (callbackAct_frame h1).trans (ih h)
    · cases h

/-- An act that keeps the duties of a callback has its own effect (R175, R176). -/
theorem callbackAct_effect {act : CallbackAct} {s : State} (hf : s.frames.length = s.cfg.scopeLimit)
    (hr : s.ready = true) (ha : actAllowed s.cfg act = true) : ∃ t, callbackAct act s = .ok t ∧ ActEffect act s t := by
  cases act with
  | write w =>
    obtain ⟨u, hu, he⟩ := portWrite_effect hf ha
    exact ⟨u, by simp only [callbackAct, hu], he⟩
  | read q =>
    obtain ⟨v, hv⟩ := Option.isSome_iff_exists.1 ((portValue_isSome q s).trans ha)
    exact ⟨s.recordRead q v, by simp only [callbackAct, hv], v, hv, rfl⟩
  | link n c => exact ⟨s.linkName n c, by simp only [callbackAct, hr, if_true], linkName_effect _ _ _⟩
  | stop => exact ⟨_, rfl, rfl⟩
  | callStep => simp [actAllowed] at ha
  | callInit => simp [actAllowed] at ha
  | callStart => simp [actAllowed] at ha

/-- The acts of a callback that keeps its duties have their effects, one after the other (R174). -/
theorem callbackActs_effect {acts : List CallbackAct} {s : State} (hf : s.frames.length = s.cfg.scopeLimit)
    (hr : s.ready = true) (ha : ∀ a ∈ acts, actAllowed s.cfg a = true) :
    ∃ t, callbackActs acts s = .ok t ∧ ActsEffect acts s t := by
  induction acts generalizing s with
  | nil => exact ⟨s, rfl, rfl⟩
  | cons a acts ih =>
    obtain ⟨s1, h1, e1⟩ := callbackAct_effect hf hr (ha a (by simp))
    have p := callbackAct_frame h1
    obtain ⟨s2, h2, e2⟩ := ih (s := s1) (by rw [p.cfg, p.framesLength, hf]) (p.ready.trans hr)
      (fun b hb => by rw [p.cfg]; exact ha b (by simp [hb]))
    exact ⟨s2, by simp only [callbackActs, h1, h2], s1, e1, e2⟩

end Sys2Proof.Machine
end

