-- ==== Sys2Proof/Laws/Step.lean ====
section
/-! SUPPORT. What a transition is made of: a property that every named update keeps is kept by every instruction and by every
transition but init, which has its own inversion. -/

namespace Sys2Proof.Machine

open Sys2Proof.Safety

/-- A step that is issued is the `step` transaction of the state it begins in (R249). -/
theorem step_of_issued {h s : State} (hi : StepIssued h s) : step h = runStep s := by
  obtain ⟨hc, rfl⟩ | ⟨rest, hc, rfl⟩ := hi <;> simp only [step, hc, runCommand]

/-- The property `P` is kept by every named update, in the ranges in which the machine makes it. -/
structure Closed (P : State → Prop) : Prop where
  setReg : ∀ s r v, P s → P (s.setReg r v)
  noteReads : ∀ s rs, P s → P (s.noteReads rs)
  noteUndefined : ∀ s reason, P s → P (s.noteUndefined reason)
  fetch : ∀ n s s' bs, fetchBytes n s = some (bs, s') → P s → P s'
  jumpTo : ∀ s t, P s → P (s.jumpTo t)
  opAddr : ∀ s : State, P s → P { s with opAddr := s.pc }
  writeStack : ∀ s a bs, a + bs.length ≤ s.cfg.stackCapacity → P s → P (s.writeStack a bs)
  setFrameBase : ∀ s k n, k < s.cfg.scopeLimit → n ≤ s.cfg.stackCapacity ∨ n = s.sp → P s → P (s.setFrameBase k n)
  setFrameRet : ∀ s k t, P s → P (s.setFrameRet k t)
  setSp : ∀ s n, (n ≤ s.cfg.stackCapacity ∨ ∃ k, n = (s.frame k).stackBase) → P s → P (s.setSp n)
  setSi : ∀ s n, n < s.cfg.scopeLimit ∨ n ≤ s.si → P s → P (s.setSi n)
  stop : ∀ s, P s → P (s.setRunning false)
  answer : ∀ s r, P s → P (s.answer r)
  recordFault : ∀ s f p, P s → P (s.recordFault f p)
  recordInvocation : ∀ s n, P s → P (s.recordInvocation n)
  recordRead : ∀ s q v, P s → P (s.recordRead q v)
  linkName : ∀ s name c, P s → P (s.linkName name c)

namespace Closed

variable {P : State → Prop}

theorem raise (c : Closed P) {s t : State} {f : FaultInfo} (h : raise f s = .next t) (hs : P s) : P t := by
  cases h
  exact c.answer _ _ (c.recordFault _ _ _ (c.jumpTo _ _ hs))

theorem complete (c : Closed P) {s t : State} (h : complete s = .next t) (hs : P s) : P t := by
  cases h
  exact c.answer _ _ hs

theorem checkReg (c : Closed P) {offset : Nat} {r : Byte} {s t : State} {k : Fin 6 → Result}
    (h : checkReg offset r s k = .next t) (hs : P s) (hk : ∀ r, k r = .next t → P t) : P t := by
  rcases checkReg_cases offset r s k with ⟨r', -, e⟩ | ⟨-, e⟩
  · exact hk r' (e ▸ h)
  · exact c.raise (e ▸ h) hs

theorem checkLength (c : Closed P) {n : Nat} {s t : State} {k : Result}
    (h : checkLength n s k = .next t) (hs : P s) (hk : k = .next t → P t) : P t := by
  unfold Machine.checkLength at h
  split at h
  · exact c.raise h hs
  · exact hk h

theorem loadInto (c : Closed P) {d : Fin 6} {a n : Nat} {s t : State} (h : loadInto d a n s = .next t) (hs : P s) :
    P t := by
  unfold Machine.loadInto at h
  split at h
  · cases h
  · exact c.complete h (c.setReg _ _ _ hs)

theorem undefinedResult (c : Closed P) {reason : UndefReason} {va vb : Word} {d : Fin 6} {s t : State}
    (h : undefinedResult reason va vb d s = .next t) (hs : P s) : P t := by
  unfold Machine.undefinedResult at h
  split at h
  · cases h
  · exact c.complete h (c.setReg _ _ _ (c.noteUndefined _ _ hs))

theorem threeOperand (c : Closed P) {f : AluOp} {d a b : Byte} {s t : State}
    (h : threeOperand f d a b s = .next t) (hs : P s) : P t := by
  refine c.checkReg h hs fun d h => c.checkReg h hs fun a h => c.checkReg h hs fun b h => ?_
  simp only at h
  split at h
  · exact c.complete h (c.setReg _ _ _ (c.noteReads _ _ hs))
  · exact c.undefinedResult h (c.noteReads _ _ hs)

theorem copyToStack (c : Closed P) {n a : Nat} {s s' : State} (hcap : a + n ≤ s.cfg.stackCapacity)
    (h : copyToStack n a s = some s') (hs : P s) : P s' := by
  induction n generalizing a s with
  | zero => cases h; exact hs
  | succ n ih =>
    unfold Machine.copyToStack at h
    split at h
    · cases h
    · rename_i bs s1 h1
      have hp := c.fetch _ _ _ _ h1 hs
      obtain ⟨fu1, hf, rfl⟩ := fetchBytes_some h1
      have hl := (fuFetch_some hf).1
      exact ih (by simpa [State.writeStack] using (by omega : a + 1 + n ≤ s.cfg.stackCapacity)) h
        (c.writeStack _ _ _ (by simpa [hl] using (by omega : a + 1 ≤ s.cfg.stackCapacity)) hp)

theorem portWrite (c : Closed P) {w : PortWrite} {s s' : State} (h : portWrite w s = some s') (hs : P s) : P s' := by
  cases w <;> simp only [Machine.portWrite] at h
  case pc t => cases h; exact c.jumpTo _ _ hs
  all_goals
    split at h
    · rename_i hr
      cases h
      first
        | exact c.setReg _ _ _ hs
        | exact c.writeStack _ _ _ hr hs
        | exact c.setSp _ _ (.inl hr) hs
        | exact c.setSi _ _ (.inl hr) hs
        | exact c.setFrameBase _ _ _ hr.1 (.inl hr.2) hs
        | exact c.setFrameRet _ _ _ hs
    · cases h

theorem callbackActs (c : Closed P) {acts : List CallbackAct} {s s' : State} (h : callbackActs acts s = .ok s')
    (hs : P s) : P s' := by
  induction acts generalizing s with
  | nil => cases h; exact hs
  | cons act acts ih =>
    unfold Machine.callbackActs at h
    split at h
    · rename_i s1 h1
      refine ih h ?_
      cases act <;> simp only [callbackAct] at h1
      · split at h1
        · cases h1; exact c.recordRead _ _ _ hs
        · cases h1
      · split at h1
        · rename_i hw; cases h1; exact c.portWrite hw hs
        · cases h1
      · split at h1
        · cases h1; exact c.linkName _ _ _ hs
        · cases h1
      · cases h1; exact c.stop _ hs
      all_goals cases h1
    · cases h

/-- Every instruction keeps a closed property. -/
theorem exec (c : Closed P) {i : Instr} {s t : State} (h : exec i s = .next t) (hs : P s) : P t := by
  cases i <;> dsimp only [Machine.exec] at h
  case ldr d a l =>
    unfold execLdr at h
    refine c.checkReg h hs fun d h => c.checkReg h hs fun a h => c.checkReg h hs fun l h => ?_
    refine c.checkLength h (c.noteReads _ _ hs) fun h => ?_
    split at h
    · exact c.loadInto h (c.noteReads _ _ hs)
    · exact c.raise h (c.noteReads _ _ hs)
  case str x a l =>
    unfold execStr at h
    refine c.checkReg h hs fun x h => c.checkReg h hs fun a h => c.checkReg h hs fun l h => ?_
    refine c.checkLength h (c.noteReads _ _ hs) fun h => ?_
    split at h
    · rename_i hc
      rw [inCapacity_iff] at hc
      refine c.complete h (c.writeStack _ _ _ ?_ (c.noteReads _ _ hs))
      simp only [storeBytes, toBytes_length]; omega
    · exact c.raise h (c.noteReads _ _ hs)
  case lds d p len =>
    unfold execLds at h
    refine c.checkReg h hs fun d h => c.checkLength h hs fun h => ?_
    simp only at h
    split at h
    · exact c.loadInto h hs
    · exact c.raise h hs
  case sts x p len =>
    unfold execSts at h
    refine c.checkReg h hs fun x h => c.checkLength h hs fun h => ?_
    simp only at h
    split at h
    · rename_i hc
      rw [inCapacity_iff] at hc
      refine c.complete h (c.writeStack _ _ _ ?_ (c.noteReads _ _ hs))
      simp only [storeBytes, toBytes_length]; omega
    · exact c.raise h (c.noteReads _ _ hs)
  case ldi d len =>
    unfold execLdi at h
    refine c.checkReg h hs fun d h => c.checkLength h hs fun h => ?_
    split at h
    · cases h
    · rename_i hf
      exact c.complete h (c.setReg _ _ _ (c.fetch _ _ _ _ hf hs))
  case mov d x =>
    unfold execMov at h
    refine c.checkReg h hs fun d h => c.checkReg h hs fun x h => ?_
    exact c.complete h (c.setReg _ _ _ (c.noteReads _ _ hs))
  case neg r =>
    unfold execNeg at h
    refine c.checkReg h hs fun r h => ?_
    simp only at h
    split at h
    · exact c.undefinedResult h (c.noteReads _ _ hs)
    · exact c.complete h (c.setReg _ _ _ (c.noteReads _ _ hs))
  case invoke index =>
    unfold execInvoke at h
    split at h
    · exact c.raise h hs
    · split at h
      · exact c.raise h hs
      · split at h
        · rename_i ha
          exact c.complete h (c.callbackActs ha (c.recordInvocation _ _ hs))
        · cases h
  case not d a =>
    unfold execNot at h
    refine c.checkReg h hs fun d h => c.checkReg h hs fun a h => ?_
    exact c.complete h (c.setReg _ _ _ (c.noteReads _ _ hs))
  case cmp k d a b =>
    unfold execCmp at h
    split at h
    · exact c.raise h hs
    · refine c.checkReg h hs fun d h => c.checkReg h hs fun a h => c.checkReg h hs fun b h => ?_
      exact c.complete h (c.setReg _ _ _ (c.noteReads _ _ hs))
  case jmp r p =>
    unfold execJmp at h
    refine c.checkReg h hs fun r h => ?_
    simp only at h
    split at h
    · exact c.complete h (c.jumpTo _ _ (c.noteReads _ _ hs))
    · exact c.complete h (c.noteReads _ _ hs)
  case call p =>
    unfold execCall at h
    split at h
    · exact c.raise h hs
    · exact c.complete h (c.jumpTo _ _ (c.setFrameRet _ _ _ hs))
  case scope n =>
    unfold execScope at h
    split at h
    · exact c.raise h hs
    · rename_i hd
      split at h
      · exact c.raise h hs
      · rename_i hc
        simp only [Bool.not_eq_true, Bool.not_eq_false', inCapacity_iff] at hc
        split at h
        · cases h
        · rename_i s1 h1
          have hp := c.copyToStack (s := s.setFrameBase (s.si + 1) s.sp) (by simp only [setFrameBase_cfg]; omega) h1
            (c.setFrameBase _ _ _ (by omega) (.inr rfl) hs)
          obtain ⟨fu', bs, -, -, rfl⟩ := copyToStack_some h1
          refine c.complete h (c.setSi _ _ (.inl ?_) (c.setSp _ _ (.inl ?_) hp))
          · simp only [setSp_cfg, setFrameBase_cfg, setFrameBase_si]; omega
          · simp only [setFrameBase_cfg, setFrameBase_sp]; omega
  case endScope =>
    unfold execEndScope at h
    split at h
    · exact c.raise h hs
    · refine c.complete h (c.setSi _ _ (.inr (Nat.sub_le _ _)) ?_)
      have h1 := c.setSp s _ (.inr ⟨s.si, rfl⟩) hs
      split
      · exact c.jumpTo _ _ (c.setFrameRet _ _ _ h1)
      · exact h1
  case eop => cases h; exact c.answer _ _ (c.stop _ hs)
  all_goals exact c.threeOperand h hs

theorem fetchFields (c : Closed P) {ns : List Nat} {s s' : State} {vals : List Nat}
    (h : fetchFields ns s = some (vals, s')) (hs : P s) : P s' := by
  induction ns generalizing s s' vals with
  | nil => cases h; exact hs
  | cons n ns ih =>
    unfold Machine.fetchFields at h
    split at h
    · cases h
    · rename_i v s1 h1
      obtain ⟨⟨vals', s2⟩, h2, h3⟩ := Option.map_eq_some_iff.1 h
      cases h3
      obtain ⟨⟨bs, s3⟩, h4, h5⟩ := Option.map_eq_some_iff.1 h1
      cases h5
      exact ih h2 (c.fetch _ _ _ _ h4 hs)

/-- Every `step` transaction keeps a closed property. -/
theorem runStep (c : Closed P) {s t : State} (h : runStep s = .next t) (hs : P s) : P t := by
  have hv : ∀ {n s v s'}, fetchValue n s = some (v, s') → P s → P s' := fun {n s v s'} hf hs => by
    obtain ⟨⟨bs, s3⟩, h4, h5⟩ := Option.map_eq_some_iff.1 hf
    cases h5
    exact c.fetch _ _ _ _ h4 hs
  unfold Machine.runStep at h
  split at h
  · unfold runInstr fetchInstr at h
    have h0 := c.opAddr _ hs
    split at h
    · rename_i heq
      split at heq
      · cases heq
      · rename_i h1
        split at heq
        · cases heq
        · split at heq
          · cases heq
          · rename_i h2
            cases heq
            exact c.exec h (c.fetchFields h2 (hv h1 h0))
    · rename_i heq
      split at heq
      · cases heq
      · rename_i h1
        split at heq
        · cases heq; exact c.raise h (hv h1 h0)
        · split at heq <;> cases heq
    · cases h
  · cases h; exact c.answer _ _ hs

end Closed

end Sys2Proof.Machine
end

