-- ==== Sys2Proof/Tests/Slice0.lean ====
section
/-! SUPPORT. The tests: words and expected results from spec/95_test_vectors.md (the vector's id stands in each comment) or worked out
from the rules, and for every statement with hypotheses a witness that meets them. -/

namespace Sys2Proof.Tests

open Sys2Proof Sys2Proof.Machine Sys2Proof.Safety

/-! ## The harness of 95_test_vectors section 0 -/

/-- The 12-byte header of the harness. -/
def head12 : List Byte := [1, 0, 0, 0, 0, 0, 0, 0, 0, 0, 0, 0]

/-- The instruction under test at offset 12, an EOP after it, the registers and `sp` as given. -/
def at12 (cfg : Config) (body : List Byte) (regs : List (Fin 6 × Nat)) (sp : Nat) : State :=
  let s := { State.blank cfg with
    fu := { FetchUnit.empty (head12 ++ body ++ [0x17]) [] with pc := 12, base := 12 }
    running := true
    ready := true
    initDone := true
    sp := sp }
  regs.foldl (fun s x => s.setReg x.1 (BitVec.ofNat 64 x.2)) s

/-- The harness under the default configuration. -/
def at0 (body : List Byte) (regs : List (Fin 6 × Nat)) (sp : Nat) : State := at12 defaultConfig body regs sp

def bigCfg : Config := { defaultConfig with endian := .big }
def unsignedCfg : Config := { defaultConfig with cmpSigned := false, divSigned := false }
def arithCfg : Config := { defaultConfig with lsrArithmetic := true }
def stopCfg : Config := { defaultConfig with hostArithStops := true }
def streamCfg : Config := { defaultConfig with fetchMode := .streaming, windowSize := 8 }

def nextOf : Result → Option State
  | .next t => some t
  | .fault _ => none
  | .refused _ => none

def stopOf : Result → Option Fault
  | .next _ => none
  | .fault f => some f
  | .refused _ => none

def refusalOf : Result → Option Refusal
  | .next _ => none
  | .fault _ => none
  | .refused r => some r

/-- A register, `pc` and the answer after one step. -/
structure RegSeen where
  (value pc : Nat)
  answer : Option HostResult
  deriving DecidableEq

def reg (r : Fin 6) (s : State) : Option RegSeen :=
  (nextOf (step s)).map fun t => ⟨(t.readReg r).toNat, t.pc.toNat, t.result⟩

/-- Stack bytes, `sp` and `pc` after one step. -/
structure BytesSeen where
  bytes : Option (List Byte)
  (sp pc : Nat)
  deriving DecidableEq

def bytes (a n : Nat) (s : State) : Option BytesSeen :=
  (nextOf (step s)).map fun t => ⟨memReadBytes t.stack a n, t.sp, t.pc.toNat⟩

/-- The fault recorded by one step, with `pc` and `running` after it. -/
structure FaultSeen where
  record : Option FaultRecord
  pc : Nat
  running : Bool
  deriving DecidableEq

def fault (s : State) : Option FaultSeen :=
  (nextOf (step s)).map fun t => ⟨t.fault, t.pc.toNat, t.running⟩

/-- A register written with `v`, the step OK. -/
def wrote (v pc : Nat) : Option RegSeen := some ⟨v, pc, some .ok⟩

/-- A fault at 12. -/
def faulted (f : FaultInfo) : Option FaultSeen := some ⟨some ⟨f, 12⟩, 12, false⟩

def regRange (offset : Nat) (r : Byte) := faulted (.registerRange offset r)

/-! ## Well-formedness: every check refuses an ill-formed term (R5, R95, R97, R100, R102) -/

theorem test_wellFormed_registers :
    (Instr.ldr 6 0 0).wellFormed defaultConfig = false ∧ (Instr.str 0 6 0).wellFormed defaultConfig = false ∧
    (Instr.lds 6 0 1).wellFormed defaultConfig = false ∧ (Instr.sts 255 0 1).wellFormed defaultConfig = false ∧
    (Instr.ldi 6 1).wellFormed defaultConfig = false ∧ (Instr.mov 0 6).wellFormed defaultConfig = false ∧
    (Instr.neg 6).wellFormed defaultConfig = false ∧ (Instr.add 0 0 6).wellFormed defaultConfig = false ∧
    (Instr.sub 0 6 0).wellFormed defaultConfig = false ∧ (Instr.mul 6 0 0).wellFormed defaultConfig = false ∧
    (Instr.div 0 0 7).wellFormed defaultConfig = false ∧ (Instr.and 6 0 0).wellFormed defaultConfig = false ∧
    (Instr.orr 6 0 0).wellFormed defaultConfig = false ∧ (Instr.xor 0 0 6).wellFormed defaultConfig = false ∧
    (Instr.not 0 6).wellFormed defaultConfig = false ∧ (Instr.lsl 0 6 0).wellFormed defaultConfig = false ∧
    (Instr.lsr 0 0 6).wellFormed defaultConfig = false ∧ (Instr.cmp 0 6 0 0).wellFormed defaultConfig = false ∧
    (Instr.jmp 6 0).wellFormed defaultConfig = false ∧ (Instr.add 5 5 5).wellFormed defaultConfig = true := by decide

theorem test_wellFormed_lengths_and_kind :
    (Instr.lds 0 0 5).wellFormed defaultConfig = false ∧ (Instr.sts 0 0 5).wellFormed defaultConfig = false ∧
    (Instr.ldi 0 5).wellFormed defaultConfig = false ∧ (Instr.ldi 0 5).wellFormed { defaultConfig with wordSize := .w8 } = true ∧
    (Instr.cmp 6 0 0 0).wellFormed defaultConfig = false ∧ (Instr.cmp 5 5 5 5).wellFormed defaultConfig = true := by decide

theorem test_legal_config :
    defaultConfig.Legal ∧ ¬ Config.Legal { defaultConfig with stackCapacity := 0 } ∧
    ¬ Config.Legal { defaultConfig with scopeLimit := 0 } ∧ ¬ Config.Legal { defaultConfig with maxImports := 65537 } ∧
    ¬ Config.Legal { defaultConfig with windowSize := 3 } ∧
    ¬ Config.Legal { defaultConfig with opcodes := Vector.replicate 24 0 } := by decide

/-! ## Decoding: a word per constructor, written out from R92 and R93 -/

def dec (bs : List Byte) : Decoded := decode defaultConfig bs

theorem test_decode_memory :
    dec [0x00, 5, 3, 4] = .instr (.ldr 5 3 4) [] ∧ dec [0x01, 0, 1, 2] = .instr (.str 0 1 2) [] ∧
    dec [0x02, 0, 0xFC, 0xFF, 0xFF, 0xFF, 4] = .instr (.lds 0 (-4) 4) [] ∧
    dec [0x03, 2, 0x08, 0, 0, 0, 2] = .instr (.sts 2 8 2) [] ∧
    dec [0x04, 1, 2, 0x12, 0x34] = .instr (.ldi 1 2) [0x12, 0x34] ∧ dec [0x05, 3, 1] = .instr (.mov 3 1) [] := by decide

theorem test_decode_arithmetic :
    dec [0x06, 4] = .instr (.neg 4) [] ∧ dec [0x08, 2, 0, 1] = .instr (.add 2 0 1) [] ∧
    dec [0x09, 2, 0, 1] = .instr (.sub 2 0 1) [] ∧ dec [0x0A, 2, 0, 1] = .instr (.mul 2 0 1) [] ∧
    dec [0x0B, 2, 0, 1] = .instr (.div 2 0 1) [] ∧ dec [0x0C, 2, 0, 1] = .instr (.and 2 0 1) [] ∧
    dec [0x0D, 2, 0, 1] = .instr (.orr 2 0 1) [] ∧ dec [0x0E, 2, 0, 1] = .instr (.xor 2 0 1) [] ∧
    dec [0x0F, 2, 0] = .instr (.not 2 0) [] ∧ dec [0x10, 2, 0, 1] = .instr (.lsl 2 0 1) [] ∧
    dec [0x11, 2, 0, 1] = .instr (.lsr 2 0 1) [] ∧ dec [0x12, 4, 3, 2, 1] = .instr (.cmp 4 3 2 1) [] := by decide

theorem test_decode_control :
    dec [0x07, 0x01, 0x02] = .instr (.invoke 0x201) [] ∧
    dec [0x13, 3, 0x18, 0x01, 0, 0] = .instr (.jmp 3 0x118) [] ∧
    dec [0x14, 0x20, 0, 0, 0x01] = .instr (.call 0x1000020) [] ∧
    dec [0x15, 4, 0, 0, 0, 0xAA] = .instr (.scope 4) [0xAA] ∧ dec [0x16, 7] = .instr .endScope [7] ∧
    dec [0x17] = .instr .eop [] ∧ dec [0x18, 0] = .undefinedOpcode 0x18 ∧ dec [0xFF] = .undefinedOpcode 0xFF ∧
    dec [] = .short ∧ dec [0x14, 0, 0, 0] = .short := by decide

/-- R8 in the other byte order, and a map that is not the default one (R92). -/
theorem test_decode_order_and_map :
    decode bigCfg [0x07, 0x01, 0x02] = .instr (.invoke 0x102) [] ∧
    decode bigCfg [0x13, 3, 0, 0, 1, 0x18] = .instr (.jmp 3 0x118) [] ∧
    decode { defaultConfig with opcodes := defaultOpcodes.set 5 0x80 } [0x80, 1, 2] = .instr (.mov 1 2) [] ∧
    decode { defaultConfig with opcodes := defaultOpcodes.set 5 0x80 } [0x05, 1, 2] = .undefinedOpcode 5 := by decide

theorem test_encode_words :
    encode defaultConfig (.lds 0 (-4) 4) = [0x02, 0, 0xFC, 0xFF, 0xFF, 0xFF, 4] ∧
    encodeWith defaultConfig (.ldi 1 4) [0xFE, 0xFF, 0xFF, 0xFF] = [0x04, 1, 4, 0xFE, 0xFF, 0xFF, 0xFF] ∧
    encode bigCfg (.jmp 0 24) = [0x13, 0, 0, 0, 0, 24] ∧
    decodeTableWord 32 0x01000208 = some (.add 2 0 1) ∧ decodeTableWord 8 0x17 = some .eop ∧
    decodeTableWord 8 0x18 = none := by decide

/-! ## Loads, stores, moves (95_test_vectors 2.1): the vectors, then a witness for each clause at its boundary -/

/-- The harness with bytes on the stack. -/
def withStack (s : State) (a : Nat) (bs : List Byte) : State := s.writeStack a bs

def ldrAt (x3 x4 : Nat) : State := withStack (at0 [0x00, 5, 3, 4] [(3, x3), (4, x4)] 8) 4 [0x32, 0, 0, 0]

/-- M1, M4, M2, M3, M5, M6. -/
theorem test_ldr :
    reg 5 (ldrAt 4 4) = wrote 0x32 16 ∧ reg 5 (ldrAt 8 0) = wrote 0 16 ∧
    fault (ldrAt 6 4) = faulted (.stackRange 6 4) ∧ fault (ldrAt 0 5) = faulted (.operandLength 5) ∧
    fault (at0 [0x00, 6, 3, 4] [(3, 0), (4, 4)] 8) = regRange 1 6 ∧
    fault (ldrAt 0xFFFFFFFC 4) = faulted (.stackRange 0xFFFFFFFC 4) := by decide

theorem witness_LdrResult :
    Written (ldrAt 4 4) [3, 4] ∧
    (ldrAt 0 5).cfg.wordBytes < ((ldrAt 0 5).readReg 4).toNat ∧
    (((ldrAt 5 4).readReg 4).toNat ≤ 4 ∧ (ldrAt 5 4).sp < ((ldrAt 5 4).readReg 3).toNat + 4) ∧
    (((ldrAt 4 4).readReg 3).toNat + ((ldrAt 4 4).readReg 4).toNat = (ldrAt 4 4).sp ∧
      memReadBytes (ldrAt 4 4).stack 4 4 = some [0x32, 0, 0, 0]) ∧
    (((ldrAt 3 4).readReg 3).toNat + ((ldrAt 3 4).readReg 4).toNat ≤ (ldrAt 3 4).sp ∧
      memRead (ldrAt 3 4).stack (3 + 0) = none ∧ stopOf (step (ldrAt 3 4)) = some (.unwrittenStack 3 4)) := by decide

theorem witness_BytesAt : BytesAt (ldrAt 4 4).stack 4 [0x32, 0, 0, 0] := by unfold BytesAt; decide

def strAt (cfg : Config) (x1 x2 : Nat) : State := at12 cfg [0x01, 0, 1, 2] [(0, 0x11223344), (1, x1), (2, x2)] 0

/-- M7, M8, M10, M9. -/
theorem test_str :
    bytes 0 2 (strAt defaultConfig 0 2) = some ⟨some [0x44, 0x33], 0, 16⟩ ∧
    bytes 62 2 (strAt defaultConfig 62 2) = some ⟨some [0x44, 0x33], 0, 16⟩ ∧
    bytes 0 4 (strAt bigCfg 0 4) = some ⟨some [0x11, 0x22, 0x33, 0x44], 0, 16⟩ ∧
    fault (strAt defaultConfig 63 2) = faulted (.stackRange 63 2) := by decide

theorem witness_StrResult :
    Written (strAt defaultConfig 60 4) [0, 1, 2] ∧
    (strAt defaultConfig 0 5).cfg.wordBytes < ((strAt defaultConfig 0 5).readReg 2).toNat ∧
    (strAt defaultConfig 61 4).cfg.stackCapacity <
      ((strAt defaultConfig 61 4).readReg 1).toNat + ((strAt defaultConfig 61 4).readReg 2).toNat ∧
    ((strAt defaultConfig 60 4).readReg 1).toNat + ((strAt defaultConfig 60 4).readReg 2).toNat =
      (strAt defaultConfig 60 4).cfg.stackCapacity := by decide

def ldsAt (cfg : Config) (p : List Byte) (n : Byte) (a : Nat) (bs : List Byte) : State :=
  withStack (at12 cfg ([0x02, 0] ++ p ++ [n]) [] 8) a bs

/-- M11, M12, M14, M15, M16, M13, M17. -/
theorem test_lds :
    reg 0 (ldsAt defaultConfig [0, 0, 0, 0] 4 0 [0x0A, 0, 0, 0]) = wrote 0xA 19 ∧
    reg 0 (ldsAt defaultConfig [0xFC, 0xFF, 0xFF, 0xFF] 4 4 [0x44, 0x33, 0x22, 0x11]) = wrote 0x11223344 19 ∧
    reg 0 (ldsAt defaultConfig [8, 0, 0, 0] 2 8 [1, 2]) = wrote 0x201 19 ∧
    reg 0 (ldsAt defaultConfig [0, 0, 0, 0] 2 0 [0x44, 0x33, 0x22, 0x11]) = wrote 0x3344 19 ∧
    reg 0 (ldsAt bigCfg [0, 0, 0, 0] 2 0 [0x11, 0x22, 0x33, 0x44]) = wrote 0x1122 19 ∧
    fault (ldsAt defaultConfig [0xF7, 0xFF, 0xFF, 0xFF] 1 0 []) = faulted (.stackRange (-1) 1) ∧
    stopOf (step (ldsAt defaultConfig [20, 0, 0, 0] 4 0 [])) = some (.unwrittenStack 20 4) := by decide

/-- For LDS and STS: the effective address of -9 is -1, of 61 with length 4 ends at 65, of 60 at 64, all at `sp` 8. -/
theorem witness_LdsResult_StsResult :
    Written (at0 [] [(2, 50)] 8) [2] ∧
    ((4 : Byte).toNat ≤ defaultConfig.wordBytes) ∧ (8 : Int) + (-9 : BitVec 32).toInt < 0 ∧
    (defaultConfig.stackCapacity : Int) < (61 : BitVec 32).toInt + 4 ∧
    (60 : BitVec 32).toInt = (60 : Nat) ∧ 60 + 4 ≤ defaultConfig.stackCapacity ∧
    (8 : Int) + (-8 : BitVec 32).toInt = (0 : Nat) ∧
    memReadBytes (ldsAt defaultConfig [0, 0, 0, 0] 4 60 [1, 2, 3, 4]).stack 60 4 = some [1, 2, 3, 4] ∧
    memRead (ldsAt defaultConfig [0, 0, 0, 0] 4 60 [1, 2, 3]).stack (60 + 3) = none := by decide

/-- M18, M19, M20, and the last word of the stack. -/
theorem test_sts :
    bytes 4 4 (at0 [0x03, 2, 0xFC, 0xFF, 0xFF, 0xFF, 4] [(2, 50)] 8) = some ⟨some [0x32, 0, 0, 0], 8, 19⟩ ∧
    fault (at0 [0x03, 6, 0, 0, 0, 0, 9] [] 0) = regRange 1 6 ∧
    fault (at0 [0x03, 0, 0, 0, 0, 0, 9] [(0, 1)] 0) = faulted (.operandLength 9) ∧
    bytes 60 4 (at0 [0x03, 2, 60, 0, 0, 0, 4] [(2, 0x01020304)] 8) = some ⟨some [4, 3, 2, 1], 8, 19⟩ ∧
    fault (at0 [0x03, 2, 61, 0, 0, 0, 4] [(2, 50)] 8) = faulted (.stackRange 61 4) := by decide

/-- M21, M22, M23, M25, M24, W2. -/
theorem test_ldi :
    reg 0 (at0 [0x04, 0, 1, 4] [] 0) = wrote 4 16 ∧
    reg 1 (at0 [0x04, 1, 4, 0xFE, 0xFF, 0xFF, 0xFF] [] 0) = wrote 0xFFFFFFFE 19 ∧
    reg 1 (at0 [0x04, 1, 0] [] 0) = wrote 0 15 ∧ reg 1 (at0 [0x04, 1, 2, 0x12, 0x34] [] 0) = wrote 0x3412 17 ∧
    reg 1 (at12 bigCfg [0x04, 1, 2, 0x12, 0x34] [] 0) = wrote 0x1234 17 ∧
    fault (at0 [0x04, 1, 5, 1, 2, 3, 4, 5] [] 0) = faulted (.operandLength 5) ∧
    stopOf (step (at0 [0x04, 0, 4, 1, 2] [] 0)) = some .fetchUndefined ∧
    stopOf (step (at12 streamCfg [0x04, 0, 4, 1, 2] [] 0)) = some .fetchUndefined := by decide

/-- M26, M28, and M27, where the model marks the read (log 6). -/
theorem test_mov :
    reg 3 (at0 [0x05, 3, 1] [(1, 0xFFFFFFFE)] 0) = wrote 0xFFFFFFFE 15 ∧
    reg 0 (at0 [0x05, 0, 0] [(0, 7)] 0) = wrote 7 15 ∧
    (nextOf (step (at0 [0x05, 3, 1] [] 0))).map State.unwrittenReads = some [1] := by decide

/-- STS, STR, LDS and LDR at address 4, in both byte orders; R54's example value. -/
theorem witness_StoreThenLoad (cfg : Config) (h : cfg = defaultConfig ∨ cfg = bigCfg) :
    (let s := at12 cfg [] [(0, 0x11223344), (1, 4), (2, 2)] 8;
      IsStore s (.sts 0 (-4) 4) 0x11223344 4 4 ∧ IsStore s (.str 0 1 1) 0x11223344 4 4 ∧
      IsLoad s (.lds 5 4 2) 5 2 4 ∧ IsLoad s (.ldr 5 1 2) 5 2 4) ∧
    4 ≤ cfg.wordBytes ∧ 2 ≤ 4 ∧ 4 + 4 ≤ cfg.stackCapacity := by
  rcases h with rfl | rfl
  · exact ⟨⟨.inr ⟨0, -4, 4, by decide⟩, .inl ⟨0, 1, 1, by decide⟩, .inr ⟨4, 2, by decide⟩, .inl ⟨1, 2, by decide⟩⟩, by decide⟩
  · exact ⟨⟨.inr ⟨0, -4, 4, by decide⟩, .inl ⟨0, 1, 1, by decide⟩, .inr ⟨4, 2, by decide⟩, .inl ⟨1, 2, by decide⟩⟩, by decide⟩

/-! ## Arithmetic (2.2, 2.3, 2.4) -/

def op3 (cfg : Config) (opcode : Byte) (x0 x1 : Nat) : State := at12 cfg [opcode, 2, 0, 1] [(0, x0), (1, x1)] 0

/-- N1, N2, N3, N4, N5. -/
theorem test_neg :
    reg 0 (at0 [0x06, 0] [(0, 5)] 0) = wrote 0xFFFFFFFB 14 ∧ reg 0 (at0 [0x06, 0] [(0, 0)] 0) = wrote 0 14 ∧
    reg 0 (at0 [0x06, 0] [(0, 0x7FFFFFFF)] 0) = wrote 0x80000001 14 ∧
    stopOf (step (at12 stopCfg [0x06, 0] [(0, 0x80000000)] 0)) = some (.undefinedResult .negOverflow) ∧
    fault (at0 [0x06, 6] [] 0) = regRange 1 6 := by decide

theorem witness_NegResult :
    Written (at12 stopCfg [0x06, 0] [(0, 0x80000000)] 0) [0] ∧
    ((at0 [0x06, 0] [(0, 0x80000001)] 0).readReg 0).toNat ≠ 2 ^ (defaultConfig.bits - 1) ∧
    ((at0 [0x06, 0] [(0, 0x80000000)] 0).readReg 0).toNat = 2 ^ (defaultConfig.bits - 1) ∧
    ((at12 stopCfg [0x06, 0] [(0, 0x80000000)] 0).readReg 0).toNat = 2 ^ (stopCfg.bits - 1) ∧
    stopCfg.hostArithStops = true := by decide

/-- A1, A2, A3, A28. -/
theorem test_add :
    reg 2 (op3 defaultConfig 0x08 0xFFFFFFFF 1) = wrote 0 16 ∧
    reg 2 (op3 defaultConfig 0x08 0x7FFFFFFF 1) = wrote 0x80000000 16 ∧
    reg 0 (at0 [0x08, 0, 0, 0] [(0, 3)] 0) = wrote 6 16 ∧
    fault (at0 [0x08, 2, 0, 6] [(0, 1)] 0) = regRange 3 6 := by decide

/-- A4, and in 64-bit words. -/
theorem test_sub :
    reg 2 (op3 defaultConfig 0x09 0 1) = wrote 0xFFFFFFFF 16 ∧
    reg 2 (op3 { defaultConfig with wordSize := .w8 } 0x09 0 1) = wrote 0xFFFFFFFFFFFFFFFF 16 := by decide

/-- A5, A6, A7. -/
theorem test_mul :
    reg 2 (op3 defaultConfig 0x0A 0x10000 0x10000) = wrote 0 16 ∧
    reg 2 (op3 defaultConfig 0x0A 0xFFFFFFFF 0xFFFFFFFF) = wrote 1 16 ∧
    reg 2 (op3 defaultConfig 0x0A 0xFFFFFFFD 4) = wrote 0xFFFFFFF4 16 := by decide

/-- A8, A9, A10, A11, A12, A15, A13, A14. -/
theorem test_div :
    [op3 defaultConfig 0x0B 7 2, op3 defaultConfig 0x0B 0xFFFFFFF9 2, op3 defaultConfig 0x0B 7 0xFFFFFFFE,
      op3 defaultConfig 0x0B 0xFFFFFFF9 0xFFFFFFFE, op3 unsignedCfg 0x0B 0xFFFFFFF9 2,
      op3 unsignedCfg 0x0B 0x80000000 0xFFFFFFFF].map (reg 2) =
      [wrote 3 16, wrote 0xFFFFFFFD 16, wrote 0xFFFFFFFD 16, wrote 3 16, wrote 0x7FFFFFFC 16, wrote 0 16] ∧
    stopOf (step (op3 stopCfg 0x0B 5 0)) = some (.undefinedResult .divByZero) ∧
    stopOf (step (op3 stopCfg 0x0B 0x80000000 0xFFFFFFFF)) = some (.undefinedResult .divOverflow) := by decide

theorem witness_DivResult :
    Written (op3 stopCfg 0x0B 5 0) [0, 1] ∧ stopCfg.hostArithStops = true ∧ ((op3 stopCfg 0x0B 5 0).readReg 1).toNat = 0 ∧
    (stopCfg.divSigned = true ∧ ((op3 stopCfg 0x0B 0x80000000 0xFFFFFFFF).readReg 0).toNat = 2 ^ (stopCfg.bits - 1) ∧
      ((op3 stopCfg 0x0B 0x80000000 0xFFFFFFFF).readReg 1).toNat = 2 ^ stopCfg.bits - 1) ∧
    ((op3 stopCfg 0x0B 0x80000001 0xFFFFFFFF).readReg 0).toNat ≠ 2 ^ (stopCfg.bits - 1) ∧
    (unsignedCfg.divSigned = false ∧ ((op3 unsignedCfg 0x0B 5 1).readReg 1).toNat ≠ 0) := by decide

/-- A16. -/
theorem test_and : reg 2 (op3 defaultConfig 0x0C 0xF0F0F0F0 0x0FF00FF0) = wrote 0x00F000F0 16 := by decide

/-- A17. -/
theorem test_orr : reg 2 (op3 defaultConfig 0x0D 0xF0F0F0F0 0x0FF00FF0) = wrote 0xFFF0FFF0 16 := by decide

/-- A18, A19. -/
theorem test_xor :
    reg 2 (op3 defaultConfig 0x0E 0xF0F0F0F0 0x0FF00FF0) = wrote 0xFF00FF00 16 ∧
    reg 2 (at0 [0x0E, 2, 0, 0] [(0, 0xF0F0F0F0)] 0) = wrote 0 16 := by decide

/-- A20. -/
theorem test_not : reg 2 (at0 [0x0F, 2, 0] [(0, 0x0000FFFF)] 0) = wrote 0xFFFF0000 15 := by decide

/-- A21, A22, A23. -/
theorem test_lsl :
    reg 2 (op3 defaultConfig 0x10 1 4) = wrote 16 16 ∧ reg 2 (op3 defaultConfig 0x10 1 31) = wrote 0x80000000 16 ∧
    stopOf (step (op3 stopCfg 0x10 1 32)) = some (.undefinedResult .shiftRange) := by decide

/-- A24, A26, A25, A27. -/
theorem test_lsr :
    reg 2 (op3 defaultConfig 0x11 0x80000000 4) = wrote 0x08000000 16 ∧
    reg 2 (op3 defaultConfig 0x11 0xFFFFFFFF 31) = wrote 1 16 ∧
    reg 2 (op3 arithCfg 0x11 0x80000000 4) = wrote 0xF8000000 16 ∧
    stopOf (step (op3 stopCfg 0x11 1 0xFFFFFFFF)) = some (.undefinedResult .shiftRange) := by decide

theorem witness_LslResult_LsrResult :
    Written (op3 stopCfg 0x11 1 32) [0, 1] ∧ stopCfg.hostArithStops = true ∧
    ((op3 defaultConfig 0x11 1 31).readReg 1).toNat < defaultConfig.bits ∧
    defaultConfig.bits ≤ ((op3 defaultConfig 0x11 1 32).readReg 1).toNat ∧
    defaultConfig.lsrArithmetic = false ∧ arithCfg.lsrArithmetic = true := by decide

/-- AddSubMulResult, BitwiseResult, CmpResult, MovResult: written sources. -/
theorem witness_written_sources :
    Written (op3 defaultConfig 0x08 7 0xFFFFFFFE) [0, 1] ∧ Written (at0 [0x05, 3, 1] [(1, 5)] 0) [1] := by decide

/-- HostArithmeticGoesOn, with each of its conditions at its edge. -/
theorem witness_HostArithmeticGoesOn :
    defaultConfig.hostArithStops = false ∧ Written (op3 defaultConfig 0x0B 5 0) [0, 1] ∧
    ((at0 [] [(0, 0x80000000)] 0).readReg 0).toNat = 2 ^ (defaultConfig.bits - 1) ∧
    ((op3 defaultConfig 0x0B 0x80000000 0xFFFFFFFF).readReg 1).toNat = 2 ^ defaultConfig.bits - 1 ∧
    defaultConfig.divSigned = true ∧ ((op3 defaultConfig 0x10 1 32).readReg 1).toNat = defaultConfig.bits := by decide

/-- Where the host's arithmetic goes on, the instruction completes, whatever the value is (log 8). -/
theorem test_host_arithmetic_goes_on :
    ((nextOf (step (op3 defaultConfig 0x0B 5 0))).map fun t => (t.result, t.pc.toNat, t.draws, t.undefinedResults)) =
      some (some .ok, 16, 1, [.divByZero]) ∧
    ((nextOf (step (op3 defaultConfig 0x10 1 32))).map fun t => (t.result, t.readReg 0)) = some (some .ok, 1) := by decide

def cmpAt (cfg : Config) (k : Byte) (x0 x1 : Nat) : State := at12 cfg [0x12, k, 2, 0, 1] [(0, x0), (1, x1)] 0

/-- K1, K2, K3, K4, K5, K6, K7, K8, K9, K10. -/
theorem test_cmp :
    [cmpAt defaultConfig 2 7 0xFFFFFFFE, cmpAt unsignedCfg 2 7 0xFFFFFFFE, cmpAt defaultConfig 0 7 7,
      cmpAt defaultConfig 1 7 7, cmpAt defaultConfig 3 7 0xFFFFFFFE, at0 [0x12, 4, 2, 0, 0] [(0, 7)] 0,
      cmpAt defaultConfig 5 7 8].map (reg 2) =
      [wrote 1 17, wrote 0 17, wrote 1 17, wrote 0 17, wrote 0 17, wrote 1 17, wrote 1 17] ∧
    fault (cmpAt defaultConfig 6 7 8) = faulted (.cmpKind 6) ∧ fault (at0 [0x12, 7, 9, 0, 1] [] 0) = faulted (.cmpKind 7) ∧
    fault (at0 [0x12, 0, 9, 0, 1] [] 0) = regRange 2 9 := by decide

/-- A first bad field of every instruction that has fields to check (R213), for `FieldFaults` and `IllegalFieldsFault`. -/
theorem witness_FieldFaults :
    [Instr.ldr 6 9 9, .str 6 0 0, .mov 6 9, .neg 6, .add 6 9 9, .sub 6 0 0, .mul 6 0 0, .div 6 0 0, .and 6 0 0, .orr 6 0 0,
      .xor 6 0 0, .not 6 9, .lsl 6 0 0, .lsr 6 0 0, .jmp 6 0, .lds 6 0 9, .sts 6 0 9, .ldi 6 9].map
        (firstBadField defaultConfig) = List.replicate 18 (some (.registerRange 1 6)) ∧
    firstBadField defaultConfig (.add 5 5 6) = some (.registerRange 3 6) ∧
    firstBadField defaultConfig (.cmp 6 9 9 9) = some (.cmpKind 6) ∧
    firstBadField defaultConfig (.cmp 5 0 0 255) = some (.registerRange 4 255) ∧
    firstBadField defaultConfig (.lds 5 0 5) = some (.operandLength 5) ∧
    firstBadField defaultConfig (.lds 5 0 4) = none := by decide

/-! ## Control and scopes (2.5) -/

/-- `pc`, `sp`, `si`, frame 1 and the answer after one step. -/
structure ControlSeen where
  (pc sp si : Nat)
  frame : Frame
  answer : Option HostResult
  deriving DecidableEq

def control (s : State) : Option ControlSeen :=
  (nextOf (step s)).map fun t => ⟨t.pc.toNat, t.sp, t.si, t.frame 1, t.result⟩

/-- The harness at a scope index, with frame 1 as given. -/
def atScope (body : List Byte) (sp si : Nat) (f : Frame) : State :=
  { at0 body [] sp with si := si, frames := [⟨0, 0⟩, f, ⟨0, 0⟩, ⟨0, 0⟩] }

/-- J1, J2, J3, J4. -/
theorem test_jmp :
    control (at0 [0x13, 0, 24, 0, 0, 0] [(0, 2)] 0) = some ⟨24, 0, 0, ⟨0, 0⟩, some .ok⟩ ∧
    control (at0 [0x13, 0, 24, 0, 0, 0] [(0, 0)] 0) = some ⟨18, 0, 0, ⟨0, 0⟩, some .ok⟩ ∧
    control (at0 [0x13, 0, 12, 0, 0, 0] [(0, 1)] 0) = some ⟨12, 0, 0, ⟨0, 0⟩, some .ok⟩ ∧
    fault (at0 [0x13, 6, 24, 0, 0, 0] [] 0) = regRange 1 6 := by decide

theorem witness_JmpResult :
    Written (at0 [] [(0, 1)] 0) [0] ∧ Written (at0 [] [(0, 0)] 0) [0] ∧
    ((at0 [] [(0, 1)] 0).readReg 0).toNat ≠ 0 ∧ ((at0 [] [(0, 0)] 0).readReg 0).toNat = 0 := by decide

/-- C1, C2. -/
theorem test_call :
    control (at0 [0x14, 32, 0, 0, 0] [] 8) = some ⟨32, 8, 0, ⟨0, 17⟩, some .ok⟩ ∧
    fault (atScope [0x14, 32, 0, 0, 0] 0 3 ⟨0, 0⟩) = faulted (.scopeDepth .callNoSlot 3) := by decide

theorem witness_CallResult :
    (at0 [] [] 0).frames.length = (at0 [] [] 0).cfg.scopeLimit ∧
    (atScope [] 0 3 ⟨0, 0⟩).cfg.scopeLimit ≤ (atScope [] 0 3 ⟨0, 0⟩).si + 1 ∧
    (atScope [] 0 2 ⟨0, 0⟩).si + 1 < (atScope [] 0 2 ⟨0, 0⟩).cfg.scopeLimit := by decide

/-- S1, S2, S3, S4, S5. -/
theorem test_scope :
    control (at0 [0x15, 4, 0, 0, 0, 0xAA, 0xBB, 0xCC, 0xDD] [] 4) = some ⟨21, 8, 1, ⟨4, 0⟩, some .ok⟩ ∧
    bytes 4 4 (at0 [0x15, 4, 0, 0, 0, 0xAA, 0xBB, 0xCC, 0xDD] [] 4) = some ⟨some [0xAA, 0xBB, 0xCC, 0xDD], 8, 21⟩ ∧
    control (at0 [0x15, 0, 0, 0, 0] [] 4) = some ⟨17, 4, 1, ⟨4, 0⟩, some .ok⟩ ∧
    fault (atScope [0x15, 4, 0, 0, 0] 0 3 ⟨0, 0⟩) = faulted (.scopeDepth .openBeyondLimit 3) ∧
    fault (at0 [0x15, 8, 0, 0, 0] [] 60) = faulted (.stackRange 60 8) ∧
    fault (atScope [0x15, 8, 0, 0, 0] 60 3 ⟨0, 0⟩) = faulted (.scopeDepth .openBeyondLimit 3) := by decide

/-- E1, E2, E3. -/
theorem test_end :
    control (atScope [0x16] 8 1 ⟨4, 21⟩) = some ⟨21, 4, 0, ⟨4, 0⟩, some .ok⟩ ∧
    control (atScope [0x16] 8 1 ⟨4, 0⟩) = some ⟨13, 4, 0, ⟨4, 0⟩, some .ok⟩ ∧
    fault (at0 [0x16] [] 8) = faulted (.scopeDepth .closeNoneOpen 0) := by decide

theorem witness_EndResult :
    (atScope [] 8 3 ⟨4, 0⟩).frames.length = (atScope [] 8 3 ⟨4, 0⟩).cfg.scopeLimit ∧
    (atScope [] 8 3 ⟨4, 0⟩).si < (atScope [] 8 3 ⟨4, 0⟩).cfg.scopeLimit ∧ (atScope [] 8 0 ⟨4, 0⟩).si = 0 ∧
    ((atScope [] 8 1 ⟨4, 0⟩).frame 1).ret = 0 ∧ ((atScope [] 8 1 ⟨4, 1⟩).frame 1).ret ≠ 0 := by decide

/-- H1, and the step after it (R250). -/
theorem test_eop :
    control (at0 [0x17] [] 0) = some ⟨13, 0, 0, ⟨0, 0⟩, some .halted⟩ ∧
    (nextOf (step (at0 [0x17] [] 0))).map State.running = some false ∧
    ((nextOf (step (at0 [0x17] [] 0))).bind fun t => (nextOf (step t)).map State.result) = some (some .notRunning) := by decide

/-- U1, U2. -/
theorem test_undefined_opcode :
    fault (at0 [0x18] [] 0) = faulted (.undefinedOpcode 0x18) ∧ fault (at0 [0xFF] [] 0) = faulted (.undefinedOpcode 0xFF) := by
  decide

theorem witness_UndefinedOpcodeFaults :
    (at0 [0x18] [] 0).commands = [] ∧ (at0 [0x18] [] 0).running = true ∧
    (fuFetch defaultConfig 1 (at0 [0x18] [] 0).fu).map Prod.fst = some [0x18] ∧
    (fuFetch streamCfg 1 (at12 streamCfg [0x18] [] 0).fu).map Prod.fst = some [0x18] ∧
    decodeOp defaultConfig 0x18 = none ∧ decodeOp defaultConfig 0x17 = some .eop ∧ defaultConfig.opcodes = defaultOpcodes := by
  decide

/-- P5: CALL 17 at 12, SCOPE 0 at 17, END at 22. -/
def p5 : State :=
  { at0 [0x14, 17, 0, 0, 0, 0x15, 0, 0, 0, 0, 0x16] [] 0 with opAddr := 12 }

theorem witness_CallScopeEndReturns :
    p5.frames.length = p5.cfg.scopeLimit ∧ p5.opAddr.toNat + 5 < 2 ^ 32 ∧
    ∃ s1 s2 s3, exec (.call 17) p5 = .next s1 ∧ s1.result = some .ok ∧ s1.cfg = p5.cfg ∧
      s1.frames.length = p5.frames.length ∧ s1.si = p5.si ∧
      exec (.scope 0) s1 = .next s2 ∧ s2.result = some .ok ∧ exec .endScope s2 = .next s3 :=
  ⟨rfl, by decide, _, _, _, rfl, rfl, rfl, rfl, rfl, rfl, rfl, rfl⟩

/-! ## INVOKE (2.6) -/

/-- P1's header: "hello" and "func2". -/
def p1Header : List Byte :=
  [1, 0, 0, 0, 2, 0, 0, 0, 0x68, 0x65, 0x6C, 0x6C, 0x6F, 0, 0x66, 0x75, 0x6E, 0x63, 0x32, 0, 0, 0, 0, 0]

def hello : List Byte := [0x68, 0x65, 0x6C, 0x6C, 0x6F]
def func2 : List Byte := [0x66, 0x75, 0x6E, 0x63, 0x32]

/-- P1 at 36 with "hello" linked to callback 7, whose next behaviour is `acts`. -/
def invokeAt (body : List Byte) (acts : List CallbackAct) : State :=
  { at0 [] [(2, 9)] 0 with
    fu := { FetchUnit.empty (p1Header ++ [4, 0, 1, 4, 4, 1, 1, 5, 8, 2, 0, 1] ++ body ++ [0x17]) [] with pc := 36 }
    nameTable := hello ++ [0] ++ func2 ++ [0]
    importCount := 2
    table := [some 7, none, none, none]
    callbackQueue := [acts] }

/-- V1: the callback reads x2 = 9, and `pc` after the INVOKE. -/
theorem test_callback_reads :
    (nextOf (step (invokeAt [7, 0, 0] [.read (.reg 2), .read .pc]))).map State.portReads =
      some [(.reg 2, .word 9), (.pc, .position 39)] := by decide

/-- V1, with a callback that reads x2 and copies it to x3; V2, V3. -/
theorem test_invoke :
    ((nextOf (step (invokeAt [7, 0, 0] [.read (.reg 2), .write (.reg 3 9)]))).map fun t =>
      (t.readReg 3, t.invocations, t.pc.toNat, t.result)) = some (9, [0], 39, some .ok) ∧
    ((nextOf (step (invokeAt [7, 2, 0] []))).map fun t => (t.fault, t.invocations, t.pc.toNat)) =
      some (some ⟨.importFault .outOfRange 2, 36⟩, [], 36) ∧
    ((nextOf (step (invokeAt [7, 1, 0] []))).map fun t => (t.fault, t.invocations, t.pc.toNat)) =
      some (some ⟨.importFault .unbound 1, 36⟩, [], 36) := by decide

/-- V2's call of the sink, and the view it is passed (R214, R218): `pc` is back, the record is made, `running` is not yet cleared. -/
theorem test_sink :
    ((nextOf (step (invokeAt [7, 2, 0] []))).map fun t => t.sinkLog.map fun c => (c.position, c.kind, c.message)) =
      some [(36, .importFault, .importIndexOutOfRange)] ∧
    ((nextOf (step (invokeAt [7, 2, 0] []))).map fun t => t.sinkLog.map fun c => (c.view.regs[2], c.view.pc, c.view.running)) =
      some [(9, 36, true)] ∧
    ((nextOf (step (invokeAt [7, 2, 0] []))).map fun t => t.sinkLog.map fun c => c.view.fault) =
      some [some ⟨.importFault .outOfRange 2, 36⟩] ∧
    ((nextOf (step { State.reset with commands := [.init [2, 0, 0, 0] []] })).map fun t =>
      t.sinkLog.map fun c => (c.position, c.view.pc, c.view.running)) = some [(0, 4, false)] := by decide

/-- V4, and a callback that moves `pc` and writes outside R175. -/
theorem test_invoke_acts :
    ((nextOf (step (invokeAt [7, 0, 0] [.stop]))).map fun t => (t.running, t.result)) = some (false, some .ok) ∧
    ((nextOf (step (invokeAt [7, 0, 0] [.write (.pc 24)]))).map fun t => t.pc.toNat) = some 24 ∧
    refusalOf (step (invokeAt [7, 0, 0] [.write (.sp 65)])) = some .portRange ∧
    refusalOf (step (invokeAt [7, 0, 0] [.callStep])) = some .callbackReentry := by decide

/-- Acts at the limits of R175. -/
def limitActs : List CallbackAct :=
  [.write (.reg 5 1), .write (.stackByte 63 1), .write (.sp 64), .write (.si 3), .write (.frameBase 3 64),
   .write (.frameRet 3 9), .write (.pc 0xFFFFFFFF), .link func2 8,
   .read (.reg 5), .read (.stackByte 63), .read (.frame 3), .read (.nameByte 31), .read (.tableSlot 3), .stop]

theorem witness_InvokeRunsCallback_InvokeResult :
    (let s := invokeAt [] limitActs;
      (0 : BitVec 16).toNat < s.importCount.toNat ∧ s.table.getD 0 none = some 7 ∧ s.ready = true ∧
      s.frames.length = s.cfg.scopeLimit ∧ s.nextActs 7 = limitActs ∧ ∀ act ∈ limitActs, actAllowed s.cfg act = true) ∧
    (invokeAt [] []).importCount.toNat ≤ (2 : BitVec 16).toNat ∧ (1 : BitVec 16).toNat < (invokeAt [] []).importCount.toNat ∧
    (invokeAt [] []).table.getD 1 none = none ∧ (invokeAt [] []).nextActs 7 = [] ∧
    (callbackActs limitActs ((invokeAt [] limitActs).recordInvocation 0)).isOk = true := by decide

/-! ## The streaming window (2.7) -/

def p2Body : List Byte :=
  [4, 0, 1, 3, 4, 1, 1, 0, 4, 2, 1, 1, 8, 1, 1, 0, 9, 0, 0, 2, 0x13, 0, 24, 0, 0, 0]

/-- The window `P, B, F` and the supplier calls after one step. -/
structure WindowSeen where
  (p b f : Nat)
  calls : List SupplyCall
  deriving DecidableEq

def window (s : State) : Option WindowSeen :=
  (nextOf (step s)).map fun t =>
    ⟨t.fu.base.toNat, t.pc.toNat - t.fu.base.toNat, t.fu.buf.length, t.fu.log⟩

def p2At (base pc : Pos) (buf : List Byte) : State :=
  { at12 streamCfg p2Body [(0, 2), (1, 3), (2, 1)] 0 with
    fu := { image := head12 ++ p2Body ++ [0x17], pc := pc, base := base, buf := buf, plan := [], log := [] } }

/-- Init, and steps 1, 2 and 6 of the trace. -/
theorem test_window_trace :
    window { State.blank streamCfg with commands := [.init (head12 ++ p2Body ++ [0x17]) []] } =
      some ⟨8, 4, 8, [⟨0, 8, 8⟩, ⟨8, 8, 8⟩]⟩ ∧
    window (p2At 8 12 [0, 0, 0, 0, 4, 0, 1, 3]) = some ⟨8, 8, 8, []⟩ ∧
    window (p2At 8 16 [0, 0, 0, 0, 4, 0, 1, 3]) = some ⟨16, 4, 8, [⟨16, 8, 8⟩]⟩ ∧
    window (p2At 24 32 [8, 1, 1, 0, 9, 0, 0, 2]) = some ⟨24, 0, 8, [⟨32, 8, 7⟩, ⟨24, 8, 8⟩]⟩ := by decide

/-- W1: a supplier that delivers at most 3 bytes a call, from an empty window. -/
theorem test_short_delivery :
    (nextOf (step { p2At 12 12 [] with fu := { (p2At 12 12 []).fu with plan := [3, 3, 3] } })).map
      (fun t => ((t.readReg 0).toNat, t.pc.toNat, t.fu.log)) = some (3, 16, [⟨12, 8, 3⟩, ⟨15, 8, 3⟩]) := by decide

theorem witness_WindowInv : WindowInv streamCfg (p2At 24 32 [8, 1, 1, 0, 9, 0, 0, 2]).fu :=
  ⟨by decide, by decide, by decide⟩

/-- FetchCallsSupplier, clause by clause: bytes buffered, a refill that suffices and one that does not, and no opcode byte. -/
theorem witness_FetchCallsSupplier :
    (let f := (p2At 24 31 [8, 1, 1, 0, 9, 0, 0, 2]).fu;
      f.base.toNat + f.buf.length - f.pc.toNat = 1 ∧ (fuFetch streamCfg 1 f).map (fun r => (r.1, r.2.log)) = some ([2], []) ∧
      (fuFetch streamCfg 4 f).map (fun r => (r.1, r.2.log)) = some ([2, 0x13, 0, 24], [⟨32, 7, 7⟩]) ∧
      (fuFetch streamCfg 4 { f with plan := [2] }).isNone = true) ∧
    (let s := p2At 39 39 [];
      s.running = true ∧ (fuFetch s.cfg 1 s.fu).isNone = true ∧ stopOf (step s) = some .fetchUndefined) := by decide

theorem witness_FetchReadsImage :
    4 ≤ streamCfg.windowSize ∧ (p2At 24 32 []).fu.plan = [] ∧ (p2At 24 32 []).fu.image.length < 2 ^ 32 ∧
    (p2At 24 32 []).fu.image.length = 39 ∧ (35 : Pos).toNat + 4 ≤ 39 ∧ 39 < (36 : Pos).toNat + 4 := by decide

theorem witness_JumpTo :
    (let s := p2At 24 32 [8, 1, 1, 0, 9, 0, 0, 2];
      s.cfg.fetchMode = .streaming ∧ s.fu.base.toNat ≤ (31 : Pos).toNat ∧
      (31 : Pos).toNat < s.fu.base.toNat + s.fu.buf.length ∧ s.fu.base.toNat + s.fu.buf.length ≤ (32 : Pos).toNat ∧
      (23 : Pos).toNat < s.fu.base.toNat) := by decide

/-! ## Init and lifecycle (section 3) -/

def initOf (cfg : Config) (image : List Byte) : State := { State.blank cfg with commands := [.init image []] }

/-- `ready`, `pc`, `sp`, the names and the answer after init. -/
structure InitSeen where
  ready : Bool
  (pc sp : Nat)
  names : List (List Byte)
  answer : Option HostResult
  deriving DecidableEq

def inited (s : State) : Option InitSeen :=
  (nextOf (step s)).map fun t => ⟨t.ready, t.pc.toNat, t.sp, t.importNames, t.result⟩

/-- `ready`, the fault record and the answer after init. -/
structure InitFaultSeen where
  ready : Bool
  record : Option FaultRecord
  answer : Option HostResult
  deriving DecidableEq

def initFault (s : State) : Option InitFaultSeen :=
  (nextOf (step s)).map fun t => ⟨t.ready, t.fault, t.result⟩

/-- I1, I6, I8, I11, I12. -/
theorem test_init :
    inited (initOf defaultConfig head12) = some ⟨true, 12, 0, [], some .initOk⟩ ∧
    inited (initOf bigCfg [0, 1, 0, 0, 0, 0, 0, 0, 0, 0, 0, 0]) = some ⟨true, 12, 0, [], some .initOk⟩ ∧
    inited (initOf { defaultConfig with nameTableCapacity := 12 } p1Header) = some ⟨true, 24, 0, [hello, func2], some .initOk⟩ ∧
    inited (initOf defaultConfig [1, 0, 0, 0, 0, 0, 0, 0, 4, 0, 0, 0, 10, 0, 0, 0]) = some ⟨true, 16, 4, [], some .initOk⟩ ∧
    inited (initOf defaultConfig [1, 0, 0, 0, 2, 0, 0, 0, 0, 0, 0, 0, 0, 0]) = some ⟨true, 14, 0, [[], []], some .initOk⟩ := by
  decide

/-- I2, I3, I4, I7, I9, I10. -/
theorem test_init_fails :
    initFault (initOf defaultConfig [2, 0, 0, 0]) = some ⟨false, some ⟨.version .majorMismatch 2 0, 0⟩, some (.initFailed .version)⟩ ∧
    initFault (initOf defaultConfig [0, 0, 0, 0]) = some ⟨false, some ⟨.version .majorMismatch 0 0, 0⟩, some (.initFailed .version)⟩ ∧
    initFault (initOf defaultConfig [1, 0, 1, 0]) = some ⟨false, some ⟨.version .minorTooNew 1 1, 2⟩, some (.initFailed .version)⟩ ∧
    initFault (initOf defaultConfig [1, 0, 0, 0, 5, 0, 0, 0]) =
      some ⟨false, some ⟨.headerFormat .tooManyImports 5 0, 4⟩, some (.initFailed .headerFormat)⟩ ∧
    initFault (initOf { defaultConfig with nameTableCapacity := 8 } p1Header) =
      some ⟨false, some ⟨.headerFormat .nameTableOverflow 2 8, 8⟩, some (.initFailed .headerFormat)⟩ ∧
    initFault (initOf defaultConfig [1, 0, 0, 0, 0, 0, 0, 0, 65, 0, 0, 0]) =
      some ⟨false, some ⟨.stackRange 0 65, 8⟩, some (.initFailed .stackRange)⟩ := by decide

/-- I5, and I11's root block in the stack. -/
theorem test_init_minor_and_root :
    inited (initOf { defaultConfig with engineMinor := 3 } [1, 0, 2, 0, 0, 0, 0, 0, 0, 0, 0, 0]) = some ⟨true, 12, 0, [], some .initOk⟩ ∧
    inited (initOf { defaultConfig with engineMinor := 3 } [1, 0, 3, 0, 0, 0, 0, 0, 0, 0, 0, 0]) = some ⟨true, 12, 0, [], some .initOk⟩ ∧
    bytes 0 4 (initOf defaultConfig [1, 0, 0, 0, 0, 0, 0, 0, 4, 0, 0, 0, 10, 0, 0, 0]) = some ⟨some [10, 0, 0, 0], 4, 16⟩ := by
  decide

/-- A state after `n` transitions. -/
def after : Nat → State → Option State
  | 0, s => some s
  | n + 1, s => (nextOf (step s)).bind (after n)

def script (image : List Byte) (cs : List HostCommand) : State :=
  { State.blank defaultConfig with commands := .init image [] :: cs }

/-- L1, L2, L3. -/
theorem test_start_and_faults :
    ((after 2 (script (head12 ++ [0x16, 0x17]) [.step])).map fun t => (t.result, t.pc.toNat)) = some (some .notRunning, 12) ∧
    ((after 3 (script (head12 ++ [0x16, 0x17]) [.start, .step])).map fun t => (t.result, t.pc.toNat, t.running)) =
      some (some (.fault .scopeDepth), 12, false) ∧
    ((after 5 (script (head12 ++ [0x16, 0x17]) [.start, .step, .start, .step])).map fun t => t.faults) =
      some [⟨.scopeDepth .closeNoneOpen 0, 12⟩, ⟨.scopeDepth .closeNoneOpen 0, 12⟩] := by decide

/-- L5: start clears the frames and not `si`. L6: the block stopped by its callback. -/
theorem test_restart_and_stop :
    ((nextOf (step { atScope [] 0 1 ⟨4, 9⟩ with commands := [.start] })).map fun t => (t.si, t.frame 1, t.running)) =
      some (1, ⟨0, 0⟩, true) ∧
    ((after 2 (invokeAt [7, 0, 0] [.stop])).map fun t => (t.result, t.pc.toNat)) = some (some .notRunning, 39) := by decide

/-- R6, R41: reads through the state-access port between steps; an unwritten byte has no value, and a seventh register is not there. -/
theorem test_reads :
    ([PortRead.reg 2, .stackByte 0, .pc, .frame 1, .nameByte 0, .importCount, .tableSlot 0, .fault].map fun q =>
      (nextOf (step { invokeAt [] [] with commands := [.read q] })).bind State.result) =
      [PortValue.word 9, .byte none, .position 36, .frame ⟨0, 0⟩, .byte (some 0x68), .number 2, .slot (some 7), .fault none].map
        (fun v => some (.value v)) ∧
    refusalOf (step { at0 [] [] 0 with commands := [.read (.reg 6)] }) = some .portRange := by decide

/-- R172, R252 and the refusals of the command port. -/
theorem test_commands :
    ((nextOf (step { invokeAt [] [] with commands := [.link func2 8] })).map State.table) = some [some 7, some 8, none, none] ∧
    ((nextOf (step { invokeAt [] [] with commands := [.link [1] 8] })).map State.table) = some [some 7, none, none, none] ∧
    refusalOf (step { State.reset with commands := [.link hello 8] }) = some .linkBeforeInit ∧
    refusalOf (step { at0 [] [] 0 with commands := [.init head12 []] }) = some .initTwice ∧
    ((nextOf (step { at0 [] [] 0 with commands := [.isRunning] })).map State.result) = some (some (.isRunning true)) ∧
    ((nextOf (step { at0 [] [] 0 with commands := [.write (.reg 3 5)] })).map fun t => (t.readReg 3, t.written[3])) = some (5, true) ∧
    refusalOf (step { at0 [] [] 0 with commands := [.write (.reg 6 5)] }) = some .portRange := by decide

/-- `withFetchWord` from reset: the word is the next instruction. -/
theorem test_withFetchWord :
    ((nextOf (step (State.reset.withFetchWord 32 0x05010004))).map fun t => ((t.readReg 0).toNat, t.pc.toNat)) = some (0x05, 4) ∧
    ((nextOf (step (State.reset.withFetchWord 8 0x17))).map State.result) = some (some .halted) ∧
    (State.reset.withFetchWord 8 0x17).running = true := by decide

/-! ## Witnesses for the statements about the machine as a whole -/

/-- DecodeOfEncode, InvAtReset: a legal configuration, and the largest one R5 allows in three parameters. -/
theorem witness_Legal :
    defaultConfig.Legal ∧
    Config.Legal { defaultConfig with stackCapacity := 2 ^ 31 - 1, maxImports := 65536, windowSize := 4 } := by decide

/-- The EncodedAs clauses, in both byte orders; EopHalts, a state with no command waiting. -/
theorem witness_EncodedAs :
    defaultConfig.opcodes = defaultOpcodes ∧ bigCfg.opcodes = defaultOpcodes ∧ bigCfg.endian = .big ∧
    State.reset.commands = [] := by decide

/-- EncodeOfDecode. -/
theorem witness_EncodeOfDecode : decode bigCfg [0x14, 0, 0, 0, 0x20, 9] = .instr (.call 0x20) [9] := by decide

/-- StepWhileStopped. -/
theorem witness_StepWhileStopped :
    State.reset.running = false ∧ State.reset.commands = [] ∧
    ({ State.reset with commands := [.step, .start] } : State).commands = .step :: [.start] := by decide

theorem blank_regs_fit : ∀ r : Fin 6, (State.blank defaultConfig).regs[r].toNat < 2 ^ defaultConfig.bits := by decide

theorem inv_at0 (body : List Byte) (h : (head12 ++ body ++ [0x17]).length < 2 ^ 32) : Inv (at0 body [] 8) where
  legal := (by decide : defaultConfig.Legal)
  regsFit := blank_regs_fit
  spBound := (by decide : 8 ≤ defaultConfig.stackCapacity)
  siBound := (by decide : 0 < defaultConfig.scopeLimit)
  framesLength := rfl
  frameBases := (by decide : ∀ f ∈ (State.blank defaultConfig).frames, f.stackBase ≤ defaultConfig.stackCapacity)
  importBound := (by decide : (0 : BitVec 32).toNat ≤ defaultConfig.maxImports)
  tableLength := rfl
  nameBound := Nat.zero_le _
  stackCanonical := List.Pairwise.nil
  stackBound := List.forall_mem_nil _
  imageBound := h
  window := fun e => absurd (show defaultConfig.fetchMode = .streaming from e) (by decide)
  runningReady := fun _ => rfl
  readyDone := fun _ => rfl

theorem inv_stream : Inv (p2At 24 32 [8, 1, 1, 0, 9, 0, 0, 2]) where
  legal := by decide
  regsFit := by decide
  spBound := by decide
  siBound := by decide
  framesLength := rfl
  frameBases := by decide
  importBound := by decide
  tableLength := rfl
  nameBound := by decide
  stackCanonical := by decide
  stackBound := by decide
  imageBound := by decide
  window := fun _ => witness_WindowInv
  runningReady := fun _ => rfl
  readyDone := fun _ => rfl

/-- StepIssued, by the host's step command and by its driving loop. -/
theorem witness_StepIssued :
    StepIssued { at0 [0x05, 3, 1] [] 8 with commands := [.step, .stop] } { at0 [0x05, 3, 1] [] 8 with commands := [.stop] } ∧
    StepIssued (at0 [0x05, 3, 1] [] 8) (at0 [0x05, 3, 1] [] 8) :=
  ⟨.inr ⟨[.stop], rfl, rfl⟩, .inl ⟨rfl, rfl⟩⟩

/-- StepRunsDecodedInstr, in resident mode and in streaming mode. -/
theorem witness_StepRunsDecodedInstr :
    (let s := at0 [0x05, 3, 1] [] 8;
      s.commands = [] ∧ s.running = true ∧ s.fu.image.length < 2 ^ 32 ∧ s.cfg.fetchMode = .resident ∧
      decode s.cfg (s.fu.image.drop s.pc.toNat) = .instr (.mov 3 1) [0x17]) ∧
    (let s := p2At 24 32 [8, 1, 1, 0, 9, 0, 0, 2];
      s.commands = [] ∧ s.running = true ∧ s.fu.image.length < 2 ^ 32 ∧ s.cfg.fetchMode = .streaming ∧ s.fu.plan = [] ∧
      decode s.cfg (s.fu.image.drop s.pc.toNat) = .instr (.jmp 0 24) [0x17]) := by decide

/-- StepKeepsInv, ConfigAndImageNeverChange, FaultRecordKept: a state with the invariant, a next state, and no init waiting. -/
theorem witness_StepKeepsInv :
    Inv (at0 [0x05, 3, 1] [] 8) ∧ (∃ t, step (at0 [0x05, 3, 1] [] 8) = .next t) ∧
    ∀ image plan rest, (at0 [0x05, 3, 1] [] 8).commands ≠ .init image plan :: rest :=
  ⟨inv_at0 _ (by decide), ⟨_, rfl⟩, by intro image plan rest h; cases h⟩

/-- StepKeepsScopesNested, through a SCOPE. -/
theorem witness_StepKeepsScopesNested :
    Inv (at0 [0x15, 0, 0, 0, 0] [] 8) ∧ ScopesNested (at0 [0x15, 0, 0, 0, 0] [] 8) ∧
    (∃ t, step (at0 [0x15, 0, 0, 0, 0] [] 8) = .next t ∧ t.invocations = [] ∧ t.si = 1) := by
  refine ⟨inv_at0 _ (by decide), ⟨fun j k h1 h2 h3 => ?_, fun k h1 h2 => ?_⟩, ⟨_, rfl, rfl, rfl⟩⟩
  · have : k ≤ 0 := h3
    omega
  · have : k ≤ 0 := h2
    omega

/-- FetchModesAgree. -/
theorem witness_FetchModesAgree :
    Inv (p2At 24 32 [8, 1, 1, 0, 9, 0, 0, 2]) ∧ (p2At 24 32 []).cfg.fetchMode = .streaming ∧ (p2At 24 32 []).fu.plan = [] ∧
    faithfulCommand (.init [] []) = true :=
  ⟨inv_stream, rfl, rfl, rfl⟩

/-- RunningOnlyByStart, StartClearsFrames, StopAndIsRunning. -/
theorem witness_RunningOnlyByStart :
    (let s := { at0 [] [] 8 with running := false, commands := [.start] };
      s.ready = true ∧ (nextOf (step s)).map State.running = some true) ∧
    State.reset.ready = false ∧ ({ State.reset with commands := [.stop] } : State).commands = .stop :: [] ∧
    ({ State.reset with commands := [.isRunning] } : State).commands = .isRunning :: [] := by decide

/-- FaultEntry, InstrAnswers, and RestartAfterFault: END with no open scope. -/
theorem witness_FaultEntry :
    (∃ t, exec .endScope (at0 [0x16] [] 8) = .next t ∧ t.result = some (.fault .scopeDepth)) ∧
    Inv (at0 [0x16] [] 8) ∧ (at0 [0x16] [] 8).commands = [] ∧ (at0 [0x16] [] 8).running = true ∧
    (∃ t, step (at0 [0x16] [] 8) = .next t ∧ t.result = some (.fault .scopeDepth)) :=
  ⟨⟨_, rfl, rfl⟩, inv_at0 _ (by decide), rfl, rfl, ⟨_, rfl, rfl⟩⟩

/-- RunEndsWell: an EOP that ends a run well, and one after a read of an unwritten register (R222), which does not. -/
theorem witness_RunEndsWell :
    ((nextOf (step (at0 [] [] 8))).map fun t => decide (EndedWell t)) = some true ∧
    ((after 2 (at0 [0x05, 3, 1] [] 8)).map fun t => (t.result, t.fault, decide (EndedWell t))) =
      some (some .halted, none, false) := by decide

/-- SinkToldOfFault: a step that faults, an init that fails, and another command. -/
theorem witness_SinkToldOfFault :
    ((nextOf (step (at0 [0x16] [] 8))).bind State.result) = some (.fault .scopeDepth) ∧
    ((nextOf (step { State.reset with commands := [.init [2, 0, 0, 0] []] })).bind State.result) = some (.initFailed .version) ∧
    ((nextOf (step { State.reset with commands := [.stop] })).bind State.result) = some .done := by decide

/-- OnlyDestinationChanges, ControlStateWriters, UnwrittenReadsAreMarked: MOV R3, R1 with R1 unwritten. -/
theorem witness_OnlyDestinationChanges :
    (∃ t, exec (.mov 3 1) (at0 [] [] 8) = .next t ∧ t.result = some .ok) ∧ destField (.mov 3 1) ≠ some (field 2) ∧
    field 1 ∈ sourceFields (.mov 3 1) ∧ (at0 [] [] 8).written[1] = false :=
  ⟨⟨_, rfl, rfl⟩, by decide, by decide, rfl⟩

/-- LdiResult and ScopeResult: an immediate and a payload that end at the program's end, and one byte past it; the depth and
the capacity at their limits. -/
theorem witness_LdiResult_ScopeResult :
    Inv (at0 [4, 0, 4, 1, 2, 3] [] 8) ∧ (at0 [4, 0, 4, 1, 2, 3] [] 8).fu.plan = [] ∧
    15 + 4 = (at0 [4, 0, 4, 1, 2, 3] [] 8).fu.image.length ∧ (at0 [4, 0, 4, 1, 2] [] 8).fu.image.length < 15 + 4 ∧
    (atScope [] 8 3 ⟨0, 0⟩).cfg.scopeLimit ≤ 3 + 1 ∧ 2 + 1 < (atScope [] 8 2 ⟨0, 0⟩).cfg.scopeLimit ∧
    defaultConfig.stackCapacity < 8 + 57 ∧ 8 + 56 ≤ defaultConfig.stackCapacity :=
  ⟨inv_at0 _ (by decide), rfl, rfl, by decide, by decide, by decide, by decide, by decide⟩

/-- InitLoadsProgram: P1's header, its names exactly filling a table of 12 bytes. -/
theorem witness_InitLoadsProgram :
    header .little 1 0 [hello, func2] [] = p1Header ∧ (0 : Byte) ∉ hello ∧ (0 : Byte) ∉ func2 ∧
    (([hello, func2].map fun n => n ++ [0]).flatten).length = 12 ∧ [hello, func2].length ≤ defaultConfig.maxImports ∧
    (initOf defaultConfig p1Header).initDone = false ∧ (initOf defaultConfig p1Header).commands = .init p1Header [] :: [] := by
  decide

/-- InitHeaderLimits: a header cut after its last name's terminator, and after all but one byte of its root block; both stop. -/
theorem witness_InitHeaderLimits_short :
    (header .little 1 0 [hello, func2] [10, 0]).take 20 = p1Header.take 20 ∧
    20 < (header .little 1 0 [hello, func2] [10, 0]).length ∧ (header .little 1 0 [hello, func2] [10, 0]).length = 26 ∧
    stopOf (step (initOf defaultConfig (p1Header.take 20))) = some .fetchUndefined ∧
    stopOf (step (initOf defaultConfig ((header .little 1 0 [hello, func2] [10, 0]).take 25))) = some .fetchUndefined := by
  decide

/-- StepRunsDecodedInstr: an instruction whose fixed fields run past the image. -/
theorem witness_StepRunsDecodedInstr_short :
    decode defaultConfig [0x13, 0, 24, 0] = .short ∧
    (let s := { at0 [] [] 0 with fu := { FetchUnit.empty (head12 ++ [0x13, 0, 24, 0]) [] with pc := 12 } };
      s.running = true ∧ stopOf (step s) = some .fetchUndefined) := by decide

/-- InitVersionGate and InitHeaderLimits, at the values next to each limit. -/
theorem witness_InitVersionGate_InitHeaderLimits :
    (2 : BitVec 16) ≠ defaultConfig.engineMajor ∧ defaultConfig.engineMinor.toNat < (1 : BitVec 16).toNat ∧
    (0 : BitVec 16).toNat ≤ defaultConfig.engineMinor.toNat ∧
    toBytes .little 1 2 ++ toBytes .little 0 2 ++ toBytes .little 5 4 = [1, 0, 0, 0, 5, 0, 0, 0] ∧
    defaultConfig.maxImports < (5 : BitVec 32).toNat ∧ (4 : BitVec 32).toNat ≤ defaultConfig.maxImports ∧
    ((p1Header.drop 8).take 8).count 0 < (2 : BitVec 32).toNat ∧ defaultConfig.stackCapacity < (65 : BitVec 32).toNat := by
  decide

/-- LinkBindsFirstMatch: two equal names, of which the first is bound. -/
theorem witness_LinkBindsFirstMatch :
    (let s := { invokeAt [] [] with nameTable := [1, 0, 1, 0], commands := [.link [1] 8] };
      s.ready = true ∧ s.importNames = [[1], [1]] ∧ (nextOf (step s)).map State.table = some [some 8, none, none, none]) ∧
    func2 ++ [1] ∉ (invokeAt [] []).importNames ∧ State.reset.ready = false := by decide

/-- HostWriteLimits and HostReadAnswers: each write and each read at its limit and one past it. -/
theorem witness_HostWriteLimits :
    State.reset.frames.length = State.reset.cfg.scopeLimit ∧
    ([.reg 6, .stackByte 64, .frame 4, .nameByte 32, .tableSlot 4] : List PortRead).map
      (fun q => actAllowed defaultConfig (.read q)) = List.replicate 5 false ∧
    (∀ act ∈ limitActs, actAllowed defaultConfig act = true) ∧
    ([.reg 6 0, .stackByte 64 0, .sp 65, .si 4, .frameBase 4 0, .frameBase 0 65, .frameRet 4 0] : List PortWrite).map
      (fun w => actAllowed defaultConfig (.write w)) = List.replicate 7 false := by decide

/-- BrokenDutiesHaveNoMove. -/
theorem witness_BrokenDutiesHaveNoMove :
    (at0 [] [] 8).initDone = true ∧ State.reset.initDone = false ∧
    (invokeAt [] [.stop, .callInit]).nextActs 7 = [.stop] ++ .callInit :: [] ∧ actAllowed defaultConfig .stop = true := by
  decide

end Sys2Proof.Tests
end

section
/-! SUPPORT. A property that every named update keeps is kept by every transition but init: the commands' part, over
`Closed.runStep`. -/

namespace Sys2Proof.Machine

/-- Every command but init keeps a closed property that `start` keeps too; what `start` does is no named update. -/
theorem Closed.runCommand_next {P : State → Prop} (c : Closed P)
    (hstart : ∀ s t, s.ready = true → runStart s = .next t → P s → P t)
    {cmd : HostCommand} (hcmd : ∀ image plan, cmd ≠ .init image plan) {s t : State}
    (h : runCommand cmd s = .next t) (hs : P s) : P t := by
  cases cmd <;> dsimp only [Machine.runCommand] at h
  case init image plan => exact absurd rfl (hcmd image plan)
  case link name cb =>
    unfold runLink at h
    split at h <;> cases h
    exact c.answer _ _ (c.linkName _ _ _ hs)
  case start =>
    by_cases hr : s.ready = true
    · exact hstart s t hr h hs
    · rw [runStart, if_neg hr] at h
      cases h
      exact c.answer _ _ hs
  case step => exact c.runStep h hs
  case stop => cases h; exact c.answer _ _ (c.stop _ hs)
  case isRunning => cases h; exact c.answer _ _ hs
  case write w =>
    unfold runWrite at h
    split at h <;> cases h
    rename_i hw
    exact c.answer _ _ (c.portWrite hw hs)
  case read q =>
    unfold runRead at h
    split at h <;> cases h
    exact c.answer _ _ (c.recordRead _ _ _ hs)

/-- Every transition but init keeps a closed property that `start` and the taking of a command from the queue keep too. -/
theorem Closed.step_next {P : State → Prop} (c : Closed P)
    (hstart : ∀ s t, s.ready = true → runStart s = .next t → P s → P t)
    (hqueue : ∀ (s : State) rest, P s → P { s with commands := rest }) {s t : State}
    (hcmd : ∀ image plan rest, s.commands ≠ .init image plan :: rest) (h : step s = .next t) (hs : P s) : P t := by
  unfold Machine.step at h
  split at h
  · exact c.runStep h hs
  · rename_i cmd rest hc
    exact c.runCommand_next hstart (fun image plan e => hcmd image plan rest (e ▸ hc)) h (hqueue s rest hs)

end Sys2Proof.Machine
end

section
/-! PROOFS. The configuration and the program image (R5, R50, R61). -/

namespace Sys2Proof.Machine

/-- `t` has the configuration and the program image of `s`. -/
def SameProgram (s t : State) : Prop := t.cfg = s.cfg ∧ t.fu.image = s.fu.image

/-- No named update touches the configuration or the image; those that move the fetch unit are a fetch and `jump_to`. -/
theorem closed_sameProgram (s : State) : Closed (SameProgram s) where
  setReg _ _ _ h := h
  noteReads _ _ h := h
  noteUndefined _ _ h := h
  fetch n u u' bs hf h := by
    obtain ⟨fu', hfu, rfl⟩ := fetchBytes_some hf
    obtain ⟨-, -, himage⟩ := fuFetch_some hfu
    exact ⟨h.1, himage.trans h.2⟩
  jumpTo u p h := ⟨h.1, (fuJump_image u.cfg p u.fu).trans h.2⟩
  opAddr _ h := h
  writeStack _ _ _ _ h := h
  setFrameBase _ _ _ _ _ h := h
  setFrameRet _ _ _ h := h
  setSp _ _ _ h := h
  setSi _ _ _ h := h
  stop _ h := h
  answer _ _ h := h
  recordFault _ _ _ h := h
  recordInvocation _ _ h := h
  recordRead _ _ _ h := h
  linkName u name cb h :=
    have hframe := linkName_frame u name cb
    ⟨hframe.cfg.trans h.1, hframe.image.trans h.2⟩

/-- `start` touches neither (R248). -/
theorem SameProgram.runStart {s u t : State} (h : runStart u = .next t) (hu : SameProgram s u) : SameProgram s t := by
  unfold Machine.runStart at h
  split at h <;> cases h <;> exact hu

/-- A failed init and one that loads a program both keep the configuration. -/
theorem runInit_cfg {image : List Byte} {plan : List Nat} {s t : State} (h : runInit image plan s = .next t) :
    t.cfg = s.cfg := by
  obtain ⟨-, -, fu', names, -, -, -, ⟨f, p, rfl⟩ | ⟨root, count, -, -, rfl⟩⟩ :=
    runInit_next (Q := fun _ => True) (fun _ _ _ _ _ _ => trivial) trivial h <;> rfl

/-- Settles O12: init has its own inversion, and every other transition keeps `SameProgram`. -/
theorem configAndImageNeverChange : Obligations.ConfigAndImageNeverChange := by
  intro s t h
  by_cases hinit : ∃ image plan rest, s.commands = .init image plan :: rest
  · obtain ⟨image, plan, rest, hc⟩ := hinit
    simp only [step, hc, runCommand] at h
    have hcfg := runInit_cfg h
    exact ⟨hcfg, fun hn => absurd hc (hn image plan rest)⟩
  · obtain ⟨hcfg, himage⟩ := (closed_sameProgram s).step_next (fun _ _ _ => SameProgram.runStart) (fun _ _ hu => hu)
      (fun image plan rest hc => hinit ⟨image, plan, rest, hc⟩) h ⟨rfl, rfl⟩
    exact ⟨hcfg, fun _ => himage⟩

end Sys2Proof.Machine
end

section
/-! PROOFS. What an instruction answers (R10, R194) and what one that answers a fault has done (R9, R214, R215). -/

namespace Sys2Proof.Machine

open Sys2Proof.Safety

/-- The instruction completed: the step answers OK and the record of faults is as before (R10). -/
def AnsweredOk (s t : State) : Prop := t.result = some .ok ∧ t.faults = s.faults

/-- EOP halts, and no other instruction does: each of those takes a fault or completes. -/
theorem exec_answers {i : Instr} {s t : State} (h : exec i s = .next t) :
    (i = .eop ∧ t = (s.setRunning false).answer .halted) ∨ (i ≠ .eop ∧ (Faulted s t ∨ AnsweredOk s t)) := by
  by_cases hi : i = .eop
  · subst hi
    cases h
    exact .inl ⟨rfl, rfl⟩
  refine .inr ⟨hi, ?_⟩
  obtain hfault | hwrite | hstore | hjmp | hcall | hscope | hend | heop | hinvoke := exec_cases h
  · exact .inl hfault
  · obtain ⟨reads, d, v, fu, n, us, -, -, -, rfl⟩ := hwrite
    exact .inr ⟨rfl, rfl⟩
  · obtain ⟨reads, a, bs, -, -, -, rfl⟩ := hstore
    exact .inr ⟨rfl, rfl⟩
  · obtain ⟨r, p, fu, -, -, rfl⟩ := hjmp
    exact .inr ⟨rfl, rfl⟩
  · obtain ⟨p, -, -, rfl⟩ := hcall
    exact .inr ⟨rfl, rfl⟩
  · obtain ⟨n, fu, bs, -, -, -, -, -, rfl⟩ := hscope
    exact .inr ⟨rfl, rfl⟩
  · obtain ⟨-, -, ⟨-, rfl⟩ | ⟨-, rfl⟩⟩ := hend <;> exact .inr ⟨rfl, rfl⟩
  · exact absurd heop.1 hi
  · obtain ⟨index, c, u, -, -, -, hacts, rfl⟩ := hinvoke
    exact .inr ⟨rfl, (callbackActs_frame hacts).faults⟩

theorem Faulted.answers_and_records {s t : State} (h : Faulted s t) :
    ∃ r : FaultRecord, t.result = some (.fault r.info.kind) ∧ t.faults = r :: s.faults := by
  obtain ⟨reads, f, rfl⟩ := h
  exact ⟨⟨f, s.opAddr⟩, rfl, rfl⟩

/-- Settles O15: only the faulted outcome of `exec_answers` answers a fault, and it is `afterFault` of the state after the reads. -/
theorem faultEntry : Obligations.FaultEntry := by
  intro i s t k h hk
  obtain ⟨-, rfl⟩ | ⟨-, ⟨reads, f, rfl⟩ | ⟨hok, -⟩⟩ := exec_answers h
  · cases hk
  · cases hk
    exact ⟨fuJump_pc s.cfg s.opAddr s.fu, f, rfl, rfl⟩
  · cases hok.symm.trans hk

/-- Settles O16, one clause an outcome of `exec_answers`. -/
theorem instrAnswers : Obligations.InstrAnswers := by
  intro i s t h
  obtain ⟨hi, rfl⟩ | ⟨hi, hf | ⟨hok, hfaults⟩⟩ := exec_answers h
  · exact .inl ⟨rfl, hi, rfl⟩
  · obtain ⟨r, hr, hfaults⟩ := hf.answers_and_records
    exact .inr (.inr ⟨_, r, hr, hi, rfl, hfaults⟩)
  · exact .inr (.inl ⟨hok, hi, hfaults⟩)

end Sys2Proof.Machine
end

section
/-! PROOFS. A read through the state-access port (R6, R41, R175). -/

namespace Sys2Proof.Machine

open Sys2Proof.Safety

theorem step_read_some {s : State} {q : PortRead} {rest : List HostCommand} {v : PortValue}
    (hc : s.commands = .read q :: rest) (hv : portValue q s = some v) :
    step s = .next { s with commands := rest, portReads := s.portReads ++ [(q, v)], result := some (.value v) } := by
  have hv' : portValue q { s with commands := rest } = some v := hv
  simp only [step, hc, runCommand, runRead, hv']
  rfl

theorem step_read_none {s : State} {q : PortRead} {rest : List HostCommand}
    (hc : s.commands = .read q :: rest) (hv : portValue q s = none) : step s = .refused .portRange := by
  have hv' : portValue q { s with commands := rest } = none := hv
  simp only [step, hc, runCommand, runRead, hv']

/-- Settles O58: the first two clauses are where the port gives a value, the others which value it gives. -/
theorem hostReadAnswers : Obligations.HostReadAnswers := by
  intro s q rest hc
  have hsome := portValue_isSome q s
  refine ⟨fun ha => ?_, fun ha => ?_, ?_⟩
  · exact step_read_none hc (Option.isNone_iff_eq_none.1 (Option.isSome_eq_false_iff.1 (hsome.trans ha)))
  · obtain ⟨v, hv⟩ := Option.isSome_iff_exists.1 (hsome.trans ha)
    exact ⟨v, step_read_some hc hv⟩
  refine ⟨?reg, ?stackByte, ?pc, ?sp, ?frame, ?si, ?running, ?ready, ?nameByte, ?importCount, ?tableSlot, ?fault⟩
  case reg => rintro r rfl; exact step_read_some hc (dif_pos r.isLt)
  case stackByte | frame | nameByte | tableSlot => rintro k rfl hk; exact step_read_some hc (if_pos hk)
  all_goals rintro rfl; exact step_read_some hc rfl

end Sys2Proof.Machine
end

section
/-! PROOFS. The invariant of R39 holds before init and every transition keeps it. -/

namespace Sys2Proof.Safety

open Sys2Proof.Machine

/-! The invariant before init. -/

theorem defaultConfig_legal : defaultConfig.Legal := by decide

/-- The block before init meets the invariant under any legal configuration. -/
theorem inv_blank {cfg : Config} (h : cfg.Legal) : Inv (State.blank cfg) where
  legal := h
  regsFit r := by simp [State.blank]
  spBound := Nat.zero_le _
  siBound := h.2.1.1
  framesLength := List.length_replicate
  frameBases f hf := by rw [List.eq_of_mem_replicate hf]; exact Nat.zero_le _
  importBound := Nat.zero_le _
  tableLength := List.length_replicate
  nameBound := Nat.zero_le _
  stackCanonical := List.Pairwise.nil
  stackBound _ hc := absurd hc List.not_mem_nil
  imageBound := Nat.two_pow_pos 32
  window _ := ⟨Nat.zero_le _, ⟨Nat.le_refl _, Nat.le_refl _⟩, rfl⟩
  runningReady hr := absurd hr Bool.false_ne_true
  readyDone hr := absurd hr Bool.false_ne_true

/-- Settles O8. -/
theorem invAtReset : Obligations.InvAtReset :=
  ⟨fun _ => inv_blank, inv_blank defaultConfig_legal⟩

/-- Settles O7: the fields of `State.blank`, as it sets them. -/
theorem resetState : Obligations.ResetState := by
  refine ⟨rfl, fun cfg => ?_⟩
  refine ⟨rfl, rfl, rfl, rfl, rfl, fun k => ?frames, fun slot hs => ?table, fun r => ?written, fun _ => rfl⟩
  case frames =>
    rw [State.frame, State.blank, List.getD_eq_getElem?_getD, List.getElem?_replicate]
    split <;> rfl
  case table => exact List.eq_of_mem_replicate hs
  case written => simp [State.blank]

/-! One lemma a part of the state that an update moves: the invariant after it. -/

/-- A fetch or a jump moves the fetch unit, but neither changes its image nor breaks its window. -/
theorem Inv.withFu {s : State} (h : Inv s) {fu : FetchUnit} (himage : fu.image = s.fu.image)
    (hwindow : s.cfg.fetchMode = .streaming → WindowInv s.cfg fu) : Inv { s with fu := fu } :=
  { h with imageBound := himage ▸ h.imageBound, window := hwindow }

theorem Inv.withStack {s : State} (h : Inv s) {a : Nat} {bs : List Byte} (hb : a + bs.length ≤ s.cfg.stackCapacity) :
    Inv (s.writeStack a bs) :=
  { h with
    stackCanonical := memWriteBytes_wf h.stackCanonical a bs
    stackBound := fun c hc => by
      rcases mem_memWriteBytes hc with hold | hnew
      · exact h.stackBound c hold
      · exact Nat.lt_of_lt_of_le hnew.2 hb }

theorem Inv.withReg {s : State} (h : Inv s) (r : Fin 6) (v : Word) : Inv (s.setReg r v) :=
  { h with
    regsFit := fun r' => by
      by_cases hr : r' = r
      · subst hr
        simpa using truncN_lt s.cfg v.toNat
      · have hne : (r : Nat) ≠ r' := fun e => hr (Fin.ext e.symm)
        simpa [hne] using h.regsFit r' }

/-- A frame that lies in no slot of the list is the cleared one, so its base is in range too (R29). -/
theorem Inv.frame_base {s : State} (h : Inv s) (k : Nat) : (s.frame k).stackBase ≤ s.cfg.stackCapacity := by
  rw [State.frame, List.getD_eq_getElem?_getD]
  cases hk : s.frames[k]? with
  | none => exact Nat.zero_le _
  | some f => exact h.frameBases f (List.mem_of_getElem? hk)

/-- A frame overwritten by one whose base is in range. -/
theorem Inv.withFrame {s : State} (h : Inv s) (k : Nat) {f : Frame} (hf : f.stackBase ≤ s.cfg.stackCapacity) :
    Inv { s with frames := s.frames.set k f } :=
  { h with
    framesLength := List.length_set.trans h.framesLength
    frameBases := fun g hg => by
      rcases List.mem_or_eq_of_mem_set hg with hold | rfl
      · exact h.frameBases g hold
      · exact hf }

theorem Inv.withTable {s : State} (h : Inv s) (name : List Byte) (c : CallbackId) : Inv (s.linkName name c) := by
  unfold State.linkName
  split
  · exact { h with tableLength := List.length_set.trans h.tableLength }
  · exact h

/-- A fetch keeps the window, whatever the supplier delivers (R65, R66). -/
theorem fuFetch_keeps_window {cfg : Config} {n : Nat} {fu fu' : FetchUnit} {bs : List Byte}
    (h : fuFetch cfg n fu = some (bs, fu'))
    (hq : fu.image.length < 2 ^ 32 ∧ (cfg.fetchMode = .streaming → WindowInv cfg fu)) :
    fu'.image.length < 2 ^ 32 ∧ (cfg.fetchMode = .streaming → WindowInv cfg fu') := by
  obtain ⟨-, -, himage⟩ := fuFetch_some h
  obtain ⟨-, -, hwindow⟩ := fuFetch_reads hq.2 hq.1 h
  exact ⟨himage ▸ hq.1, hwindow⟩

/-- Every named update keeps the invariant. -/
theorem closed_inv : Closed Inv where
  setReg _ r v h := h.withReg r v
  noteReads _ _ h := { h with }
  noteUndefined _ _ h := { h with }
  fetch n s s' bs hf h := by
    obtain ⟨fu', hfu, rfl⟩ := fetchBytes_some hf
    exact h.withFu (fuFetch_some hfu).2.2 (fuFetch_keeps_window hfu ⟨h.imageBound, h.window⟩).2
  jumpTo s t h := h.withFu (fuJump_image s.cfg t s.fu) fun hm => fuJump_inv hm (h.window hm)
  opAddr _ h := { h with }
  writeStack _ _ _ hb h := h.withStack hb
  setFrameBase s k n _ hn h := h.withFrame k (hn.elim id fun e => e ▸ h.spBound)
  setFrameRet s k t h := h.withFrame k (h.frame_base k)
  setSp s n hn h := { h with spBound := hn.elim id fun ⟨k, e⟩ => e ▸ h.frame_base k }
  setSi s n hn h := { h with siBound := hn.elim id fun e => Nat.lt_of_le_of_lt e h.siBound }
  stop _ h := { h with runningReady := fun hr => absurd hr Bool.false_ne_true }
  answer _ _ h := { h with }
  recordFault _ _ _ h := { h with runningReady := fun hr => absurd hr Bool.false_ne_true }
  recordInvocation _ _ h := { h with }
  recordRead _ _ _ h := { h with }
  linkName _ name c h := h.withTable name c

/-- `start` clears the frames, and runs a ready block only (R248). -/
theorem runStart_inv {s t : State} (hr : s.ready = true) (h : runStart s = .next t) (hs : Inv s) : Inv t := by
  rw [runStart, if_pos hr] at h
  cases h
  exact { hs with
    framesLength := List.length_replicate
    frameBases := fun f hf => by rw [List.eq_of_mem_replicate hf]; exact Nat.zero_le _
    runningReady := fun _ => hr }

/-- What init sets before its first fetch meets the invariant, and so it does with the fetch unit and the name table that the
loader leaves (R245). -/
theorem Inv.initStart {s : State} {image : List Byte} {plan : List Nat} {fu : FetchUnit} {names : List Byte} (h : Inv s)
    (hq : fu.image.length < 2 ^ 32 ∧ (s.cfg.fetchMode = .streaming → WindowInv s.cfg fu))
    (hn : names.length ≤ s.cfg.nameTableCapacity) :
    Inv { s.initStart image plan with fu := fu, nameTable := names } :=
  { inv_blank h.legal with nameBound := hn, imageBound := hq.1, window := hq.2, readyDone := fun _ => rfl }

/-- Both next states of init meet the invariant: the failed one, and the one that has loaded a program. -/
theorem runInit_inv {s t : State} {image : List Byte} {plan : List Nat} (h : runInit image plan s = .next t)
    (hs : Inv s) : Inv t := by
  have hlen : image.length < 2 ^ 32 :=
    (runInit_next (Q := fun _ => True) (fun _ _ _ _ _ _ => trivial) trivial h).2.1
  obtain ⟨-, -, fu, names, hq, -, hn, ⟨f, p, rfl⟩ | ⟨root, count, hroot, hcount, rfl⟩⟩ :=
    runInit_next (Q := fun fu => fu.image.length < 2 ^ 32 ∧ (s.cfg.fetchMode = .streaming → WindowInv s.cfg fu))
      (fun _ _ _ _ => fuFetch_keeps_window)
      ⟨hlen, fun _ => ⟨Nat.zero_le _, ⟨Nat.le_refl _, Nat.le_refl _⟩, rfl⟩⟩ h
  · exact closed_inv.answer _ _ (closed_inv.recordFault _ _ _ (hs.initStart hq hn))
  · have hload : Inv ({ s.initStart image plan with fu := fu, nameTable := names }.writeStack 0 root) :=
      (hs.initStart hq hn).withStack (by simpa [State.initStart] using hroot)
    exact { hload with
      spBound := hroot
      importBound := hcount
      runningReady := fun hr => absurd hr Bool.false_ne_true
      readyDone := fun _ => rfl }

/-- Settles O9: init has its own inversion, and every other transition is made of updates that keep the invariant. -/
theorem stepKeepsInv : Obligations.StepKeepsInv := by
  intro s t hs h
  by_cases hinit : ∃ image plan rest, s.commands = .init image plan :: rest
  · obtain ⟨image, plan, rest, hc⟩ := hinit
    simp only [step, hc, runCommand] at h
    exact runInit_inv h { hs with }
  · exact closed_inv.step_next (fun _ _ => runStart_inv) (fun _ _ hu => { hu with })
      (fun image plan rest hc => hinit ⟨image, plan, rest, hc⟩) h hs

end Sys2Proof.Safety
end

section
/-! SUPPORT. What a `step` transaction leads to. -/

namespace Sys2Proof.Machine

/-- A step is NOT_RUNNING, a fault at an undefined opcode, or the instruction fetched (R104, R249, R250). -/
theorem runStep_cases {s t : State} (h : runStep s = .next t) :
    (s.running = false ∧ t = s.answer .notRunning) ∨
    ∃ fu, fu.image = s.fu.image ∧
      ((∃ b, raise (.undefinedOpcode b) { s with opAddr := s.pc, fu := fu } = .next t) ∨
       ∃ i, exec i { s with opAddr := s.pc, fu := fu } = .next t) := by
  unfold runStep at h
  split at h
  · unfold runInstr at h
    split at h
    · rename_i i s' hf
      obtain ⟨fu, rfl, himage⟩ := fetchInstr_instr hf
      exact .inr ⟨fu, himage, .inr ⟨i, h⟩⟩
    · rename_i b s' hf
      obtain ⟨fu, rfl, himage⟩ := fetchInstr_undefinedOpcode hf
      exact .inr ⟨fu, himage, .inl ⟨b, h⟩⟩
    · cases h
  · rename_i hr
    cases h
    exact .inl ⟨by simpa using hr, rfl⟩

end Sys2Proof.Machine
end

section
/-! PROOFS. The bases of the open scopes stay in order under every step without a callback (R39, R58). -/

namespace Sys2Proof.Safety

open Sys2Proof.Machine

/-- The nesting speaks of `sp`, `si` and the frames' bases alone. -/
theorem ScopesNested.congr {s t : State} (h : ScopesNested s) (hsp : t.sp = s.sp) (hsi : t.si = s.si)
    (hbase : ∀ k, (t.frame k).stackBase = (s.frame k).stackBase) : ScopesNested t := by
  simpa only [ScopesNested, hsp, hsi, hbase] using h

/-- Opening a scope whose base is the old `sp`, below a new `sp` no lower (R192). -/
theorem ScopesNested.openScope {s t : State} (h : ScopesNested s) (hsp : s.sp ≤ t.sp) (hsi : t.si = s.si + 1)
    (hnew : (t.frame (s.si + 1)).stackBase = s.sp) (hold : ∀ k, k ≠ s.si + 1 → t.frame k = s.frame k) :
    ScopesNested t := by
  obtain ⟨hord, hle⟩ := h
  have hbelow : ∀ k, 1 ≤ k → k ≤ s.si + 1 → (t.frame k).stackBase ≤ s.sp := fun k h1 hk => by
    by_cases hk' : k = s.si + 1
    · rw [hk', hnew]
    · rw [hold k hk']
      exact hle k h1 (by omega)
  refine ⟨fun j k h1 hjk hk => ?_, fun k h1 hk => Nat.le_trans (hbelow k h1 (hsi ▸ hk)) hsp⟩
  rw [hsi] at hk
  by_cases hk' : k = s.si + 1
  · rw [hk', hnew]
    exact hbelow j h1 (by omega)
  · rw [hold k hk', hold j (by omega)]
    exact hord j k h1 hjk (by omega)

/-- Closing the innermost open scope gives its base back to `sp` (R193). -/
theorem ScopesNested.closeScope {s t : State} (h : ScopesNested s) (hsp : t.sp = (s.frame s.si).stackBase)
    (hsi : t.si = s.si - 1) (hbase : ∀ k, (t.frame k).stackBase = (s.frame k).stackBase) : ScopesNested t := by
  obtain ⟨hord, -⟩ := h
  refine ⟨fun j k h1 hjk hk => ?_, fun k h1 hk => ?_⟩
  · rw [hbase, hbase]
    exact hord j k h1 hjk (by omega)
  · rw [hbase, hsp]
    exact hord k s.si h1 (by omega) (Nat.le_refl _)

/-- Every instruction that runs no callback keeps the nesting: only SCOPE and END move what it speaks of. -/
theorem ScopesNested.exec {i : Instr} {s t : State} (hs : ScopesNested s) (hframes : s.frames.length = s.cfg.scopeLimit)
    (h : exec i s = .next t) (hinv : t.invocations = s.invocations) : ScopesNested t := by
  obtain hfault | hwrite | hstore | hjmp | hcall | hscope | hend | heop | hinvoke := exec_cases h
  · obtain ⟨reads, f, rfl⟩ := hfault
    exact hs
  · obtain ⟨reads, d, v, fu, n, us, -, -, -, rfl⟩ := hwrite
    exact hs
  · obtain ⟨reads, a, bs, -, -, -, rfl⟩ := hstore
    exact hs
  · obtain ⟨r, p, fu, -, -, rfl⟩ := hjmp
    exact hs
  · obtain ⟨p, -, -, rfl⟩ := hcall
    exact hs.congr rfl rfl fun k => stackBase_setFrameRet s _ k _
  · obtain ⟨n, fu, bs, -, -, -, hlimit, -, rfl⟩ := hscope
    refine hs.openScope (Nat.le_add_right _ _) rfl ?_ fun k hk => frame_setFrameBase_other s _ k _ hk
    exact congrArg Frame.stackBase (frame_setFrameBase_same s _ _ (hframes ▸ hlimit))
  · obtain ⟨-, -, ⟨-, rfl⟩ | ⟨-, rfl⟩⟩ := hend
    · exact hs.closeScope rfl rfl fun k => rfl
    · exact hs.closeScope rfl rfl fun k => stackBase_setFrameRet s _ k _
  · obtain ⟨-, rfl⟩ := heop
    exact hs
  · obtain ⟨index, c, u, -, -, -, hacts, rfl⟩ := hinvoke
    have hrec := (callbackActs_frame hacts).invocations.symm.trans hinv
    exact absurd hrec (by simp)

/-- Settles O10: fetching touches no frame, and the instruction fetched keeps the nesting. -/
theorem stepKeepsScopesNested : Obligations.StepKeepsScopesNested := by
  intro h s t hs hn hissued hstep hinv
  rw [step_of_issued hissued] at hstep
  obtain ⟨-, rfl⟩ | ⟨fu, -, ⟨b, hfault⟩ | ⟨i, hexec⟩⟩ := runStep_cases hstep
  · exact hn
  · cases hfault
    exact hn
  · exact ScopesNested.exec (s := { s with opAddr := s.pc, fu := fu }) hn hs.framesLength hexec hinv

end Sys2Proof.Safety
end

section
/-! PROOFS. A transition outside init records at most one fault, and only `start` sets the block running (R37, R214, R230). -/

namespace Sys2Proof.Machine

open Sys2Proof.Safety

theorem linkName_running (s : State) (name : List Byte) (c : CallbackId) : (s.linkName name c).running = s.running := by
  unfold State.linkName
  split <;> rfl

/-- No fault was recorded, and none is answered. -/
def RecordedNone (s t : State) : Prop := t.faults = s.faults ∧ ∀ k, t.result ≠ some (.fault k)

/-- One fault was recorded, is answered and stopped the block (R214). -/
def RecordedOne (s t : State) : Prop :=
  ∃ r : FaultRecord, t.faults = r :: s.faults ∧ t.result = some (.fault r.info.kind) ∧ t.running = false

theorem RecordedOne.of_raise {s t : State} {f : FaultInfo} (h : raise f s = .next t) : RecordedOne s t := by
  cases h
  exact ⟨⟨f, s.opAddr⟩, rfl, rfl, rfl⟩

theorem exec_records {i : Instr} {s t : State} (h : exec i s = .next t) : RecordedNone s t ∨ RecordedOne s t := by
  obtain ⟨-, rfl⟩ | ⟨-, ⟨reads, f, rfl⟩ | ⟨hok, hfaults⟩⟩ := exec_answers h
  · exact .inl ⟨rfl, fun _ hk => by cases hk⟩
  · exact .inr ⟨⟨f, s.opAddr⟩, rfl, rfl, rfl⟩
  · exact .inl ⟨hfaults, fun _ hk => by cases hok.symm.trans hk⟩

theorem runStep_records {s t : State} (h : runStep s = .next t) : RecordedNone s t ∨ RecordedOne s t := by
  obtain ⟨-, rfl⟩ | ⟨fu, -, ⟨b, hfault⟩ | ⟨i, hexec⟩⟩ := runStep_cases h
  · exact .inl ⟨rfl, fun _ hk => by cases hk⟩
  · exact .inr (RecordedOne.of_raise hfault :)
  · exact (exec_records hexec :)

/-- What a host command other than init and `step` leads to: the block after an act through the port or a change of `running`
and the frames, with an answer that is no fault. -/
theorem runCommand_cases {c : HostCommand} {s t : State} (hinit : ∀ image plan, c ≠ .init image plan) (hstep : c ≠ .step)
    (h : runCommand c s = .next t) :
    ∃ u r, t = State.answer u r ∧ u.faults = s.faults ∧ (∀ k, r ≠ .fault k) ∧
      (u.running = true → s.running = true ∨ (s.ready = true ∧ c = .start)) := by
  cases c <;> dsimp only [runCommand] at h
  case init image plan => exact absurd rfl (hinit image plan)
  case step => exact absurd rfl hstep
  case link name cb =>
    unfold runLink at h
    split at h <;> cases h
    exact ⟨_, _, rfl, (linkName_frame s name cb).faults, nofun, fun hr => .inl (linkName_running s name cb ▸ hr)⟩
  case start =>
    unfold runStart at h
    split at h <;> cases h
    · rename_i hready
      exact ⟨_, _, rfl, rfl, nofun, fun _ => .inr ⟨hready, rfl⟩⟩
    · exact ⟨_, _, rfl, rfl, nofun, .inl⟩
  case stop => cases h; exact ⟨_, _, rfl, rfl, nofun, nofun⟩
  case isRunning => cases h; exact ⟨_, _, rfl, rfl, nofun, .inl⟩
  case write w =>
    unfold runWrite at h
    split at h <;> cases h
    rename_i u hw
    obtain ⟨hframe, -, hrunning⟩ := portWrite_frame hw
    exact ⟨u, _, rfl, hframe.faults, nofun, fun hr => .inl (hrunning ▸ hr)⟩
  case read q =>
    unfold runRead at h
    split at h <;> cases h
    exact ⟨_, _, rfl, rfl, nofun, .inl⟩

/-- A transition is a `step` transaction or a command taken from the queue. -/
theorem step_cases {s t : State} (h : step s = .next t) :
    (∃ s', StepIssued s s' ∧ runStep s' = .next t) ∨
    ∃ c rest, s.commands = c :: rest ∧ c ≠ .step ∧ runCommand c { s with commands := rest } = .next t := by
  unfold step at h
  split at h
  · rename_i hc
    exact .inl ⟨s, .inl ⟨hc, rfl⟩, h⟩
  · rename_i c rest hc
    by_cases hstep : c = .step
    · subst hstep
      exact .inl ⟨_, .inr ⟨rest, hc, rfl⟩, h⟩
    · exact .inr ⟨c, rest, hc, hstep, h⟩

theorem stepIssued_faults {h s : State} (hi : StepIssued h s) : s.faults = h.faults := by
  obtain ⟨-, rfl⟩ | ⟨rest, -, rfl⟩ := hi <;> rfl

theorem stepIssued_running {h s : State} (hi : StepIssued h s) : s.running = h.running := by
  obtain ⟨-, rfl⟩ | ⟨rest, -, rfl⟩ := hi <;> rfl

/-- Settles O13: a step records as its instruction does, and the other commands answer no fault. -/
theorem faultRecordKept : Obligations.FaultRecordKept := by
  intro s t h hinit
  obtain ⟨s', hissued, hrun⟩ | ⟨c, rest, hc, hstep, hrun⟩ := step_cases h
  · rw [← stepIssued_faults hissued]
    exact runStep_records hrun
  · obtain ⟨u, r, rfl, hfaults, hr, -⟩ :=
      runCommand_cases (fun image plan e => hinit image plan rest (e ▸ hc)) hstep hrun
    exact .inl ⟨hfaults, fun k hk => hr k (Option.some.inj hk)⟩

/-- No named update sets the block running. -/
theorem closed_runningOnlyIf (s : State) : Closed (fun u => u.running = true → s.running = true) where
  setReg _ _ _ h := h
  noteReads _ _ h := h
  noteUndefined _ _ h := h
  fetch n u u' bs hf h := by
    obtain ⟨fu', -, rfl⟩ := fetchBytes_some hf
    exact h
  jumpTo _ _ h := h
  opAddr _ h := h
  writeStack _ _ _ _ h := h
  setFrameBase _ _ _ _ _ h := h
  setFrameRet _ _ _ h := h
  setSp _ _ _ h := h
  setSi _ _ _ h := h
  stop _ _ := nofun
  answer _ _ h := h
  recordFault _ _ _ _ := nofun
  recordInvocation _ _ h := h
  recordRead _ _ _ h := h
  linkName u name c h hr := h (linkName_running u name c ▸ hr)

theorem runInit_running {image : List Byte} {plan : List Nat} {s t : State} (h : runInit image plan s = .next t) :
    t.running = false := by
  obtain ⟨-, -, fu', names, -, -, -, ⟨f, p, rfl⟩ | ⟨root, count, -, -, rfl⟩⟩ :=
    runInit_next (Q := fun _ => True) (fun _ _ _ _ _ _ => trivial) trivial h <;> rfl

/-- Settles O14: no instruction and no command but `start` sets the block running. -/
theorem runningOnlyByStart : Obligations.RunningOnlyByStart := by
  intro s t h hr
  obtain ⟨s', hissued, hrun⟩ | ⟨c, rest, hc, hstep, hrun⟩ := step_cases h
  · exact .inl ((closed_runningOnlyIf s).runStep hrun (fun h => stepIssued_running hissued ▸ h) hr)
  by_cases hinit : ∃ image plan, c = .init image plan
  · obtain ⟨image, plan, rfl⟩ := hinit
    exact absurd ((runInit_running hrun).symm.trans hr) Bool.false_ne_true
  · obtain ⟨u, r, rfl, -, -, hrunning⟩ :=
      runCommand_cases (fun image plan e => hinit ⟨image, plan, e⟩) hstep hrun
    exact (hrunning hr).imp_right fun ⟨hready, hstart⟩ => ⟨hready, rest, hstart ▸ hc⟩

end Sys2Proof.Machine
end

section
/-! PROOFS. What an instruction leaves alone: registers, `sp`, `si`, frames and stack bytes (R22, R28, R29, R31, R50). -/

namespace Sys2Proof.Machine

open Sys2Proof.Safety

/-- Settles O17: only `Wrote` touches the register file, at the register of the destination field. -/
theorem onlyDestinationChanges : Obligations.OnlyDestinationChanges := by
  intro i s t h hinv r hr
  obtain hfault | hwrite | hstore | hjmp | hcall | hscope | hend | heop | hinvoke := exec_cases h
  · obtain ⟨reads, f, rfl⟩ := hfault
    exact ⟨rfl, rfl⟩
  · obtain ⟨reads, d, v, fu, n, us, hd, -, -, rfl⟩ := hwrite
    have hne : (d : Nat) ≠ r := fun e => hr (Fin.ext e ▸ hd)
    simp [afterWrite, hne]
  · obtain ⟨reads, a, bs, -, -, -, rfl⟩ := hstore
    exact ⟨rfl, rfl⟩
  · obtain ⟨c, p, fu, -, -, rfl⟩ := hjmp
    exact ⟨rfl, rfl⟩
  · obtain ⟨p, -, -, rfl⟩ := hcall
    exact ⟨rfl, rfl⟩
  · obtain ⟨n, fu, bs, -, -, -, -, -, rfl⟩ := hscope
    exact ⟨rfl, rfl⟩
  · obtain ⟨-, -, ⟨-, rfl⟩ | ⟨-, rfl⟩⟩ := hend <;> exact ⟨rfl, rfl⟩
  · obtain ⟨-, rfl⟩ := heop
    exact ⟨rfl, rfl⟩
  · obtain ⟨index, c, u, hi, -⟩ := hinvoke
    exact absurd hi (hinv index)

/-- Settles O18: STR, STS, CALL, SCOPE and END each meet the premises of the clauses about what they leave alone, and the other
instructions touch none of it. -/
theorem controlStateWriters : Obligations.ControlStateWriters := by
  intro i s t h hinv
  obtain hfault | hwrite | hstore | hjmp | hcall | hscope | hend | heop | hinvoke := exec_cases h
  · obtain ⟨reads, f, rfl⟩ := hfault
    exact ⟨fun _ _ => ⟨rfl, rfl⟩, fun _ _ => rfl, fun _ _ _ => rfl, fun _ _ _ _ => rfl⟩
  · obtain ⟨reads, d, v, fu, n, us, -, -, -, rfl⟩ := hwrite
    exact ⟨fun _ _ => ⟨rfl, rfl⟩, fun _ _ => rfl, fun _ _ _ => rfl, fun _ _ _ _ => rfl⟩
  · obtain ⟨reads, a, bs, hi, -, -, rfl⟩ := hstore
    refine ⟨fun _ _ => ⟨rfl, rfl⟩, fun _ _ => rfl, fun _ _ _ => rfl, fun hstr hsts _ => ?_⟩
    obtain ⟨x, a, l, rfl⟩ | ⟨x, p, n, rfl⟩ := hi
    · exact absurd rfl (hstr x a l)
    · exact absurd rfl (hsts x p n)
  · obtain ⟨c, p, fu, -, -, rfl⟩ := hjmp
    exact ⟨fun _ _ => ⟨rfl, rfl⟩, fun _ _ => rfl, fun _ _ _ => rfl, fun _ _ _ _ => rfl⟩
  · obtain ⟨p, rfl, -, rfl⟩ := hcall
    exact ⟨fun _ _ => ⟨rfl, rfl⟩, fun _ k => stackBase_setFrameRet s _ k _, fun hcall => absurd rfl (hcall p),
      fun _ _ _ _ => rfl⟩
  · obtain ⟨n, fu, bs, rfl, -, -, -, -, rfl⟩ := hscope
    exact ⟨fun hscope => absurd rfl (hscope n), fun hscope => absurd rfl (hscope n),
      fun _ _ k => ret_setFrameBase s _ k _, fun _ _ hscope => absurd rfl (hscope n)⟩
  · obtain ⟨rfl, -, ⟨-, rfl⟩ | ⟨-, rfl⟩⟩ := hend
    · exact ⟨fun _ hend => absurd rfl hend, fun _ _ => rfl, fun _ hend => absurd rfl hend, fun _ _ _ _ => rfl⟩
    · exact ⟨fun _ hend => absurd rfl hend, fun _ k => stackBase_setFrameRet s _ k _, fun _ hend => absurd rfl hend,
        fun _ _ _ _ => rfl⟩
  · obtain ⟨-, rfl⟩ := heop
    exact ⟨fun _ _ => ⟨rfl, rfl⟩, fun _ _ => rfl, fun _ _ _ => rfl, fun _ _ _ _ => rfl⟩
  · obtain ⟨index, c, u, hi, -⟩ := hinvoke
    exact absurd hi (hinv index)

end Sys2Proof.Machine
end

section
/-! PROOFS. The marks for reads of unwritten registers (R22, R222; log 6). -/

namespace Sys2Proof.Machine

open Sys2Proof.Safety

theorem field_injective : Function.Injective field := fun r r' h => by
  have hval := congrArg BitVec.toNat h
  rw [field_toNat, field_toNat] at hval
  exact Fin.ext hval

/-- `t` keeps the marks of `s` and has one for each of the fields `fs` that names an unwritten register. -/
def Marked (s t : State) (fs : List Byte) : Prop :=
  (∀ r ∈ s.unwrittenReads, r ∈ t.unwrittenReads) ∧
  ∀ r : Fin 6, field r ∈ fs → s.written[r] = false → r ∈ t.unwrittenReads

theorem marked_noteReads (s : State) (reads : List (Fin 6)) : Marked s (s.noteReads reads) (reads.map field) := by
  refine ⟨fun r hr => List.mem_append_left _ hr, fun r hr hw => List.mem_append_right _ ?_⟩
  rw [List.mem_map_of_injective field_injective] at hr
  exact List.mem_filter.2 ⟨hr, by rw [hw]; rfl⟩

/-- An instruction with no source register leaves no mark and needs none. -/
theorem marked_nil {s t : State} (h : t.unwrittenReads = s.unwrittenReads) : Marked s t [] :=
  ⟨fun _ hr => h ▸ hr, fun _ hr => absurd hr List.not_mem_nil⟩

/-- Settles O20: a completed instruction has noted its source registers, or has none. -/
theorem unwrittenReadsAreMarked : Obligations.UnwrittenReadsAreMarked := by
  intro i s t h hok
  obtain hfault | hwrite | hstore | hjmp | hcall | hscope | hend | heop | hinvoke := exec_cases h
  · obtain ⟨reads, f, rfl⟩ := hfault
    cases hok
  · obtain ⟨reads, d, v, fu, n, us, -, hsrc, -, rfl⟩ := hwrite
    exact hsrc ▸ marked_noteReads s reads
  · obtain ⟨reads, a, bs, -, hsrc, -, rfl⟩ := hstore
    exact hsrc ▸ marked_noteReads s reads
  · obtain ⟨r, p, fu, rfl, -, rfl⟩ := hjmp
    exact marked_noteReads s [r]
  · obtain ⟨p, rfl, -, rfl⟩ := hcall
    exact marked_nil rfl
  · obtain ⟨n, fu, bs, rfl, -, -, -, -, rfl⟩ := hscope
    exact marked_nil rfl
  · obtain ⟨rfl, -, ⟨-, rfl⟩ | ⟨-, rfl⟩⟩ := hend <;> exact marked_nil rfl
  · obtain ⟨-, rfl⟩ := heop
    cases hok
  · obtain ⟨index, c, u, rfl, -, -, hacts, rfl⟩ := hinvoke
    exact marked_nil (callbackActs_frame hacts).unwrittenReads

end Sys2Proof.Machine
end

section
/-! PROOFS. Writes through the state-access port, and the duties a host or a callback may break (R26, R175, R176, R256). -/

namespace Sys2Proof.Machine

open Sys2Proof.Safety

/-- Settles O53: the effect of a write is `portWrite_effect`, what it leaves alone `portWrite_frame`. -/
theorem hostWriteLimits : Obligations.HostWriteLimits := by
  intro s w rest hf hc
  refine ⟨fun ha => ?_, fun ha => ?_⟩
  · have hw : portWrite w { s with commands := rest } = none := portWrite_none ha
    simp only [step, hc, runCommand, runWrite, hw]
  obtain ⟨u, hw, heff⟩ := portWrite_effect (s := { s with commands := rest }) hf ha
  obtain ⟨hframe, htable, hrunning⟩ := portWrite_frame hw
  have hstep : step s = .next (u.answer .done) := by simp only [step, hc, runCommand, runWrite, hw]
  refine ⟨u.answer .done, hstep, rfl, hframe.commands, ⟨u, heff, rfl⟩, hframe.cfg, hframe.image, hframe.nameTable,
    hframe.importCount, hframe.ready, hframe.faults, htable, hrunning, ?reg, ?stackByte, ?sp, ?si, ?pc⟩
  case reg =>
    rintro r v rfl
    obtain ⟨r', x, hr, hx, rfl⟩ := heff
    obtain rfl := Fin.ext hr
    simp [State.readReg, State.answer, truncN_toNat, hx]
  case stackByte =>
    rintro a b rfl
    obtain ⟨m, rfl, hm, -⟩ := heff
    exact hm
  case pc =>
    rintro p rfl
    obtain rfl := heff
    exact fuJump_pc s.cfg p s.fu
  all_goals rintro n rfl; obtain rfl := heff; rfl

/-- A write has a meaning exactly within the limits of R175, whatever the number of frames. -/
theorem portWrite_isSome (w : PortWrite) (s : State) : (portWrite w s).isSome = actAllowed s.cfg (.write w) := by
  cases w <;> simp only [actAllowed, portWrite, Option.isSome_some]
  all_goals split <;> simp_all

/-- On a ready block an act that keeps the duties of a callback has a meaning. -/
theorem callbackAct_ok {act : CallbackAct} {s : State} (hr : s.ready = true) (ha : actAllowed s.cfg act = true) :
    ∃ t, callbackAct act s = .ok t := by
  cases act with
  | read q =>
    obtain ⟨v, hv⟩ := Option.isSome_iff_exists.1 ((portValue_isSome q s).trans ha)
    exact ⟨s.recordRead q v, by simp only [callbackAct, hv]⟩
  | write w =>
    obtain ⟨u, hu⟩ := Option.isSome_iff_exists.1 ((portWrite_isSome w s).trans ha)
    exact ⟨u, by simp only [callbackAct, hu]⟩
  | link name c => exact ⟨s.linkName name c, if_pos hr⟩
  | stop => exact ⟨s.setRunning false, rfl⟩
  | callStep | callInit | callStart => exact absurd ha Bool.false_ne_true

/-- After acts that keep the duties, one that has no meaning in any state is the refusal of the whole callback. -/
theorem callbackActs_error {acts more : List CallbackAct} {act : CallbackAct} {r : Refusal} {s : State}
    (hr : s.ready = true) (ha : ∀ a ∈ acts, actAllowed s.cfg a = true) (hact : ∀ u, callbackAct act u = .error r) :
    callbackActs (acts ++ act :: more) s = .error r := by
  induction acts generalizing s with
  | nil => simp only [List.nil_append, callbackActs, hact]
  | cons a acts ih =>
    obtain ⟨u, hu⟩ := callbackAct_ok hr (ha a List.mem_cons_self)
    have hframe := callbackAct_frame hu
    simp only [List.cons_append, callbackActs, hu]
    exact ih (hframe.ready.trans hr) fun b hb => hframe.cfg ▸ ha b (List.mem_cons_of_mem a hb)

/-- Settles O54. -/
theorem brokenDutiesHaveNoMove : Obligations.BrokenDutiesHaveNoMove := by
  refine ⟨fun s image plan rest hc => ⟨fun hd => ?_, fun hd hlen => ?_⟩, ?_⟩
  · simp only [step, hc, runCommand, runInit, hd, if_true]
  · simp only [step, hc, runCommand, runInit, hd, Bool.false_eq_true, if_false, ge_iff_le, hlen, if_true]
  · intro s index c acts more act hindex hslot hr hnext hallowed hact
    have herror : ∀ u, callbackAct act u = .error .callbackReentry := by
      obtain rfl | rfl | rfl := hact <;> exact fun _ => rfl
    have hcallback : callbackActs (s.nextActs c) (s.recordInvocation index) = .error .callbackReentry :=
      hnext ▸ callbackActs_error (s := s.recordInvocation index) hr hallowed herror
    simp only [exec, execInvoke, if_neg (Nat.not_le.2 hindex), hslot, hcallback]

end Sys2Proof.Machine
end

section
/-! PROOFS. But for the model's marks, no operation depends on which registers have been written (log 6). -/

namespace Sys2Proof.Machine

open Sys2Proof.Safety

/-- The state with other marks for written registers and for unwritten reads. -/
def State.remark (s : State) (w : Vector Bool 6) (u : List (Fin 6)) : State := { s with written := w, unwrittenReads := u }

/-- The two states differ in these marks alone. -/
def SameButMarks (s s' : State) : Prop := ∃ w u, s' = s.remark w u

/-- The two outcomes differ in these marks alone. -/
def SameOutcome (o o' : Result) : Prop := dropMarks o = dropMarks o'

variable {s s' : State}

/-! The ends of an instruction and the shared operations. -/

theorem complete_same (h : SameButMarks s s') : SameOutcome (complete s) (complete s') := by
  obtain ⟨w, u, rfl⟩ := h
  rfl

theorem raise_same {f : FaultInfo} (h : SameButMarks s s') : SameOutcome (raise f s) (raise f s') := by
  obtain ⟨w, u, rfl⟩ := h
  rfl

theorem ite_same {c : Prop} [Decidable c] {a a' b b' : Result} (ha : SameOutcome a a') (hb : SameOutcome b b') :
    SameOutcome (if c then a else b) (if c then a' else b') := by
  split
  · exact ha
  · exact hb

theorem checkReg_same {offset : Nat} {r : Byte} {k k' : Fin 6 → Result} (h : SameButMarks s s')
    (hk : ∀ r, SameOutcome (k r) (k' r)) : SameOutcome (checkReg offset r s k) (checkReg offset r s' k') := by
  unfold checkReg
  split
  · exact hk _
  · exact raise_same h

theorem checkLength_same {n : Nat} {k k' : Result} (h : SameButMarks s s') (hk : SameOutcome k k') :
    SameOutcome (checkLength n s k) (checkLength n s' k') := by
  obtain ⟨w, u, rfl⟩ := h
  exact ite_same (raise_same ⟨w, u, rfl⟩) hk

theorem loadInto_same {d : Fin 6} {a n : Nat} (h : SameButMarks s s') :
    SameOutcome (loadInto d a n s) (loadInto d a n s') := by
  obtain ⟨w, u, rfl⟩ := h
  cases hm : memReadBytes s.stack a n with
  | none => rw [loadInto_unwritten hm, loadInto_unwritten (s := s.remark w u) hm]; rfl
  | some bs =>
    rw [loadInto_ok hm, loadInto_ok (s := s.remark w u) hm]
    exact complete_same ⟨_, _, rfl⟩

theorem undefinedResult_same {reason : UndefReason} {va vb : Word} {d : Fin 6} (h : SameButMarks s s') :
    SameOutcome (undefinedResult reason va vb d s) (undefinedResult reason va vb d s') := by
  obtain ⟨w, u, rfl⟩ := h
  exact ite_same rfl (complete_same ⟨_, _, rfl⟩)

theorem threeOperand_same {f : AluOp} {d a b : Byte} (h : SameButMarks s s') :
    SameOutcome (threeOperand f d a b s) (threeOperand f d a b s') := by
  refine checkReg_same h fun d => checkReg_same h fun a => checkReg_same h fun b => ?_
  obtain ⟨w, u, rfl⟩ := h
  simp only [readReg_noteReads, noteReads_cfg]
  have hf : f (s.remark w u).cfg ((s.remark w u).readReg a) ((s.remark w u).readReg b) =
      f s.cfg (s.readReg a) (s.readReg b) := rfl
  rw [hf]
  cases f s.cfg (s.readReg a) (s.readReg b) with
  | ok v => exact complete_same ⟨_, _, rfl⟩
  | error reason => exact undefinedResult_same ⟨_, _, rfl⟩

/-! Fetching, and the acts of a callback. -/

theorem fetchBytes_remark (n : Nat) (s : State) (w : Vector Bool 6) (u : List (Fin 6)) :
    fetchBytes n (s.remark w u) = (fetchBytes n s).map fun r => (r.1, r.2.remark w u) := by
  rw [fetchBytes, fetchBytes, Option.map_map]
  rfl

theorem copyToStack_remark (n a : Nat) (s : State) (w : Vector Bool 6) (u : List (Fin 6)) :
    copyToStack n a (s.remark w u) = (copyToStack n a s).map (·.remark w u) := by
  induction n generalizing a s with
  | zero => rfl
  | succ n ih =>
    rw [copyToStack, copyToStack, fetchBytes_remark]
    cases fetchBytes 1 s with
    | none => rfl
    | some r => exact ih (a + 1) (r.2.writeStack a r.1)

theorem portValue_remark (q : PortRead) (s : State) (w : Vector Bool 6) (u : List (Fin 6)) :
    portValue q (s.remark w u) = portValue q s := by
  cases q <;> rfl

theorem portWrite_remark (pw : PortWrite) (s : State) (w : Vector Bool 6) (u : List (Fin 6)) :
    ∃ w', portWrite pw (s.remark w u) = (portWrite pw s).map (·.remark w' u) := by
  cases pw with
  | reg r v =>
    by_cases hr : r < 6
    · exact ⟨w.set r true, by simp only [portWrite, dif_pos hr]; rfl⟩
    · exact ⟨w, by simp only [portWrite, dif_neg hr]; rfl⟩
  | pc t => exact ⟨w, rfl⟩
  | _ => exact ⟨w, by rw [portWrite, portWrite, apply_ite (Option.map _)]; rfl⟩

theorem linkName_remark (s : State) (name : List Byte) (c : CallbackId) (w : Vector Bool 6) (u : List (Fin 6)) :
    (s.remark w u).linkName name c = (s.linkName name c).remark w u := by
  have hnames : (s.remark w u).importNames = s.importNames := rfl
  rw [State.linkName, State.linkName, hnames]
  split <;> rfl

/-- Two acts, or two callbacks, that refuse for the same reason or lead to states that differ in the marks alone. -/
inductive SameEffect : Except Refusal State → Except Refusal State → Prop
  | ok {t t' : State} (h : SameButMarks t t') : SameEffect (.ok t) (.ok t')
  | error (r : Refusal) : SameEffect (.error r) (.error r)

theorem callbackAct_same {act : CallbackAct} (h : SameButMarks s s') : SameEffect (callbackAct act s) (callbackAct act s') := by
  obtain ⟨w, u, rfl⟩ := h
  cases act with
  | read q =>
    rw [callbackAct, callbackAct, portValue_remark]
    cases portValue q s with
    | none => exact .error _
    | some v => exact .ok ⟨w, u, rfl⟩
  | write pw =>
    obtain ⟨w', hw⟩ := portWrite_remark pw s w u
    rw [callbackAct, callbackAct, hw]
    cases portWrite pw s with
    | none => exact .error _
    | some t => exact .ok ⟨w', u, rfl⟩
  | link name c =>
    have hready : (s.remark w u).ready = s.ready := rfl
    rw [callbackAct, callbackAct, linkName_remark, hready]
    split
    · exact .ok ⟨w, u, rfl⟩
    · exact .error _
  | stop => exact .ok ⟨w, u, rfl⟩
  | callStep | callInit | callStart => exact .error _

theorem callbackActs_same {acts : List CallbackAct} (h : SameButMarks s s') :
    SameEffect (callbackActs acts s) (callbackActs acts s') := by
  induction acts generalizing s s' with
  | nil => exact .ok h
  | cons act acts ih =>
    have hact := callbackAct_same (act := act) h
    rw [callbackActs, callbackActs]
    generalize callbackAct act s = o, callbackAct act s' = o' at hact
    cases hact with
    | ok ht => exact ih ht
    | error r => exact .error r

theorem execInvoke_same {index : BitVec 16} (h : SameButMarks s s') :
    SameOutcome (execInvoke index s) (execInvoke index s') := by
  obtain ⟨w, u, rfl⟩ := id h
  refine ite_same (raise_same h) ?_
  have htable : (s.remark w u).table = s.table := rfl
  rw [htable]
  cases s.table.getD index.toNat none with
  | none => exact raise_same h
  | some c =>
    have hacts : SameEffect (callbackActs (s.nextActs c) (s.recordInvocation index))
        (callbackActs ((s.remark w u).nextActs c) ((s.remark w u).recordInvocation index)) :=
      callbackActs_same ⟨w, u, rfl⟩
    dsimp only
    generalize callbackActs (s.nextActs c) (s.recordInvocation index) = o,
      callbackActs ((s.remark w u).nextActs c) ((s.remark w u).recordInvocation index) = o' at hacts
    cases hacts with
    | ok ht => exact complete_same ht
    | error r => rfl

theorem execScope_same {n : BitVec 32} (h : SameButMarks s s') : SameOutcome (execScope n s) (execScope n s') := by
  obtain ⟨w, u, rfl⟩ := id h
  refine ite_same (raise_same h) (ite_same (raise_same h) ?_)
  have hcopy : copyToStack n.toNat (s.remark w u).sp ((s.remark w u).setFrameBase ((s.remark w u).si + 1) (s.remark w u).sp) =
      (copyToStack n.toNat s.sp (s.setFrameBase (s.si + 1) s.sp)).map (·.remark w u) :=
    copyToStack_remark n.toNat s.sp (s.setFrameBase (s.si + 1) s.sp) w u
  rw [hcopy]
  cases copyToStack n.toNat s.sp (s.setFrameBase (s.si + 1) s.sp) with
  | none => rfl
  | some t => exact complete_same ⟨w, u, rfl⟩

theorem execEndScope_same (h : SameButMarks s s') : SameOutcome (execEndScope s) (execEndScope s') := by
  obtain ⟨w, u, rfl⟩ := id h
  refine ite_same (raise_same h) ?_
  have hframe : (s.remark w u).frame (s.remark w u).si = s.frame s.si := rfl
  simp only [hframe]
  split <;> exact complete_same ⟨w, u, rfl⟩

theorem execLdi_same {d len : Byte} (h : SameButMarks s s') : SameOutcome (execLdi d len s) (execLdi d len s') := by
  refine checkReg_same h fun d => checkLength_same h ?_
  obtain ⟨w, u, rfl⟩ := h
  rw [fetchBytes_remark]
  cases fetchBytes len.toNat s with
  | none => rfl
  | some r => exact complete_same ⟨_, _, rfl⟩

/-- The marks change nothing of an instruction but marks. -/
theorem exec_same {i : Instr} (h : SameButMarks s s') : SameOutcome (exec i s) (exec i s') := by
  obtain ⟨w, u, rfl⟩ := id h
  cases i <;> dsimp only [exec]
  case ldr d a l =>
    refine checkReg_same h fun d => checkReg_same h fun a => checkReg_same h fun l => ?_
    refine checkLength_same ⟨_, _, rfl⟩ (ite_same ?_ ?_)
    · exact loadInto_same ⟨_, _, rfl⟩
    · exact raise_same ⟨_, _, rfl⟩
  case str x a l =>
    refine checkReg_same h fun x => checkReg_same h fun a => checkReg_same h fun l => ?_
    refine checkLength_same ⟨_, _, rfl⟩ (ite_same ?_ ?_)
    · exact complete_same ⟨_, _, rfl⟩
    · exact raise_same ⟨_, _, rfl⟩
  case lds d p len =>
    refine checkReg_same h fun d => checkLength_same h (ite_same ?_ ?_)
    · exact loadInto_same h
    · exact raise_same h
  case sts x p len =>
    refine checkReg_same h fun x => checkLength_same h (ite_same ?_ ?_)
    · exact complete_same ⟨_, _, rfl⟩
    · exact raise_same ⟨_, _, rfl⟩
  case ldi d len => exact execLdi_same h
  case mov d x =>
    refine checkReg_same h fun d => checkReg_same h fun x => ?_
    exact complete_same ⟨_, _, rfl⟩
  case neg r =>
    refine checkReg_same h fun r => ite_same ?_ ?_
    · exact undefinedResult_same ⟨_, _, rfl⟩
    · exact complete_same ⟨_, _, rfl⟩
  case invoke index => exact execInvoke_same h
  case not d a =>
    refine checkReg_same h fun d => checkReg_same h fun a => ?_
    exact complete_same ⟨_, _, rfl⟩
  case cmp k d a b =>
    refine ite_same (raise_same h) ?_
    refine checkReg_same h fun d => checkReg_same h fun a => checkReg_same h fun b => ?_
    exact complete_same ⟨_, _, rfl⟩
  case jmp r p =>
    refine checkReg_same h fun r => ite_same ?_ ?_ <;> exact complete_same ⟨_, _, rfl⟩
  case call p => exact ite_same (raise_same h) (complete_same ⟨w, u, rfl⟩)
  case scope n => exact execScope_same h
  case endScope => exact execEndScope_same h
  case eop => rfl
  all_goals exact threeOperand_same h

/-- Settles O21: the two states differ in the mark for written registers. -/
theorem unwrittenReadsGoOn : Obligations.UnwrittenReadsGoOn :=
  fun _ s => exec_same ⟨Vector.replicate 6 true, s.unwrittenReads, rfl⟩

end Sys2Proof.Machine
end

section
/-! PROOFS. The fetch unit: what a fetch gives and when it fails, its supplier calls, and `jump_to` (R62-R68). -/

namespace Sys2Proof.Machine

open Sys2Proof.Safety

/-! `jump_to` (R64, R67). -/

theorem fuJump_resident {cfg : Config} {t : Pos} {fu : FetchUnit} (hm : cfg.fetchMode = .resident) :
    fuJump cfg t fu = { fu with pc := t } := by
  simp only [fuJump, hm]

/-- A target that the window holds moves the cursor alone. -/
theorem fuJump_inside {cfg : Config} {t : Pos} {fu : FetchUnit} (hm : cfg.fetchMode = .streaming)
    (ht : fu.base.toNat ≤ t.toNat ∧ t.toNat < fu.base.toNat + fu.buf.length) : fuJump cfg t fu = { fu with pc := t } := by
  simp only [fuJump, hm, if_pos ht]

/-- Any other target discards the window and asks the supplier once, from the target. -/
theorem fuJump_outside {cfg : Config} {t : Pos} {fu : FetchUnit} (hm : cfg.fetchMode = .streaming)
    (ht : ¬(fu.base.toNat ≤ t.toNat ∧ t.toNat < fu.base.toNat + fu.buf.length)) :
    fuJump cfg t fu =
      { (fuSupply fu t.toNat cfg.windowSize).2 with
        pc := t, base := t, buf := (fuSupply fu t.toNat cfg.windowSize).1 } := by
  simp only [fuJump, hm, if_neg ht]

/-- The architectural effect of `jump_to(t)` is `pc <- t` (R67). -/
theorem archView_jumpTo_eq (s : State) (t : Pos) :
    archView (s.jumpTo t) = archView { s with fu := { s.fu with pc := t } } := by
  cases hm : s.cfg.fetchMode with
  | resident => rw [State.jumpTo, fuJump_resident hm]
  | streaming =>
    by_cases ht : s.fu.base.toNat ≤ t.toNat ∧ t.toNat < s.fu.base.toNat + s.fu.buf.length
    · rw [State.jumpTo, fuJump_inside hm ht]
    · rw [State.jumpTo, fuJump_outside hm ht]
      rfl

/-- Settles O46, with one clause for each branch of `fuJump`. -/
theorem jumpTo : Obligations.JumpTo := by
  intro s t
  refine ⟨fuJump_pc _ _ _, archView_jumpTo_eq s t, fun hm => ?_, fun hm hlow hhigh => ?_, fun hm hout => ?_⟩
  · rw [State.jumpTo, fuJump_resident hm]
  · rw [State.jumpTo, fuJump_inside hm ⟨hlow, hhigh⟩]
  · rw [State.jumpTo, fuJump_outside hm (by omega)]
    exact ⟨fuDelivered s.fu t.toNat s.cfg.windowSize, rfl, rfl, rfl, (fuDelivered_le _ _ _).1,
      fuDelivered_faithful _ _ _⟩

/-! What a refill leaves (R66). -/

/-- The bytes that a refill is given: the supplier is asked from the first byte not in the window, for the rest of the window. -/
def refillDelivered (cfg : Config) (fu : FetchUnit) : Nat :=
  fuDelivered fu (fu.pc.toNat + (fuUnread fu).length) (cfg.windowSize - (fuUnread fu).length)

/-- With the cursor at its front the whole window is unread. -/
theorem fuUnread_of_base_eq {fu : FetchUnit} (h : fu.base = fu.pc) : fuUnread fu = fu.buf := by
  rw [fuUnread, h, if_pos (Nat.le_refl _), Nat.sub_self, List.drop_zero]

/-- After a refill the unread bytes are the unread tail and the bytes delivered. -/
theorem fuUnread_refill_length (cfg : Config) (fu : FetchUnit) :
    (fuUnread (fuRefill cfg fu)).length = (fuUnread fu).length + refillDelivered cfg fu := by
  have hd := fuDelivered_le fu (fu.pc.toNat + (fuUnread fu).length) (cfg.windowSize - (fuUnread fu).length)
  rw [fuUnread_of_base_eq rfl]
  simp only [fuRefill, refillDelivered, fuSupply_bytes, List.length_append, List.length_take, List.length_drop]
  omega

/-- No more is buffered than the image holds. -/
theorem fuUnread_length_le {cfg : Config} {fu : FetchUnit} (hw : WindowInv cfg fu) :
    (fuUnread fu).length ≤ fu.image.length - fu.pc.toNat := by
  rw [fuUnread_eq hw, List.length_take, List.length_drop]
  exact Nat.min_le_right _ _

/-- The unread bytes are the first ones of the image at `pc`, as many as there are. -/
theorem fuUnread_eq_take {cfg : Config} {fu : FetchUnit} (hw : WindowInv cfg fu) :
    fuUnread fu = (fu.image.drop fu.pc.toNat).take (fuUnread fu).length := by
  rw [fuUnread_length hw]
  exact fuUnread_eq hw

theorem fuUnread_take {cfg : Config} {fu : FetchUnit} {n : Nat} (hw : WindowInv cfg fu) (hn : n ≤ (fuUnread fu).length) :
    (fuUnread fu).take n = (fu.image.drop fu.pc.toNat).take n := by
  rw [fuUnread_eq_take hw, List.take_take, Nat.min_eq_left hn]

/-- A refill keeps the unread tail, adds what is delivered, and makes one supplier call. -/
theorem fuRefill_eq {cfg : Config} {fu : FetchUnit} (hw : WindowInv cfg fu) :
    fuRefill cfg fu =
      { fu with
        base := fu.pc
        buf := (fu.image.drop fu.pc.toNat).take ((fuUnread fu).length + refillDelivered cfg fu)
        plan := fu.plan.tail
        log := fu.log ++ [⟨fu.pc.toNat + (fuUnread fu).length, cfg.windowSize - (fuUnread fu).length,
          refillDelivered cfg fu⟩] } := by
  rw [← take_append_supply, ← fuUnread_eq_take hw]
  rfl

/-! A streaming fetch (R66, R68). -/

/-- With the bytes buffered a fetch only moves the cursor. -/
theorem fuFetch_buffered {cfg : Config} {fu : FetchUnit} {n : Nat} (hm : cfg.fetchMode = .streaming)
    (hw : WindowInv cfg fu) (hn : n ≤ (fuUnread fu).length) :
    fuFetch cfg n fu =
      some ((fu.image.drop fu.pc.toNat).take n, { fu with pc := fu.pc + BitVec.ofNat 32 n }) := by
  have henough : fuEnsure cfg n fu = fu := if_neg (Nat.not_lt.2 hn)
  rw [fuFetch_of_ensure hm henough, if_pos (List.length_take_of_le hn), fuUnread_take hw hn]

/-- With too few buffered it refills, and then reads the image. -/
theorem fuFetch_refilled {cfg : Config} {fu : FetchUnit} {n : Nat} (hm : cfg.fetchMode = .streaming)
    (hw : WindowInv cfg fu) (hshort : (fuUnread fu).length < n)
    (hn : n ≤ (fuUnread fu).length + refillDelivered cfg fu) :
    fuFetch cfg n fu =
      some ((fu.image.drop fu.pc.toNat).take n, { fuRefill cfg fu with pc := fu.pc + BitVec.ofNat 32 n }) := by
  rw [← fuUnread_refill_length] at hn
  rw [fuFetch_of_ensure hm (if_pos hshort), if_pos (List.length_take_of_le hn), fuUnread_take (fuRefill_inv hw) hn]
  rfl

/-- Where the bytes delivered do not suffice the fetch fails (R68). -/
theorem fuFetch_undelivered {cfg : Config} {fu : FetchUnit} {n : Nat} (hm : cfg.fetchMode = .streaming)
    (hn : (fuUnread fu).length + refillDelivered cfg fu < n) : fuFetch cfg n fu = none := by
  have hshort : (fuUnread fu).length < n := Nat.lt_of_le_of_lt (Nat.le_add_right _ _) hn
  rw [← fuUnread_refill_length] at hn
  rw [fuFetch_of_ensure hm (if_pos hshort), if_neg]
  rw [List.length_take]
  omega

/-- A step whose opcode cannot be fetched (R221). -/
theorem runStep_fetchUndefined {s : State} (hr : s.running = true) (hf : fuFetch s.cfg 1 s.fu = none) :
    runStep s = .fault .fetchUndefined := by
  have hv : fetchValue 1 { s with opAddr := s.pc } = none := by
    simp only [fetchValue, fetchBytes, hf, Option.map_none]
  rw [runStep, if_pos hr, runInstr, fetchInstr, hv]

/-- Settles O57: a fetch is buffered, or refilled, or undelivered. -/
theorem fetchCallsSupplier : Obligations.FetchCallsSupplier := by
  refine ⟨fun cfg fu n hm hw _ => ?_, fun h s hi hr hf => ?_⟩
  · dsimp only
    rw [← fuUnread_length hw]
    refine ⟨fuFetch_buffered hm hw, fun hshort hn => ?_, fuFetch_undelivered hm⟩
    rw [fuFetch_refilled hm hw hshort hn, fuRefill_eq hw]
    rfl
  · rw [step_of_issued hi, runStep_fetchUndefined hr hf]

/-! A fetch with a faithful supplier, in either mode (R63, R64, R66). -/

/-- The fetch unit reads a legal image, through a window that a faithful supplier fills if it streams. -/
structure FaithfulFetch (cfg : Config) (fu : FetchUnit) : Prop where
  imageBound : fu.image.length < 2 ^ 32
  streams : cfg.fetchMode = .streaming → WindowInv cfg fu ∧ fu.plan = []

/-- A fetch makes no faithful supplier unfaithful. -/
theorem fuFetch_plan_nil {cfg : Config} {n : Nat} {fu fu' : FetchUnit} {bs : List Byte} (h : fuFetch cfg n fu = some (bs, fu'))
    (hplan : fu.plan = []) : fu'.plan = [] := by
  have hensure : (fuEnsure cfg n fu).plan = [] := by
    unfold fuEnsure
    split
    · exact congrArg List.tail hplan
    · exact hplan
  unfold fuFetch at h
  split at h
  · split at h
    · cases h; exact hplan
    · cases h
  · dsimp only at h
    split at h
    · cases h; exact hensure
    · cases h

/-- A fetch of the image's bytes is faithful again, and stands `n` bytes on. -/
theorem FaithfulFetch.fetch {cfg : Config} {n : Nat} {fu fu' : FetchUnit} {bs : List Byte} (h : FaithfulFetch cfg fu)
    (hf : fuFetch cfg n fu = some (bs, fu')) :
    bs = (fu.image.drop fu.pc.toNat).take n ∧ fu'.pc.toNat = fu.pc.toNat + n ∧ fu'.image = fu.image ∧
      FaithfulFetch cfg fu' := by
  obtain ⟨hbs, hpc, hwindow⟩ := fuFetch_reads (fun hm => (h.streams hm).1) h.imageBound hf
  obtain ⟨-, -, himage⟩ := fuFetch_some hf
  exact ⟨hbs, hpc, himage, himage ▸ h.imageBound, fun hm => ⟨hwindow hm, fuFetch_plan_nil hf (h.streams hm).2⟩⟩

/-- A fetch that the window can hold succeeds exactly where it stays inside the image; but for a fetch of nothing from beyond the
end. -/
theorem FaithfulFetch.isSome_iff {cfg : Config} {n : Nat} {fu : FetchUnit} (h : FaithfulFetch cfg fu)
    (hfits : cfg.fetchMode = .streaming → n ≤ cfg.windowSize) (h0 : 0 < n ∨ fu.pc.toNat ≤ fu.image.length) :
    (fuFetch cfg n fu).isSome ↔ fu.pc.toNat + n ≤ fu.image.length := by
  cases hm : cfg.fetchMode with
  | resident =>
    rw [fuFetch_resident hm]
    split
    · simpa
    · simpa using Nat.lt_of_not_le ‹_›
  | streaming =>
    obtain ⟨hw, hplan⟩ := h.streams hm
    have hn := hfits hm
    have htail := fuUnread_length_le hw
    have hgot : refillDelivered cfg fu = _ := fuDelivered_faithful fu _ _ hplan
    by_cases hbuffered : n ≤ (fuUnread fu).length
    · simp only [fuFetch_buffered hm hw hbuffered, Option.isSome_some, true_iff]
      omega
    · by_cases henough : n ≤ (fuUnread fu).length + refillDelivered cfg fu
      · simp only [fuFetch_refilled hm hw (by omega) henough, Option.isSome_some, true_iff]
        omega
      · simp only [fuFetch_undelivered hm (Nat.lt_of_not_le henough), Option.isSome_none, Bool.false_eq_true, false_iff]
        omega

/-- Settles O45: when a fetch succeeds, and what it then gives. -/
theorem fetchReadsImage : Obligations.FetchReadsImage := by
  intro cfg fu n hstreams hL hpc
  have hfaith : FaithfulFetch cfg fu := ⟨hL, fun hm => (hstreams hm).2⟩
  have hiff := hfaith.isSome_iff (fun hm => (hstreams hm).1) (.inr hpc)
  refine ⟨fun hle => ?_, fun hpast => ?_⟩
  · obtain ⟨⟨bs, fu'⟩, hf⟩ := Option.isSome_iff_exists.1 (hiff.2 hle)
    obtain ⟨rfl, hpc', himage, hfaith'⟩ := hfaith.fetch hf
    exact ⟨fu', hf, hpc', himage, hfaith'.streams⟩
  · exact Option.not_isSome_iff_eq_none.1 fun hsome => Nat.not_lt.2 (hiff.1 hsome) hpast

end Sys2Proof.Machine
end

section
/-! PROOFS. A load after a store at the same address sees the first bytes stored (R8, R53, R54). -/

namespace Sys2Proof

/-! The first bytes of a serialised number (R8). -/

theorem leBytes_take (v : Nat) {m n : Nat} (h : m ≤ n) : (leBytes v n).take m = leBytes v m := by
  induction n generalizing v m with
  | zero => rw [Nat.le_zero.1 h]; rfl
  | succ n ih =>
    cases m with
    | zero => rfl
    | succ m => rw [leBytes, leBytes, List.take_succ_cons, ih _ (Nat.le_of_succ_le_succ h)]

theorem leBytes_drop (v k m : Nat) : (leBytes v (k + m)).drop k = leBytes (v / 256 ^ k) m := by
  induction k generalizing v with
  | zero => simp
  | succ k ih => rw [Nat.succ_add, leBytes, List.drop_succ_cons, ih, Nat.div_div_eq_div_mul, Nat.pow_succ']

/-- Read back, they are the low digits in little-endian order. -/
theorem fromBytes_take_little (v : Nat) {m n : Nat} (h : m ≤ n) :
    fromBytes .little ((toBytes .little v n).take m) = v % 256 ^ m := by
  rw [toBytes, leBytes_take v h, fromBytes, leNat_leBytes]

/-- Read back, they are the high digits in big-endian order. -/
theorem fromBytes_take_big (v : Nat) {m n : Nat} (h : m ≤ n) :
    fromBytes .big ((toBytes .big v n).take m) = v / 256 ^ (n - m) % 256 ^ m := by
  obtain ⟨k, rfl⟩ := Nat.exists_eq_add_of_le' h
  rw [toBytes, List.take_reverse, leBytes_length, Nat.add_sub_cancel, leBytes_drop, fromBytes, List.reverse_reverse,
    leNat_leBytes]

end Sys2Proof

namespace Sys2Proof.Machine

open Sys2Proof.Safety

theorem storeBytes_length (cfg : Config) (v : Word) (n : Nat) : (storeBytes cfg v n).length = n := toBytes_length _ _ _

/-- What a load of `m` bytes makes of the first bytes of a store of `n` (R121, R122). -/
theorem loadValue_take_storeBytes {cfg : Config} (v : Word) {m n : Nat} (hm : m ≤ n) (hn : n ≤ cfg.wordBytes) :
    (loadValue cfg ((storeBytes cfg v n).take m)).toNat = (match cfg.endian with
      | .little => v.toNat % 256 ^ m
      | .big => v.toNat % 256 ^ n / 256 ^ (n - m)) := by
  have hfits : fromBytes cfg.endian ((storeBytes cfg v n).take m) < 2 ^ cfg.bits := by
    rw [pow_bits_eq]
    refine Nat.lt_of_lt_of_le (fromBytes_lt _ _) (Nat.pow_le_pow_right (by decide) ?_)
    rw [List.length_take]
    omega
  rw [loadValue, truncN_toNat, Nat.mod_eq_of_lt hfits, storeBytes]
  cases cfg.endian with
  | little => exact (fromBytes_take_little _ hm).trans (Nat.mod_mod_of_dvd _ (Nat.pow_dvd_pow _ hm))
  | big =>
    have hhigh : v.toNat % 256 ^ n / 256 ^ (n - m) < 256 ^ m := by
      rw [Nat.div_lt_iff_lt_mul (by positivity), ← Nat.pow_add, Nat.add_sub_cancel' hm]
      exact Nat.mod_lt _ (by positivity)
    exact (fromBytes_take_big _ hm).trans (Nat.mod_eq_of_lt hhigh)

/-- The first bytes of what was written at an address are read back from there (R53). -/
theorem memReadBytes_memWriteBytes_take (mem : Memory) (a : Nat) {bs : List Byte} {m : Nat} (h : m ≤ bs.length) :
    memReadBytes (memWriteBytes mem a bs) a m = some (bs.take m) := by
  refine memReadBytes_eq_some.2 ⟨List.length_take_of_le h, fun k hk => ?_⟩
  rw [memRead_memWriteBytes_same mem a bs k (by rw [List.length_take] at hk; omega), List.getElem_take]

/-! Either store and either load, in range. -/

theorem exec_of_isStore {s : State} {i : Instr} {v : Word} {n a : Nat} (h : IsStore s i v n a) (hn : n ≤ s.cfg.wordBytes)
    (hcap : a + n ≤ s.cfg.stackCapacity) :
    exec i s = .next (afterStore s (memWriteBytes s.stack a (storeBytes s.cfg v n))) := by
  have hin : s.inCapacity a n = true := (inCapacity_iff s a n).2 (by omega)
  obtain ⟨x, ra, rl, rfl, hw, rfl, rfl, rfl⟩ | ⟨x, p, len, rfl, hw, rfl, ha, rfl⟩ := h
  · simp only [exec, execStr, checkReg_field, noteReads_of_written hw, checkLength_ok hn, hin, if_true, complete_writeStack]
  · have hea : literalAddress s p = a := ha
    simp only [exec, execSts, checkReg_field, noteReads_of_written hw, checkLength_ok hn, hea, hin, if_true, Int.toNat_natCast,
      complete_writeStack]

theorem exec_of_isLoad {s : State} {j : Instr} {d : Fin 6} {m a : Nat} {bs : List Byte} (h : IsLoad s j d m a)
    (hm : m ≤ s.cfg.wordBytes) (hcap : a + m ≤ s.cfg.stackCapacity) (hbs : memReadBytes s.stack a m = some bs) :
    exec j s = .next (afterWrite s d (loadValue s.cfg bs)) := by
  have hload : loadInto d a m s = .next (afterWrite s d (loadValue s.cfg bs)) := by
    rw [loadInto_ok hbs, complete_setReg, loadValue, truncN_truncN]
  obtain ⟨ra, rl, rfl, hw, rfl, rfl, hsp⟩ | ⟨p, len, rfl, ha, rfl⟩ := h
  · have hlive : s.inLive (s.readReg ra).toNat (s.readReg rl).toNat = true := (inLive_iff _ _ _).2 (by omega)
    simp only [exec, execLdr, checkReg_field, noteReads_of_written hw, checkLength_ok hm, hlive, if_true, hload]
  · have hea : literalAddress s p = a := ha
    have hin : s.inCapacity a len.toNat = true := (inCapacity_iff s a _).2 (by omega)
    simp only [exec, execLds, checkReg_field, checkLength_ok hm, hea, hin, if_true, Int.toNat_natCast, hload]

/-- Settles O28: the store leaves its bytes at the address, the load reads the first of them, and neither moves a register that
the other's operands name. -/
theorem storeThenLoad : Obligations.StoreThenLoad := by
  intro s i j v d n m a hstore hload hn hm hcap
  have hload' : IsLoad (afterStore s (memWriteBytes s.stack a (storeBytes s.cfg v n))) j d m a := hload
  have hread := memReadBytes_memWriteBytes_take s.stack a (bs := storeBytes s.cfg v n) (m := m)
    (by rwa [storeBytes_length])
  have hcap' : a + m ≤ s.cfg.stackCapacity := by omega
  exact ⟨_, _, exec_of_isStore hstore hn hcap, exec_of_isLoad hload' (Nat.le_trans hm hn) hcap' hread,
    loadValue_take_storeBytes v hm hn⟩

end Sys2Proof.Machine
end

section
/-! PROOFS. With a faithful supplier the two fetch modes agree (R69): every operation commutes with the architectural view, which
is itself a block in resident mode. -/

namespace Sys2Proof.Machine

open Sys2Proof.Safety

variable {s : State}

/-! The shared operations. -/

theorem archView_jumpTo (s : State) (t : Pos) : archView (s.jumpTo t) = (archView s).jumpTo t := archView_jumpTo_eq s t

theorem complete_arch : archOutcome (complete s) = complete (archView s) := rfl

theorem raise_arch {f : FaultInfo} : archOutcome (raise f s) = raise f (archView s) := by
  rw [raise, raise, State.takeFault, State.takeFault, ← archView_jumpTo]
  rfl

theorem ite_arch {c : Prop} [Decidable c] {a a' b b' : Result} (ha : archOutcome a = a') (hb : archOutcome b = b') :
    archOutcome (if c then a else b) = if c then a' else b' := by
  rw [apply_ite archOutcome, ha, hb]

theorem checkReg_arch {offset : Nat} {r : Byte} {k k' : Fin 6 → Result} (hk : ∀ r, archOutcome (k r) = k' r) :
    archOutcome (checkReg offset r s k) = checkReg offset r (archView s) k' := by
  unfold checkReg
  split
  · exact hk _
  · exact raise_arch

theorem checkLength_arch {n : Nat} {k k' : Result} (hk : archOutcome k = k') :
    archOutcome (checkLength n s k) = checkLength n (archView s) k' :=
  ite_arch raise_arch hk

theorem loadInto_arch {d : Fin 6} {a n : Nat} : archOutcome (loadInto d a n s) = loadInto d a n (archView s) := by
  cases hm : memReadBytes s.stack a n with
  | none => rw [loadInto_unwritten hm, loadInto_unwritten (s := archView s) hm]; rfl
  | some bs => rw [loadInto_ok hm, loadInto_ok (s := archView s) hm]; rfl

theorem undefinedResult_arch {reason : UndefReason} {va vb : Word} {d : Fin 6} :
    archOutcome (undefinedResult reason va vb d s) = undefinedResult reason va vb d (archView s) :=
  ite_arch rfl complete_arch

/-- The three-operand frame, for an operation that reads neither the mode nor the window's size. -/
theorem threeOperand_arch {f : AluOp} {d a b : Byte} (hf : f s.cfg = f (archView s).cfg) :
    archOutcome (threeOperand f d a b s) = threeOperand f d a b (archView s) := by
  refine checkReg_arch fun d => checkReg_arch fun a => checkReg_arch fun b => ?_
  have hword : f (archView s).cfg ((archView s).readReg a) ((archView s).readReg b) =
      f s.cfg (s.readReg a) (s.readReg b) := by rw [hf]; rfl
  simp only [readReg_noteReads, noteReads_cfg, hword]
  cases f s.cfg (s.readReg a) (s.readReg b) with
  | ok v => exact complete_arch
  | error reason => exact undefinedResult_arch

/-! Fetching. -/

/-- What the modes share of the fetch unit. -/
def archUnit (fu : FetchUnit) : FetchUnit := { fu with base := 0, buf := [], plan := [], log := [] }

/-- A fetch in resident mode gives what one with a faithful supplier gives. -/
theorem FaithfulFetch.fetch_archUnit {cfg cfg' : Config} {n : Nat} {fu : FetchUnit} (h : FaithfulFetch cfg fu)
    (hfits : n ≤ cfg.windowSize) (h0 : 0 < n ∨ fu.pc.toNat ≤ fu.image.length) (hm : cfg'.fetchMode = .resident) :
    fuFetch cfg' n (archUnit fu) = (fuFetch cfg n fu).map fun r => (r.1, archUnit r.2) := by
  have hiff := h.isSome_iff (fun _ => hfits) h0
  rw [fuFetch_resident hm]
  cases hf : fuFetch cfg n fu with
  | none =>
    have hpast : ¬ fu.pc.toNat + n ≤ fu.image.length := by simpa [hf] using hiff
    exact if_neg hpast
  | some r =>
    obtain ⟨bs, fu'⟩ := r
    have hle : fu.pc.toNat + n ≤ fu.image.length := by simpa [hf] using hiff
    obtain ⟨-, hpc, himage⟩ := fuFetch_some hf
    obtain ⟨rfl, -⟩ := h.fetch hf
    rw [Option.map_some, archUnit, archUnit, hpc, himage]
    exact if_pos hle

/-- The fetch unit reads a faithful program, through a window that holds a word (R5). -/
structure Reads (s : State) : Prop where
  faithful : FaithfulFetch s.cfg s.fu
  wide : s.cfg.wordBytes ≤ s.cfg.windowSize

/-- The two fetches, of which the second is made in the architectural view, both run past the end, or give the same and go on inside
the program. -/
inductive FetchAgrees {α : Type} : Option (α × State) → Option (α × State) → Prop
  | none : FetchAgrees none none
  | some (a : α) {s : State} (hs : Reads s) (hpc : s.pc.toNat ≤ s.fu.image.length) :
      FetchAgrees (some (a, s)) (some (a, archView s))

theorem FetchAgrees.map {α β : Type} {o o' : Option (α × State)} (g : α → β) (h : FetchAgrees o o') :
    FetchAgrees (o.map fun r => (g r.1, r.2)) (o'.map fun r => (g r.1, r.2)) := by
  cases h with
  | none => exact .none
  | some a hs hpc => exact .some (g a) hs hpc

/-- Only a fetch of nothing needs `pc` to be inside the program. -/
theorem fetchBytes_agrees {n : Nat} (h : Reads s) (hn : n ≤ s.cfg.wordBytes) (h0 : 0 < n ∨ s.pc.toNat ≤ s.fu.image.length) :
    FetchAgrees (fetchBytes n s) (fetchBytes n (archView s)) := by
  have hunit : fuFetch (archView s).cfg n (archView s).fu = _ :=
    h.faithful.fetch_archUnit (Nat.le_trans hn h.wide) h0 rfl
  rw [fetchBytes, fetchBytes, hunit]
  cases hf : fuFetch s.cfg n s.fu with
  | none => exact .none
  | some r =>
    obtain ⟨-, hpc, himage, hfaith⟩ := h.faithful.fetch hf
    have hsome : (fuFetch s.cfg n s.fu).isSome := by rw [hf]; rfl
    have hinside := (h.faithful.isSome_iff (fun _ => Nat.le_trans hn h.wide) h0).1 hsome
    refine FetchAgrees.some r.1 (s := { s with fu := r.2 }) ⟨hfaith, h.wide⟩ ?_
    show r.2.pc.toNat ≤ r.2.image.length
    rw [hpc, himage]
    exact hinside

theorem wordBytes_ge (cfg : Config) : 4 ≤ cfg.wordBytes := by
  unfold Config.wordBytes
  split <;> decide

theorem fetchValue_agrees {n : Nat} (h : Reads s) (hn : 0 < n ∧ n ≤ 4) :
    FetchAgrees (fetchValue n s) (fetchValue n (archView s)) :=
  (fetchBytes_agrees h (Nat.le_trans hn.2 (wordBytes_ge _)) (.inl hn.1)).map (fromBytes s.cfg.endian)

theorem fetchFields_agrees {ns : List Nat} (h : Reads s) (hpc : s.pc.toNat ≤ s.fu.image.length)
    (hns : ∀ n ∈ ns, 0 < n ∧ n ≤ 4) : FetchAgrees (fetchFields ns s) (fetchFields ns (archView s)) := by
  induction ns generalizing s with
  | nil => exact .some [] h hpc
  | cons n ns ih =>
    obtain ⟨hn, hns⟩ := List.forall_mem_cons.1 hns
    have hv := fetchValue_agrees h hn
    rw [fetchFields, fetchFields]
    generalize fetchValue n s = o, fetchValue n (archView s) = o' at hv
    cases hv with
    | none => exact .none
    | some v h1 hpc1 => exact (ih h1 hpc1 hns).map (v :: ·)

theorem layout_widths (o : Op) : ∀ n ∈ layout o, 0 < n ∧ n ≤ 4 := by
  cases o <;> decide

/-- Copying commutes with the view; nothing is fetched after it. -/
theorem copyToStack_arch {n a : Nat} (h : Reads s) :
    copyToStack n a (archView s) = (copyToStack n a s).map archView := by
  induction n generalizing a s with
  | zero => rfl
  | succ n ih =>
    have hb := fetchBytes_agrees h (Nat.le_trans (by decide) (wordBytes_ge _)) (.inl Nat.one_pos)
    rw [copyToStack, copyToStack]
    generalize fetchBytes 1 s = o, fetchBytes 1 (archView s) = o' at hb
    cases hb with
    | none => rfl
    | @some bs s1 h1 _ => exact ih (s := s1.writeStack a bs) ⟨h1.faithful, h1.wide⟩

/-! The acts of a callback. -/

theorem portValue_arch (q : PortRead) (s : State) : portValue q (archView s) = portValue q s := by
  cases q <;> rfl

theorem portWrite_arch (w : PortWrite) (s : State) : portWrite w (archView s) = (portWrite w s).map archView := by
  cases w with
  | reg r v =>
    by_cases hr : r < 6
    · simp only [portWrite, dif_pos hr]
      rfl
    · simp only [portWrite, dif_neg hr]
      rfl
  | pc t => exact congrArg some (archView_jumpTo s t).symm
  | _ => rw [portWrite, portWrite, apply_ite (Option.map _)]; rfl

theorem linkName_arch (s : State) (name : List Byte) (c : CallbackId) :
    (archView s).linkName name c = archView (s.linkName name c) := by
  have hnames : (archView s).importNames = s.importNames := rfl
  rw [State.linkName, State.linkName, hnames]
  split <;> rfl

theorem callbackAct_arch (act : CallbackAct) (s : State) :
    callbackAct act (archView s) = (callbackAct act s).map archView := by
  cases act with
  | read q =>
    rw [callbackAct, callbackAct, portValue_arch]
    cases portValue q s <;> rfl
  | write w =>
    rw [callbackAct, callbackAct, portWrite_arch]
    cases portWrite w s <;> rfl
  | link name c =>
    rw [callbackAct, callbackAct, linkName_arch, apply_ite (Except.map _)]
    rfl
  | stop | callStep | callInit | callStart => rfl

theorem callbackActs_arch (acts : List CallbackAct) (s : State) :
    callbackActs acts (archView s) = (callbackActs acts s).map archView := by
  induction acts generalizing s with
  | nil => rfl
  | cons act acts ih =>
    rw [callbackActs, callbackActs, callbackAct_arch]
    cases callbackAct act s with
    | ok t => exact ih t
    | error r => rfl

/-! The instructions. -/

theorem execInvoke_arch {index : BitVec 16} : archOutcome (execInvoke index s) = execInvoke index (archView s) := by
  refine ite_arch raise_arch ?_
  have htable : (archView s).table = s.table := rfl
  rw [htable]
  cases s.table.getD index.toNat none with
  | none => exact raise_arch
  | some c =>
    have hacts : callbackActs ((archView s).nextActs c) ((archView s).recordInvocation index) =
        (callbackActs (s.nextActs c) (s.recordInvocation index)).map archView :=
      callbackActs_arch (s.nextActs c) (s.recordInvocation index)
    dsimp only
    rw [hacts]
    cases callbackActs (s.nextActs c) (s.recordInvocation index) <;> rfl

theorem execScope_arch {n : BitVec 32} (h : Reads s) : archOutcome (execScope n s) = execScope n (archView s) := by
  refine ite_arch raise_arch (ite_arch raise_arch ?_)
  have hcopy : copyToStack n.toNat (archView s).sp ((archView s).setFrameBase ((archView s).si + 1) (archView s).sp) =
      (copyToStack n.toNat s.sp (s.setFrameBase (s.si + 1) s.sp)).map archView :=
    copyToStack_arch (s := s.setFrameBase (s.si + 1) s.sp) ⟨h.faithful, h.wide⟩
  rw [hcopy]
  cases copyToStack n.toNat s.sp (s.setFrameBase (s.si + 1) s.sp) <;> rfl

theorem execEndScope_arch : archOutcome (execEndScope s) = execEndScope (archView s) := by
  refine ite_arch raise_arch ?_
  have hframe : (archView s).frame (archView s).si = s.frame s.si := rfl
  simp only [hframe]
  split
  · exact congrArg (fun u : State => complete (u.setSi (u.si - 1)))
      (archView_jumpTo ((s.setSp (s.frame s.si).stackBase).setFrameRet s.si 0) (s.frame s.si).ret)
  · exact complete_arch

theorem execLdi_arch {d len : Byte} (h : Reads s) (hpc : s.pc.toNat ≤ s.fu.image.length) :
    archOutcome (execLdi d len s) = execLdi d len (archView s) := by
  refine checkReg_arch fun d => ?_
  by_cases hlen : len.toNat ≤ s.cfg.wordBytes
  · rw [checkLength_ok hlen, checkLength_ok (s := archView s) hlen]
    have hb := fetchBytes_agrees h hlen (.inr hpc)
    generalize fetchBytes len.toNat s = o, fetchBytes len.toNat (archView s) = o' at hb
    cases hb with
    | none => rfl
    | some bs => exact complete_arch
  · rw [checkLength_fault (Nat.lt_of_not_le hlen), checkLength_fault (s := archView s) (Nat.lt_of_not_le hlen)]
    exact raise_arch

/-- Every instruction commutes with the view. -/
theorem exec_arch {i : Instr} (h : Reads s) (hpc : s.pc.toNat ≤ s.fu.image.length) :
    archOutcome (exec i s) = exec i (archView s) := by
  cases i <;> dsimp only [exec]
  case ldr d a l =>
    exact checkReg_arch fun d => checkReg_arch fun a => checkReg_arch fun l =>
      checkLength_arch (ite_arch loadInto_arch raise_arch)
  case str x a l =>
    exact checkReg_arch fun x => checkReg_arch fun a => checkReg_arch fun l =>
      checkLength_arch (ite_arch complete_arch raise_arch)
  case lds d p len => exact checkReg_arch fun d => checkLength_arch (ite_arch loadInto_arch raise_arch)
  case sts x p len => exact checkReg_arch fun x => checkLength_arch (ite_arch complete_arch raise_arch)
  case ldi d len => exact execLdi_arch h hpc
  case mov d x => exact checkReg_arch fun d => checkReg_arch fun x => complete_arch
  case neg r => exact checkReg_arch fun r => ite_arch undefinedResult_arch complete_arch
  case invoke index => exact execInvoke_arch
  case not d a => exact checkReg_arch fun d => checkReg_arch fun a => complete_arch
  case cmp k d a b =>
    exact ite_arch raise_arch (checkReg_arch fun d => checkReg_arch fun a => checkReg_arch fun b => complete_arch)
  case jmp r p =>
    refine checkReg_arch fun r => ite_arch ?_ complete_arch
    exact congrArg complete (archView_jumpTo (s.noteReads [r]) p)
  case call p =>
    refine ite_arch raise_arch ?_
    exact congrArg complete (archView_jumpTo (s.setFrameRet (s.si + 1) (s.opAddr + 5)) p)
  case scope n => exact execScope_arch h
  case endScope => exact execEndScope_arch
  case eop => rfl
  all_goals exact threeOperand_arch rfl

/-! A `step` transaction. -/

theorem runInstr_arch (h : Reads s) : archOutcome (runInstr s) = runInstr (archView s) := by
  have hv : FetchAgrees (fetchValue 1 { s with opAddr := s.pc })
      (fetchValue 1 { archView s with opAddr := (archView s).pc }) :=
    fetchValue_agrees (s := { s with opAddr := s.pc }) ⟨h.faithful, h.wide⟩ (by decide)
  have hop (b : Byte) : decodeOp (archView s).cfg b = decodeOp s.cfg b := rfl
  simp only [runInstr, fetchInstr, hop]
  generalize fetchValue 1 { s with opAddr := s.pc } = o,
    fetchValue 1 { archView s with opAddr := (archView s).pc } = o' at hv
  cases hv with
  | none => rfl
  | @some v s1 h1 hpc1 =>
    dsimp only
    cases decodeOp s.cfg (BitVec.ofNat 8 v) with
    | none => exact raise_arch
    | some op =>
      have hf := fetchFields_agrees h1 hpc1 (layout_widths op)
      dsimp only
      generalize fetchFields (layout op) s1 = o, fetchFields (layout op) (archView s1) = o' at hf
      cases hf with
      | none => rfl
      | some vals h2 hpc2 => exact exec_arch h2 hpc2

/-! Init. -/

theorem readNames_agrees {room need : Nat} (h : Reads s) (hpc : s.pc.toNat ≤ s.fu.image.length) :
    FetchAgrees (readNames room need s) (readNames room need (archView s)) := by
  induction room generalizing need s with
  | zero =>
    cases need with
    | zero => exact .some true h hpc
    | succ need => exact .some false h hpc
  | succ room ih =>
    cases need with
    | zero => exact .some true h hpc
    | succ need =>
      have hb := fetchBytes_agrees h (Nat.le_trans (by decide) (wordBytes_ge _)) (.inl Nat.one_pos)
      rw [readNames, readNames]
      generalize fetchBytes 1 s = o, fetchBytes 1 (archView s) = o' at hb
      cases hb with
      | none => exact .none
      | @some bs s1 h1 hpc1 => exact ih (s := { s1 with nameTable := s1.nameTable ++ bs }) ⟨h1.faithful, h1.wide⟩ hpc1

theorem loadRoot_arch {count : BitVec 32} (h : Reads s) : archOutcome (loadRoot count s) = loadRoot count (archView s) := by
  have hv := fetchValue_agrees (n := 4) h (by decide)
  rw [loadRoot, loadRoot]
  generalize fetchValue 4 s = o, fetchValue 4 (archView s) = o' at hv
  cases hv with
  | none => rfl
  | @some rlen s1 h1 _ =>
    refine ite_arch rfl ?_
    rw [copyToStack_arch h1]
    cases copyToStack rlen 0 s1 <;> rfl

theorem loadImports_arch (h : Reads s) : archOutcome (loadImports s) = loadImports (archView s) := by
  have hv := fetchValue_agrees (n := 4) h (by decide)
  rw [loadImports, loadImports]
  generalize fetchValue 4 s = o, fetchValue 4 (archView s) = o' at hv
  cases hv with
  | none => rfl
  | @some n s1 h1 hpc1 =>
    refine ite_arch rfl ?_
    have hn : FetchAgrees (readNames s1.cfg.nameTableCapacity n s1)
        (readNames (archView s1).cfg.nameTableCapacity n (archView s1)) := readNames_agrees h1 hpc1
    generalize readNames s1.cfg.nameTableCapacity n s1 = o,
      readNames (archView s1).cfg.nameTableCapacity n (archView s1) = o' at hn
    cases hn with
    | none => rfl
    | some ok h2 _ =>
      cases ok with
      | false => rfl
      | true => exact loadRoot_arch h2

theorem loadHeader_arch (h : Reads s) : archOutcome (loadHeader s) = loadHeader (archView s) := by
  have hmajor := fetchValue_agrees (n := 2) h (by decide)
  rw [loadHeader, loadHeader]
  generalize fetchValue 2 s = o, fetchValue 2 (archView s) = o' at hmajor
  cases hmajor with
  | none => rfl
  | @some major s1 h1 _ =>
    have hminor := fetchValue_agrees (n := 2) h1 (by decide)
    dsimp only
    generalize fetchValue 2 s1 = o, fetchValue 2 (archView s1) = o' at hminor
    cases hminor with
    | none => rfl
    | some minor h2 _ => exact ite_arch rfl (ite_arch rfl (loadImports_arch h2))

/-- Before its first fetch init has an empty window, which any image fills (R245). -/
theorem reads_initStart {image : List Byte} (hL : image.length < 2 ^ 32) (hwide : s.cfg.wordBytes ≤ s.cfg.windowSize) :
    Reads (s.initStart image []) :=
  ⟨⟨hL, fun _ => ⟨⟨Nat.zero_le _, ⟨Nat.le_refl _, Nat.le_refl _⟩, rfl⟩, rfl⟩⟩, hwide⟩

theorem runInit_arch {image : List Byte} (hwide : s.cfg.wordBytes ≤ s.cfg.windowSize) :
    archOutcome (runInit image [] s) = runInit image [] (archView s) := by
  refine ite_arch rfl ?_
  by_cases hL : 2 ^ 32 ≤ image.length
  · rw [if_pos hL, if_pos hL]
    rfl
  · rw [if_neg hL, if_neg hL]
    exact loadHeader_arch (reads_initStart (Nat.lt_of_not_le hL) hwide)

/-! The transitions. -/

theorem runCommand_arch {c : HostCommand} (h : Reads s) (hc : faithfulCommand c = true) :
    archOutcome (runCommand c s) = runCommand c (archView s) := by
  cases c with
  | init image plan =>
    obtain rfl : plan = [] := List.isEmpty_iff.1 hc
    exact runInit_arch h.wide
  | link name c =>
    refine ite_arch ?_ rfl
    rw [linkName_arch]
    rfl
  | start => exact ite_arch rfl rfl
  | step => exact ite_arch (runInstr_arch h) rfl
  | stop | isRunning => rfl
  | write w =>
    dsimp only [runCommand, runWrite]
    rw [portWrite_arch]
    cases portWrite w s <;> rfl
  | read q =>
    dsimp only [runCommand, runRead]
    rw [portValue_arch]
    cases portValue q s <;> rfl

/-- A transition of either mode is one of the architectural view. -/
theorem step_arch (h : Reads s) (hc : ∀ c ∈ s.commands, faithfulCommand c = true) :
    archOutcome (step s) = step (archView s) := by
  have hcommands : (archView s).commands = s.commands := rfl
  rw [step, step, hcommands]
  cases hs : s.commands with
  | nil => exact runCommand_arch (c := .step) h rfl
  | cons c rest =>
    exact runCommand_arch (s := { s with commands := rest }) ⟨h.faithful, h.wide⟩ (hc c (hs ▸ List.mem_cons_self))

/-- Settles O11: the block and the same block in resident mode have one architectural view, which takes the transition of both. -/
theorem fetchModesAgree : Obligations.FetchModesAgree := by
  intro s hs _ hplan hc
  obtain ⟨-, -, -, hwide, -⟩ := hs.legal
  have hstreaming : Reads s := ⟨⟨hs.imageBound, fun hm => ⟨hs.window hm, hplan⟩⟩, hwide⟩
  have hresident : Reads (asResident s) := ⟨⟨hs.imageBound, fun hm => by cases hm⟩, hwide⟩
  calc archOutcome (step s) = step (archView s) := step_arch hstreaming hc
    _ = step (archView (asResident s)) := rfl
    _ = archOutcome (step (asResident s)) := (step_arch hresident hc).symm

end Sys2Proof.Machine
end

section
/-! PROOFS. Decoding and encoding are inverse (R90-R93): fields of a fixed width are read back as put, and an instruction is made of
its mnemonic and the values of its fields. -/

namespace Sys2Proof

/-- Each value has as many bytes as its field (R91). -/
def FieldsFit (ns vs : List Nat) : Prop := List.Forall₂ (fun n v => v < 256 ^ n) ns vs

/-- A field is taken whole off the bytes that hold it. -/
theorem takeFields_append {n : Nat} {bs : List Byte} (h : bs.length = n) (e : Endian) (ns : List Nat) (tail : List Byte) :
    takeFields e (n :: ns) (bs ++ tail) = (takeFields e ns tail).map fun r => (fromBytes e bs :: r.1, r.2) := by
  have hle : n ≤ (bs ++ tail).length := by rw [List.length_append]; omega
  rw [takeFields, if_pos hle, List.take_left' h, List.drop_left' h]

theorem takeFields_putFields {ns vs : List Nat} (h : FieldsFit ns vs) (e : Endian) (rest : List Byte) :
    takeFields e ns (putFields e ns vs ++ rest) = some (vs, rest) := by
  induction h with
  | nil => rfl
  | @cons n v ns vs hv _ ih =>
    rw [putFields, List.append_assoc, takeFields_append (toBytes_length e v n), ih, fromBytes_toBytes, Nat.mod_eq_of_lt hv]
    rfl

theorem takeFields_some {e : Endian} {ns vs : List Nat} {bs rest : List Byte} (h : takeFields e ns bs = some (vs, rest)) :
    FieldsFit ns vs ∧ bs = putFields e ns vs ++ rest := by
  induction ns generalizing bs vs with
  | nil =>
    cases h
    exact ⟨.nil, rfl⟩
  | cons n ns ih =>
    rw [takeFields] at h
    split at h
    · rename_i hle
      obtain ⟨⟨vs', rest'⟩, htail, he⟩ := Option.map_eq_some_iff.1 h
      cases he
      obtain ⟨hfit, hdrop⟩ := ih htail
      have hlen : (bs.take n).length = n := List.length_take_of_le hle
      have hfirst := fromBytes_lt e (bs.take n)
      have hput := toBytes_fromBytes e (bs.take n)
      rw [hlen] at hfirst hput
      refine ⟨.cons hfirst hfit, ?_⟩
      rw [putFields, hput, List.append_assoc, ← hdrop, List.take_append_drop]
    · cases h

/-! An instruction is its mnemonic and its operands (R93). -/

theorem operands_fit (i : Instr) : FieldsFit (layout i.op) i.operands := by
  cases i <;> simp [FieldsFit, layout, Instr.op, Instr.operands] <;> omega

theorem buildInstr_operands (i : Instr) : buildInstr i.op i.operands = i := by
  cases i <;> simp [buildInstr, Instr.op, Instr.operands, byteField, longField]

theorem op_buildInstr (o : Op) (vals : List Nat) : (buildInstr o vals).op = o := by
  cases o <;> rfl

theorem operands_buildInstr {o : Op} {vals : List Nat} (h : FieldsFit (layout o) vals) :
    (buildInstr o vals).operands = vals := by
  cases o <;> simp only [FieldsFit, layout, List.forall₂_cons_left_iff, List.forall₂_nil_left_iff] at h
  case endScope | eop => exact h.symm
  all_goals
    casesm* ∃ _, _, _ ∧ _
    subst_vars
    simp (disch := omega) only [buildInstr, Instr.operands, byteField, longField, List.getD_cons_zero, List.getD_cons_succ,
      BitVec.toNat_ofNat, Nat.mod_eq_of_lt]

/-! The two directions of the round trip. -/

/-- Settles O1: the map gives the mnemonic back, the layout its operands. -/
theorem decodeOfEncode : Obligations.DecodeOfEncode := by
  intro cfg hlegal i rest
  obtain ⟨-, -, -, -, hmap⟩ := hlegal
  rw [encode, List.cons_append, decode, decodeOp_opByte hmap]
  simp only [takeFields_putFields (operands_fit i), buildInstr_operands]

/-- What a decoded instruction was made of. -/
theorem decode_instr {cfg : Config} {bs rest : List Byte} {i : Instr} (h : decode cfg bs = .instr i rest) :
    ∃ o vals tail, bs = opByte cfg o :: tail ∧ takeFields cfg.endian (layout o) tail = some (vals, rest) ∧
      i = buildInstr o vals := by
  unfold decode at h
  split at h
  · cases h
  · rename_i b tail
    split at h
    · cases h
    · rename_i o ho
      split at h
      · cases h
      · rename_i vals rest' hf
        cases h
        exact ⟨o, vals, tail, by rw [opByte_of_decodeOp ho], hf, rfl⟩

/-- Settles O2: the fields taken off the bytes are the operands of the instruction, and putting them gives the bytes. -/
theorem encodeOfDecode : Obligations.EncodeOfDecode := by
  intro cfg bs rest i h
  obtain ⟨o, vals, tail, rfl, hf, rfl⟩ := decode_instr h
  obtain ⟨hfit, rfl⟩ := takeFields_some hf
  rw [encode, op_buildInstr, operands_buildInstr hfit, List.cons_append]

/-- Settles O3: the decoder runs on each word. -/
theorem wordsFromSpecDecode : Obligations.WordsFromSpecDecode := by
  unfold Obligations.WordsFromSpecDecode
  decide

end Sys2Proof
end

section
/-! PROOFS. A field out of its range faults, the first one by byte offset (R95, R100, R102, R120, R213). -/

namespace Sys2Proof.Machine

open Sys2Proof.Safety

/-! Each check of the machine takes the fault of its own check of `fieldChecks`, and where that passes leaves the rest. -/

section
variable {s : State} {f : FaultInfo} {checks : List (Option FaultInfo)}

theorem checkReg_firstBad {offset : Nat} {r : Byte} {k : Fin 6 → Result}
    (h : (badReg offset r :: checks).findSome? id = some f) (hk : ∀ r', checks.findSome? id = some f → k r' = raise f s) :
    checkReg offset r s k = raise f s := by
  rw [List.findSome?_cons] at h
  unfold checkReg
  by_cases hr : r.toNat < 6
  · rw [dif_pos hr]
    exact hk _ (by simpa [badReg, hr] using h)
  · rw [dif_neg hr]
    rw [badReg, if_neg hr] at h
    cases h
    rfl

theorem checkLength_firstBad {len : Byte} {k : Result}
    (h : (badLength s.cfg len :: checks).findSome? id = some f) (hk : checks.findSome? id = some f → k = raise f s) :
    checkLength len.toNat s k = raise f s := by
  rw [List.findSome?_cons] at h
  by_cases hl : len.toNat ≤ s.cfg.wordBytes
  · rw [checkLength_ok hl]
    exact hk (by simpa [badLength, hl] using h)
  · rw [checkLength_fault (Nat.lt_of_not_le hl)]
    rw [badLength, if_neg hl] at h
    cases h
    rfl

theorem checkKind_firstBad {kind : Byte} {k : Result}
    (h : (badKind kind :: checks).findSome? id = some f) (hk : checks.findSome? id = some f → k = raise f s) :
    (if kind.toNat > 5 then raise (.cmpKind kind) s else k) = raise f s := by
  rw [List.findSome?_cons] at h
  by_cases hle : kind.toNat ≤ 5
  · rw [if_neg (Nat.not_lt.2 hle)]
    exact hk (by simpa [badKind, hle] using h)
  · rw [if_pos (Nat.lt_of_not_le hle)]
    rw [badKind, if_neg hle] at h
    cases h
    rfl

theorem threeOperand_firstBad {g : AluOp} {d a b : Byte}
    (h : [badReg 1 d, badReg 2 a, badReg 3 b].findSome? id = some f) : threeOperand g d a b s = raise f s :=
  checkReg_firstBad h fun _ h => checkReg_firstBad h fun _ h => checkReg_firstBad h fun _ h => nomatch h

end

/-- An instruction makes its checks in the order of `fieldChecks`, before anything else. -/
theorem exec_firstBadField {i : Instr} {s : State} {f : FaultInfo} (h : firstBadField s.cfg i = some f) :
    exec i s = raise f s := by
  unfold firstBadField at h
  cases i <;> dsimp only [exec]
  case ldr | str =>
    exact checkReg_firstBad h fun _ h => checkReg_firstBad h fun _ h => checkReg_firstBad h fun _ h => nomatch h
  case lds | sts | ldi => exact checkReg_firstBad h fun _ h => checkLength_firstBad h fun h => nomatch h
  case mov | not => exact checkReg_firstBad h fun _ h => checkReg_firstBad h fun _ h => nomatch h
  case neg | jmp => exact checkReg_firstBad h fun _ h => nomatch h
  case cmp =>
    exact checkKind_firstBad h fun h => checkReg_firstBad h fun _ h => checkReg_firstBad h fun _ h =>
      checkReg_firstBad h fun _ h => nomatch h
  case invoke | call | scope | endScope | eop => exact nomatch h
  all_goals exact threeOperand_firstBad h

/-! The checks pass exactly on the values that `wellFormed` admits. -/

theorem badReg_eq_none (offset : Nat) (r : Byte) : badReg offset r = none ↔ regOk r = true := by
  simp [badReg, regOk]

theorem badLength_eq_none (cfg : Config) (len : Byte) : badLength cfg len = none ↔ len.toNat ≤ cfg.wordBytes := by
  simp [badLength]

theorem badKind_eq_none (k : Byte) : badKind k = none ↔ k.toNat ≤ 5 := by
  simp [badKind]

theorem firstBadField_eq_none (cfg : Config) (i : Instr) : firstBadField cfg i = none ↔ i.wellFormed cfg = true := by
  rw [firstBadField, List.findSome?_eq_none_iff]
  cases i <;>
    simp [fieldChecks, Instr.wellFormed, badReg_eq_none, badLength_eq_none, badKind_eq_none, and_assoc]

/-- Settles O19: the first check that fails is the fault raised. -/
theorem illegalFieldsFault : Obligations.IllegalFieldsFault :=
  fun i => ⟨fun s f h => (exec_firstBadField h).trans (raise_eq f s), fun cfg => firstBadField_eq_none cfg i⟩

end Sys2Proof.Machine
end

section
/-! PROOFS. A step fetches the instruction that the bytes at `pc` decode to, and runs it (R63, R101, R104, R249). -/

namespace Sys2Proof

/-! The opcode map (R92, R101). -/

theorem decodeOp_eq_none {cfg : Config} {b : Byte} : decodeOp cfg b = none ↔ ∀ o, opByte cfg o ≠ b := by
  simp [decodeOp, List.find?_eq_none, mem_allOps]

theorem opByte_default {cfg : Config} (h : cfg.opcodes = defaultOpcodes) (o : Op) : (opByte cfg o).toNat = opRow o := by
  rw [opByte, h]
  cases o <;> rfl

/-- Every row of the table has a mnemonic. -/
theorem opRow_surjective : Function.Surjective opRow := by
  have h : ∀ k, ∃ o ∈ allOps, opRow o = k := by decide
  exact fun k => (h k).imp fun _ => And.right

/-- The default map assigns the bytes below 0x18 (R101). -/
theorem decodeOp_default_eq_none {cfg : Config} (h : cfg.opcodes = defaultOpcodes) (b : Byte) :
    decodeOp cfg b = none ↔ 0x18 ≤ b.toNat := by
  rw [decodeOp_eq_none]
  refine ⟨fun hb => Nat.le_of_not_lt fun hlt => ?_, fun hb o he => ?_⟩
  · obtain ⟨o, ho⟩ := opRow_surjective ⟨b.toNat, hlt⟩
    exact hb o (BitVec.eq_of_toNat_eq (by rw [opByte_default h, ho]))
  · have hrow := opByte_default h o
    rw [he] at hrow
    omega

theorem ofNat_fromBytes_singleton (e : Endian) (b : Byte) : BitVec.ofNat 8 (fromBytes e [b]) = b := by
  cases e <;> simp [fromBytes, leNat]

end Sys2Proof

namespace Sys2Proof.Machine

open Sys2Proof.Safety

/-- The program bytes from `pc` on. -/
def FetchUnit.ahead (fu : FetchUnit) : List Byte := fu.image.drop fu.pc.toNat

/-- After a fetch of `n` bytes the unit stands `n` bytes on in the same image; in resident mode nothing else has moved. -/
structure FetchedOn (cfg : Config) (n : Nat) (fu fu' : FetchUnit) : Prop where
  pc : fu'.pc = fu.pc + BitVec.ofNat 32 n
  image : fu'.image = fu.image
  plan : fu.plan = [] → fu'.plan = []
  window : cfg.fetchMode = .streaming → WindowInv cfg fu'
  resident : cfg.fetchMode = .resident → fu' = { fu with pc := fu'.pc }

theorem FetchedOn.refl {cfg : Config} {fu : FetchUnit} (hw : cfg.fetchMode = .streaming → WindowInv cfg fu) :
    FetchedOn cfg 0 fu fu where
  pc := (BitVec.add_zero fu.pc).symm
  image := rfl
  plan := id
  window := hw
  resident _ := rfl

theorem FetchedOn.trans {cfg : Config} {m n : Nat} {fu fu1 fu2 : FetchUnit} (h1 : FetchedOn cfg m fu fu1)
    (h2 : FetchedOn cfg n fu1 fu2) : FetchedOn cfg (m + n) fu fu2 where
  pc := by rw [h2.pc, h1.pc, BitVec.add_assoc, BitVec.ofNat_add]
  image := h2.image.trans h1.image
  plan := h2.plan ∘ h1.plan
  window := h2.window
  resident hm := by rw [h2.resident hm, h1.resident hm]

theorem fuFetch_resident_unit {cfg : Config} {n : Nat} {fu fu' : FetchUnit} {bs : List Byte} (hm : cfg.fetchMode = .resident)
    (h : fuFetch cfg n fu = some (bs, fu')) : fu' = { fu with pc := fu'.pc } := by
  rw [fuFetch_resident hm] at h
  split at h <;> cases h
  rfl

/-- A fetch that succeeds takes the bytes ahead, and moves past them. -/
theorem fuFetch_fetchedOn {cfg : Config} {n : Nat} {fu fu' : FetchUnit} {bs : List Byte} (hL : fu.image.length < 2 ^ 32)
    (hw : cfg.fetchMode = .streaming → WindowInv cfg fu) (h : fuFetch cfg n fu = some (bs, fu')) :
    fu.ahead = bs ++ fu'.ahead ∧ FetchedOn cfg n fu fu' := by
  obtain ⟨-, hpc, himage⟩ := fuFetch_some h
  obtain ⟨rfl, hnat, hwindow⟩ := fuFetch_reads hw hL h
  refine ⟨?_, hpc, himage, fuFetch_plan_nil h, hwindow, fun hm => fuFetch_resident_unit hm h⟩
  rw [FetchUnit.ahead, FetchUnit.ahead, himage, hnat, ← List.drop_drop, List.take_append_drop]

/-- Fields that are fetched are those taken off the bytes ahead. -/
theorem fetchFields_takes {ns : List Nat} {s s' : State} {vals : List Nat} (hL : s.fu.image.length < 2 ^ 32)
    (hw : s.cfg.fetchMode = .streaming → WindowInv s.cfg s.fu) (h : fetchFields ns s = some (vals, s')) :
    ∃ fu', s' = { s with fu := fu' } ∧ FetchedOn s.cfg ns.sum s.fu fu' ∧
      takeFields s.cfg.endian ns s.fu.ahead = some (vals, fu'.ahead) := by
  induction ns generalizing s s' vals with
  | nil =>
    cases h
    exact ⟨s.fu, rfl, FetchedOn.refl hw, rfl⟩
  | cons n ns ih =>
    unfold fetchFields at h
    split at h
    · cases h
    · rename_i v s1 hv
      obtain ⟨⟨vals', s2⟩, htail, he⟩ := Option.map_eq_some_iff.1 h
      cases he
      obtain ⟨bs, fu1, hf, rfl, rfl⟩ := fetchValue_some hv
      obtain ⟨hlen, -, -⟩ := fuFetch_some hf
      obtain ⟨hahead, hon⟩ := fuFetch_fetchedOn hL hw hf
      obtain ⟨fu2, rfl, hon2, htakes⟩ := ih (hon.image ▸ hL) hon.window htail
      refine ⟨fu2, rfl, (List.sum_cons (a := n) (l := ns)) ▸ hon.trans hon2, ?_⟩
      rw [hahead, takeFields_append hlen, htakes]
      rfl

/-! With a faithful supplier a fetch fails only where the image ends. -/

theorem FaithfulFetch.ahead_short {cfg : Config} {n : Nat} {fu : FetchUnit} (h : FaithfulFetch cfg fu)
    (hfits : cfg.fetchMode = .streaming → n ≤ cfg.windowSize) (h0 : 0 < n) (hf : fuFetch cfg n fu = none) :
    fu.ahead.length < n := by
  have hpast : ¬ fu.pc.toNat + n ≤ fu.image.length := by simpa [hf] using h.isSome_iff hfits (.inl h0)
  rw [FetchUnit.ahead, List.length_drop]
  omega

theorem fetchValue_eq_none {n : Nat} {s : State} : fetchValue n s = none ↔ fuFetch s.cfg n s.fu = none := by
  simp [fetchValue, fetchBytes]

/-- Fields that cannot be fetched are not there to be taken. -/
theorem fetchFields_none {ns : List Nat} {s : State} (hfaith : FaithfulFetch s.cfg s.fu)
    (hwide : s.cfg.fetchMode = .streaming → 4 ≤ s.cfg.windowSize) (hns : ∀ n ∈ ns, 0 < n ∧ n ≤ 4)
    (h : fetchFields ns s = none) : takeFields s.cfg.endian ns s.fu.ahead = none := by
  induction ns generalizing s with
  | nil => cases h
  | cons n ns ih =>
    obtain ⟨⟨h0, h4⟩, hns⟩ := List.forall_mem_cons.1 hns
    unfold fetchFields at h
    split at h
    · rename_i hv
      have hshort := hfaith.ahead_short (fun hm => Nat.le_trans h4 (hwide hm)) h0 (fetchValue_eq_none.1 hv)
      rw [takeFields, if_neg (Nat.not_le.2 hshort)]
    · rename_i v s1 hv
      obtain ⟨bs, fu1, hf, -, rfl⟩ := fetchValue_some hv
      obtain ⟨hlen, -, -⟩ := fuFetch_some hf
      obtain ⟨hahead, -⟩ := fuFetch_fetchedOn hfaith.imageBound (fun hm => (hfaith.streams hm).1) hf
      obtain ⟨-, -, -, hfaith1⟩ := hfaith.fetch hf
      have htail := ih (s := { s with fu := fu1 }) hfaith1 hwide hns (Option.map_eq_none_iff.1 h)
      rw [hahead, takeFields_append hlen, htail, Option.map_none]

/-! Fetching one instruction (R104). -/

section
variable {s : State} {b : Byte} {fu1 : FetchUnit} {o : Op}

theorem fetchInstr_no_opcode (hf : fuFetch s.cfg 1 s.fu = none) : fetchInstr s = .short := by
  have hv : fetchValue 1 { s with opAddr := s.pc } = none := fetchValue_eq_none.2 hf
  rw [fetchInstr, hv]

theorem fetchValue_opcode (hf : fuFetch s.cfg 1 s.fu = some ([b], fu1)) :
    fetchValue 1 { s with opAddr := s.pc } = some (fromBytes s.cfg.endian [b], { s with opAddr := s.pc, fu := fu1 }) := by
  simp only [fetchValue, fetchBytes, hf, Option.map_some]

theorem fetchInstr_unassigned (hf : fuFetch s.cfg 1 s.fu = some ([b], fu1)) (hop : decodeOp s.cfg b = none) :
    fetchInstr s = .undefinedOpcode b { s with opAddr := s.pc, fu := fu1 } := by
  simp only [fetchInstr, fetchValue_opcode hf, ofNat_fromBytes_singleton, hop]

theorem fetchInstr_no_fields (hf : fuFetch s.cfg 1 s.fu = some ([b], fu1)) (hop : decodeOp s.cfg b = some o)
    (hfields : fetchFields (layout o) { s with opAddr := s.pc, fu := fu1 } = none) : fetchInstr s = .short := by
  simp only [fetchInstr, fetchValue_opcode hf, ofNat_fromBytes_singleton, hop, hfields]

theorem fetchInstr_fields {vals : List Nat} {s' : State} (hf : fuFetch s.cfg 1 s.fu = some ([b], fu1))
    (hop : decodeOp s.cfg b = some o)
    (hfields : fetchFields (layout o) { s with opAddr := s.pc, fu := fu1 } = some (vals, s')) :
    fetchInstr s = .instr (buildInstr o vals) s' := by
  simp only [fetchInstr, fetchValue_opcode hf, ofNat_fromBytes_singleton, hop, hfields]

end

/-- Fetching agrees with decoding the bytes ahead, but that a supplier that is not faithful may end it early. -/
theorem fetchInstr_decodes {s : State} (hL : s.fu.image.length < 2 ^ 32)
    (hw : s.cfg.fetchMode = .streaming → WindowInv s.cfg s.fu) :
    (∃ i fu', fetchInstr s = .instr i { s with opAddr := s.pc, fu := fu' } ∧
      FetchedOn s.cfg i.fixedLength s.fu fu' ∧ decode s.cfg s.fu.ahead = .instr i fu'.ahead) ∨
    (∃ b s', fetchInstr s = .undefinedOpcode b s' ∧ decode s.cfg s.fu.ahead = .undefinedOpcode b) ∨
    (fetchInstr s = .short ∧
      ((s.cfg.fetchMode = .streaming → 4 ≤ s.cfg.windowSize ∧ s.fu.plan = []) → decode s.cfg s.fu.ahead = .short)) := by
  have hfaithful (hplan : s.cfg.fetchMode = .streaming → 4 ≤ s.cfg.windowSize ∧ s.fu.plan = []) :
      FaithfulFetch s.cfg s.fu :=
    ⟨hL, fun hm => ⟨hw hm, (hplan hm).2⟩⟩
  cases hf : fuFetch s.cfg 1 s.fu with
  | none =>
    refine .inr (.inr ⟨fetchInstr_no_opcode hf, fun hplan => ?_⟩)
    have hshort := (hfaithful hplan).ahead_short (fun hm => Nat.le_trans (by decide) (hplan hm).1) Nat.one_pos hf
    rw [List.length_eq_zero_iff.1 (Nat.lt_one_iff.1 hshort), decode]
  | some r =>
    obtain ⟨bs, fu1⟩ := r
    obtain ⟨b, rfl⟩ := List.length_eq_one_iff.1 (fuFetch_some hf).1
    obtain ⟨hahead, hon⟩ := fuFetch_fetchedOn hL hw hf
    rw [hahead, List.singleton_append, decode]
    cases hop : decodeOp s.cfg b with
    | none => exact .inr (.inl ⟨b, _, fetchInstr_unassigned hf hop, rfl⟩)
    | some o =>
      cases hfields : fetchFields (layout o) { s with opAddr := s.pc, fu := fu1 } with
      | none =>
        refine .inr (.inr ⟨fetchInstr_no_fields hf hop hfields, fun hplan => ?_⟩)
        obtain ⟨-, -, -, hfaith1⟩ := (hfaithful hplan).fetch hf
        have hnone := fetchFields_none (s := { s with opAddr := s.pc, fu := fu1 }) hfaith1 (fun hm => (hplan hm).1)
          (layout_widths o) hfields
        dsimp only at hnone ⊢
        rw [hnone]
      | some r =>
        obtain ⟨vals, s'⟩ := r
        obtain ⟨fu2, rfl, hon2, htakes⟩ :=
          fetchFields_takes (s := { s with opAddr := s.pc, fu := fu1 }) (hon.image ▸ hL) hon.window hfields
        refine .inl ⟨buildInstr o vals, fu2, fetchInstr_fields hf hop hfields, ?_, ?_⟩
        · rw [Instr.fixedLength, op_buildInstr]
          exact hon.trans hon2
        · dsimp only at htakes ⊢
          rw [htakes]

theorem fetchInstr_of_decode_instr {s : State} {i : Instr} {rest : List Byte} (hL : s.fu.image.length < 2 ^ 32)
    (hw : s.cfg.fetchMode = .streaming → WindowInv s.cfg s.fu) (hdec : decode s.cfg s.fu.ahead = .instr i rest) :
    (∃ fu', fetchInstr s = .instr i { s with opAddr := s.pc, fu := fu' } ∧ FetchedOn s.cfg i.fixedLength s.fu fu') ∨
    (fetchInstr s = .short ∧ ¬ (s.cfg.fetchMode = .streaming → 4 ≤ s.cfg.windowSize ∧ s.fu.plan = [])) := by
  obtain ⟨i', fu', hfetch, hon, hdec'⟩ | ⟨b, s', -, hdec'⟩ | ⟨hfetch, hshort⟩ := fetchInstr_decodes hL hw
  · cases hdec.symm.trans hdec'
    exact .inl ⟨fu', hfetch, hon⟩
  · cases hdec.symm.trans hdec'
  · exact .inr ⟨hfetch, fun hplan => nomatch hdec.symm.trans (hshort hplan)⟩

theorem fetchInstr_of_decode_short {s : State} (hL : s.fu.image.length < 2 ^ 32)
    (hw : s.cfg.fetchMode = .streaming → WindowInv s.cfg s.fu) (hdec : decode s.cfg s.fu.ahead = .short) :
    fetchInstr s = .short := by
  obtain ⟨i', fu', -, -, hdec'⟩ | ⟨b, s', -, hdec'⟩ | ⟨hfetch, -⟩ := fetchInstr_decodes hL hw
  · cases hdec.symm.trans hdec'
  · cases hdec.symm.trans hdec'
  · exact hfetch

/-! The step (R101, R249). -/

theorem step_of_issued_running {h s : State} (hi : StepIssued h s) (hr : s.running = true) : step h = runInstr s := by
  rw [step_of_issued hi, runStep, if_pos hr]

/-- Settles O5: the fault is taken before an operand byte is fetched. -/
theorem undefinedOpcodeFaults : Obligations.UndefinedOpcodeFaults := by
  refine ⟨fun cfg b hmap => decodeOp_default_eq_none hmap b, fun h s b fu' hi hr hf hop => ?_⟩
  rw [step_of_issued_running hi hr, runInstr, fetchInstr_unassigned hf hop]
  rfl

/-- Settles O4: the bytes ahead decode to what is fetched, or the supplier has ended the fetch. -/
theorem stepRunsDecodedInstr : Obligations.StepRunsDecodedInstr := by
  intro h s hi hr hL
  rw [step_of_issued_running hi hr, runInstr]
  refine ⟨fun i rest hdec => ⟨fun hm => ?_, fun hm hlegal hw => ?_⟩, fun hdec hw => ?_⟩
  · have hres (hs : s.cfg.fetchMode = .streaming) : False := nomatch hm.symm.trans hs
    obtain ⟨fu', hfetch, hon⟩ | ⟨-, hunfaithful⟩ := fetchInstr_of_decode_instr hL (fun hs => (hres hs).elim) hdec
    · rw [hfetch, hon.resident hm, hon.pc]
    · exact absurd (fun hs => (hres hs).elim) hunfaithful
  · obtain ⟨-, -, -, hwide, -⟩ := hlegal
    obtain ⟨fu', hfetch, hon⟩ | ⟨hfetch, hunfaithful⟩ := fetchInstr_of_decode_instr hL (fun _ => hw) hdec
    · exact .inr ⟨fu', hon.pc, hon.image, hon.plan, hon.window hm, by rw [hfetch]⟩
    · exact .inl ⟨fun hplan => hunfaithful fun _ => ⟨Nat.le_trans (wordBytes_ge s.cfg) hwide, hplan⟩, by rw [hfetch]⟩
  · rw [fetchInstr_of_decode_short hL hw hdec]

end Sys2Proof.Machine
end

section
/-! PROOFS. Loads, stores and moves: what each leads to, check by check (R120-R128). -/

namespace Sys2Proof

theorem toBytes_toNat_one (e : Endian) (b : Byte) : toBytes e b.toNat 1 = [b] := by
  cases e <;> simp [toBytes, leBytes]

theorem putFields_bytes (e : Endian) (bs : List Byte) : putFields e (bs.map fun _ => 1) (bs.map BitVec.toNat) = bs := by
  induction bs with
  | nil => rfl
  | cons b bs ih => rw [List.map_cons, List.map_cons, putFields, toBytes_toNat_one, ih, List.singleton_append]

end Sys2Proof

namespace Sys2Proof.Machine

open Sys2Proof.Safety

/-! Under the default map an instruction is its row of the table and its fields (R92, R93). -/

/-- The bytes of an instruction's row of the table (R92, R93). -/
theorem encode_default {cfg : Config} (hmap : cfg.opcodes = defaultOpcodes) (i : Instr) :
    encode cfg i = BitVec.ofNat 8 (opRow i.op) :: putFields cfg.endian (layout i.op) i.operands := by
  have hop : opByte cfg i.op = BitVec.ofNat 8 (opRow i.op) := by
    rw [← opByte_default hmap, BitVec.ofNat_toNat, BitVec.setWidth_eq]
  rw [encode, hop]

theorem encodedAs_of_fields {i : Instr} {bs : Endian → List Byte}
    (h : ∀ e, bs e = BitVec.ofNat 8 (opRow i.op) :: putFields e (layout i.op) i.operands) : EncodedAs i bs := by
  intro cfg rest hmap
  have hnodup : cfg.opcodes.toList.Nodup := by
    rw [hmap]
    decide
  rw [h, ← encode_default hmap, encode, List.cons_append, decode, decodeOp_opByte hnodup]
  simp only [takeFields_putFields (operands_fit i), buildInstr_operands]

/-- All fields of one byte. -/
theorem encodedAs_of_bytes {i : Instr} {b : Byte} {bs : List Byte} (hop : b = BitVec.ofNat 8 (opRow i.op))
    (hlayout : layout i.op = bs.map fun _ => 1) (hoperands : i.operands = bs.map BitVec.toNat) :
    EncodedAs i fun _ => b :: bs :=
  encodedAs_of_fields fun e => by rw [hop, hlayout, hoperands, putFields_bytes]

/-- The fields of LDS and STS: a register, an address, a length. -/
theorem encodedAs_of_literal {i : Instr} {b r n : Byte} {p : BitVec 32} (hop : b = BitVec.ofNat 8 (opRow i.op))
    (hlayout : layout i.op = [1, 4, 1]) (hoperands : i.operands = [r.toNat, p.toNat, n.toNat]) :
    EncodedAs i fun e => b :: r :: (toBytes e p.toNat 4 ++ [n]) :=
  encodedAs_of_fields fun e => by
    simp only [hop, hlayout, hoperands, putFields, toBytes_toNat_one, List.append_nil, List.singleton_append]

/-! The value that loaded bytes or an immediate leave in the destination (R121). -/

/-- As many bytes as a word has at most lose nothing. -/
theorem loadValue_toNat {cfg : Config} {bs : List Byte} (h : bs.length ≤ cfg.wordBytes) :
    (loadValue cfg bs).toNat = fromBytes cfg.endian bs := by
  have hfits : fromBytes cfg.endian bs < 2 ^ cfg.bits := by
    rw [pow_bits_eq]
    exact Nat.lt_of_lt_of_le (fromBytes_lt _ _) (Nat.pow_le_pow_right (by decide) h)
  rw [loadValue, truncN_toNat, Nat.mod_eq_of_lt hfits]

theorem complete_setReg_loadValue (s : State) (d : Fin 6) (bs : List Byte) :
    complete (s.setReg d (loadValue s.cfg bs)) = .next (afterWrite s d (loadValue s.cfg bs)) := by
  rw [complete_setReg, loadValue, truncN_truncN]

/-- An unwritten byte in the range leaves nothing to read (R59). -/
theorem memReadBytes_unwritten {m : Memory} {a n k : Nat} (hk : k < n) (h : memRead m (a + k) = none) :
    memReadBytes m a n = none := by
  refine Option.eq_none_iff_forall_not_mem.2 fun bs hbs => ?_
  obtain ⟨rfl, hbytes⟩ := memReadBytes_eq_some.1 hbs
  exact nomatch h.symm.trans (hbytes k hk)

/-- What a load does once its checks have passed (R121, R223). -/
theorem loadInto_result (s : State) (d : Fin 6) {a n : Nat} (hn : n ≤ s.cfg.wordBytes) :
    (∀ bs, bs.length = n → BytesAt s.stack a bs →
      ∃ v : Word, v.toNat = fromBytes s.cfg.endian bs ∧ loadInto d a n s = .next (afterWrite s d v)) ∧
    (∀ k < n, memRead s.stack (a + k) = none → loadInto d a n s = .fault (.unwrittenStack a n)) := by
  refine ⟨fun bs hlen hbytes => ⟨loadValue s.cfg bs, loadValue_toNat (hlen.le.trans hn), ?_⟩, fun k hk hnone => ?_⟩
  · rw [loadInto_ok (memReadBytes_eq_some.2 ⟨hlen, hbytes⟩), complete_setReg_loadValue]
  · exact loadInto_unwritten (memReadBytes_unwritten hk hnone)

/-! LDR (R123). -/

theorem exec_ldr {s : State} {d a l : Fin 6} (hw : Written s [a, l]) :
    exec (.ldr (field d) (field a) (field l)) s =
      checkLength (s.readReg l).toNat s
        (if s.inLive (s.readReg a).toNat (s.readReg l).toNat then loadInto d (s.readReg a).toNat (s.readReg l).toNat s
        else raise (.stackRange (s.readReg a).toNat (s.readReg l).toNat) s) := by
  simp only [exec, execLdr, checkReg_field, noteReads_of_written hw]

/-- Settles O22: the length check, then the live range, then `loadInto`. -/
theorem ldrResult : Obligations.LdrResult := by
  refine ⟨fun d a l => ⟨(illegalFieldsFault _).1, encodedAs_of_bytes rfl rfl rfl⟩, fun s d a l hw => ?_⟩
  dsimp only
  rw [exec_ldr hw]
  refine ⟨fun hlong => ?_, fun hn hout => ?_, fun hn hin => ?_⟩
  · rw [checkLength_fault hlong, raise_eq]
  · rw [checkLength_ok hn, if_neg (by rw [inLive_iff]; omega), raise_eq]
  · rw [checkLength_ok hn, if_pos (by rw [inLive_iff]; omega)]
    exact loadInto_result s d hn

/-! Stores (R124, R126). -/

/-- What a store does once its checks have passed (R122). -/
theorem exec_store_result {s : State} {i : Instr} {v : Word} {n a : Nat} (h : IsStore s i v n a)
    (hn : n ≤ s.cfg.wordBytes) (hcap : a + n ≤ s.cfg.stackCapacity) :
    ∃ m, exec i s = .next (afterStore s m) ∧ BytesAt m a (toBytes s.cfg.endian (v.toNat % 256 ^ n) n) ∧
      ∀ a', a' < a ∨ a + n ≤ a' → memRead m a' = memRead s.stack a' := by
  refine ⟨_, exec_of_isStore h hn hcap, memRead_memWriteBytes_same _ _ _, fun a' ha' => ?_⟩
  exact memRead_memWriteBytes_other _ _ _ _ (by rwa [storeBytes_length])

theorem exec_str {s : State} {x a l : Fin 6} (hw : Written s [x, a, l]) :
    exec (.str (field x) (field a) (field l)) s =
      checkLength (s.readReg l).toNat s
        (if s.inCapacity (s.readReg a).toNat (s.readReg l).toNat then
          complete (s.writeStack (s.readReg a).toNat (storeBytes s.cfg (s.readReg x) (s.readReg l).toNat))
        else raise (.stackRange (s.readReg a).toNat (s.readReg l).toNat) s) := by
  simp only [exec, execStr, checkReg_field, noteReads_of_written hw]

/-- Settles O23: the length check, then the capacity, then the bytes written. -/
theorem strResult : Obligations.StrResult := by
  refine ⟨fun x a l => ⟨(illegalFieldsFault _).1, encodedAs_of_bytes rfl rfl rfl⟩, fun s x a l hw => ?_⟩
  refine ⟨fun hlong => ?_, fun hn hout => ?_, exec_store_result (.inl ⟨x, a, l, rfl, hw, rfl, rfl, rfl⟩)⟩
  · rw [exec_str hw, checkLength_fault hlong, raise_eq]
  · rw [exec_str hw, checkLength_ok hn, if_neg (by rw [inCapacity_iff]; omega), raise_eq]

/-! Literal addresses (R125, R126). -/

theorem exec_lds {s : State} {d : Fin 6} {p : BitVec 32} {len : Byte} (hn : len.toNat ≤ s.cfg.wordBytes) :
    exec (.lds (field d) p len) s =
      if s.inCapacity (literalAddress s p) len.toNat then loadInto d (literalAddress s p).toNat len.toNat s
      else raise (.stackRange (literalAddress s p) len.toNat) s := by
  simp only [exec, execLds, checkReg_field, checkLength_ok hn]

/-- Settles O24: the capacity at the effective address, then `loadInto`. -/
theorem ldsResult : Obligations.LdsResult := by
  refine ⟨fun d p n => ⟨(illegalFieldsFault _).1, encodedAs_of_literal rfl rfl rfl⟩, fun s d p len hn => ?_⟩
  dsimp only
  rw [exec_lds hn]
  refine ⟨fun hout => ?_, fun a ha hin => ?_⟩
  · rw [if_neg (by rw [inCapacity_iff, literalAddress]; omega), raise_eq]
    rfl
  · have hea : literalAddress s p = a := ha
    rw [hea, if_pos (by rw [inCapacity_iff]; omega), Int.toNat_natCast]
    exact loadInto_result s d hn

theorem exec_sts {s : State} {x : Fin 6} {p : BitVec 32} {len : Byte} (hw : Written s [x])
    (hn : len.toNat ≤ s.cfg.wordBytes) :
    exec (.sts (field x) p len) s =
      if s.inCapacity (literalAddress s p) len.toNat then
        complete (s.writeStack (literalAddress s p).toNat (storeBytes s.cfg (s.readReg x) len.toNat))
      else raise (.stackRange (literalAddress s p) len.toNat) s := by
  simp only [exec, execSts, checkReg_field, checkLength_ok hn, noteReads_of_written hw]

/-- Settles O25: the capacity at the effective address, then the bytes written. -/
theorem stsResult : Obligations.StsResult := by
  refine ⟨fun x p n => ⟨(illegalFieldsFault _).1, encodedAs_of_literal rfl rfl rfl⟩, fun s x p len hw hn => ?_⟩
  refine ⟨fun hout => ?_, fun a ha => exec_store_result (.inr ⟨x, p, len, rfl, hw, rfl, ha, rfl⟩) hn⟩
  rw [exec_sts hw hn, if_neg (by rw [inCapacity_iff, literalAddress]; omega), raise_eq]
  rfl

/-! LDI (R127). -/

/-- The effect of an LDI that completes: the value of the `n` bytes ahead is in `d`, and `pc` is past them. -/
def LoadedImmediate (s : State) (d : Fin 6) (n : Nat) (o : Result) : Prop :=
  ∃ (v : Word) (fu' : FetchUnit),
    v.toNat = fromBytes s.cfg.endian ((s.fu.image.drop s.pc.toNat).take n) ∧
    fu'.pc.toNat = s.pc.toNat + n ∧ fu'.image = s.fu.image ∧
    o = .next (afterWrite { s with fu := fu' } d v)

section
variable {s : State} {d : Fin 6} {len : Byte}

theorem exec_ldi_fetched {bs : List Byte} {fu' : FetchUnit} (hn : len.toNat ≤ s.cfg.wordBytes)
    (hf : fuFetch s.cfg len.toNat s.fu = some (bs, fu')) :
    exec (.ldi (field d) len) s = .next (afterWrite { s with fu := fu' } d (loadValue s.cfg bs)) := by
  simp only [exec, execLdi, checkReg_field, checkLength_ok hn, fetchBytes, hf, Option.map_some]
  exact complete_setReg_loadValue { s with fu := fu' } d bs

theorem exec_ldi_undelivered (hn : len.toNat ≤ s.cfg.wordBytes) (hf : fuFetch s.cfg len.toNat s.fu = none) :
    exec (.ldi (field d) len) s = .fault .fetchUndefined := by
  simp only [exec, execLdi, checkReg_field, checkLength_ok hn, fetchBytes, hf, Option.map_none]

/-- An immediate that is fetched is the image's bytes at `pc`, and lies inside the image. -/
theorem exec_ldi_loads {bs : List Byte} {fu' : FetchUnit} (hinv : Inv s) (hn : len.toNat ≤ s.cfg.wordBytes)
    (hf : fuFetch s.cfg len.toNat s.fu = some (bs, fu')) :
    LoadedImmediate s d len.toNat (exec (.ldi (field d) len) s) := by
  obtain ⟨hlen, -, himage⟩ := fuFetch_some hf
  obtain ⟨rfl, hpc, -⟩ := fuFetch_reads hinv.window hinv.imageBound hf
  exact ⟨_, fu', loadValue_toNat (hlen.le.trans hn), hpc, himage, exec_ldi_fetched hn hf⟩

end

/-- Whatever the supplier delivers, no fetch from inside the image gives bytes past its end (R68). -/
theorem fuFetch_past_end {cfg : Config} {n : Nat} {fu : FetchUnit} (hw : cfg.fetchMode = .streaming → WindowInv cfg fu)
    (hL : fu.image.length < 2 ^ 32) (hpc : fu.pc.toNat ≤ fu.image.length) (hpast : fu.image.length < fu.pc.toNat + n) :
    fuFetch cfg n fu = none := by
  refine Option.eq_none_iff_forall_not_mem.2 fun ⟨bs, fu'⟩ hf => ?_
  obtain ⟨hlen, -, -⟩ := fuFetch_some hf
  obtain ⟨rfl, -, -⟩ := fuFetch_reads hw hL hf
  rw [List.length_take, List.length_drop] at hlen
  omega

/-- Settles O26: the immediate is fetched and loaded, or it cannot be fetched; a faithful supplier delivers it. -/
theorem ldiResult : Obligations.LdiResult := by
  refine ⟨fun d n => ⟨(illegalFieldsFault _).1, encodedAs_of_bytes rfl rfl rfl⟩, fun s d len hinv hn hpc => ?_⟩
  refine ⟨fun hin hplan => ?_, fun _ => ?_, fun hpast => ?_⟩
  · obtain ⟨-, -, -, hwide, -⟩ := hinv.legal
    have hfaith : FaithfulFetch s.cfg s.fu := ⟨hinv.imageBound, fun hm => ⟨hinv.window hm, hplan hm⟩⟩
    have hsome := (hfaith.isSome_iff (fun _ => Nat.le_trans hn hwide) (.inr hpc)).2 hin
    obtain ⟨⟨bs, fu'⟩, hf⟩ := Option.isSome_iff_exists.1 hsome
    exact exec_ldi_loads hinv hn hf
  · cases hf : fuFetch s.cfg len.toNat s.fu with
    | none => exact .inr (exec_ldi_undelivered hn hf)
    | some r => exact .inl (exec_ldi_loads hinv hn hf)
  · exact exec_ldi_undelivered hn (fuFetch_past_end hinv.window hinv.imageBound hpc hpast)

/-! MOV (R128). -/

/-- Settles O27: what a register reads is its own truncation. -/
theorem movResult : Obligations.MovResult := by
  refine ⟨fun d x => ⟨(illegalFieldsFault _).1, encodedAs_of_bytes rfl rfl rfl⟩, fun s d x hw => ?_⟩
  simp only [exec, execMov, checkReg_field, noteReads_of_written hw, complete_setReg, truncN_of_lt _ _ (readReg_lt s x)]

end Sys2Proof.Machine
end

section
/-! PROOFS. Arithmetic, logic, shifts and comparison: what each leads to (R140-R153). -/

namespace Sys2Proof

/-! The two's-complement view of a word, and `trunc_N` of an integer (R7). -/

section
variable {cfg : Config} {v : Word}

theorem signedValue_bounds (hv : v.toNat < 2 ^ cfg.bits) :
    -2 ^ (cfg.bits - 1) ≤ signedValue cfg v ∧ signedValue cfg v < 2 ^ (cfg.bits - 1) := by
  rcases bits_cases cfg with h | h <;> rw [h] at hv <;> rw [signedValue, h] <;> omega

theorem signedValue_eq_min (hv : v.toNat < 2 ^ cfg.bits) :
    signedValue cfg v = -2 ^ (cfg.bits - 1) ↔ v.toNat = 2 ^ (cfg.bits - 1) := by
  rcases bits_cases cfg with h | h <;> rw [h] at hv <;> rw [signedValue, h] <;> omega

theorem signedValue_eq_zero (hv : v.toNat < 2 ^ cfg.bits) : signedValue cfg v = 0 ↔ v.toNat = 0 := by
  rcases bits_cases cfg with h | h <;> rw [h] at hv <;> rw [signedValue, h] <;> omega

theorem signedValue_eq_neg_one (hv : v.toNat < 2 ^ cfg.bits) :
    signedValue cfg v = -1 ↔ v.toNat = 2 ^ cfg.bits - 1 := by
  rcases bits_cases cfg with h | h <;> rw [h] at hv <;> rw [signedValue, h] <;> omega

/-- An integer that the word can hold is kept. -/
theorem signedValue_truncInt {x : Int} (hlo : -2 ^ (cfg.bits - 1) ≤ x) (hhi : x < 2 ^ (cfg.bits - 1)) :
    signedValue cfg (truncInt cfg x) = x := by
  rw [signedValue, truncInt_toNat]
  rcases bits_cases cfg with h | h <;> rw [h] at hlo hhi ⊢ <;> omega

theorem truncInt_sub_toNat {x y : Nat} (hy : y ≤ 2 ^ cfg.bits) :
    (truncInt cfg ((x : Int) - y)).toNat = (x + (2 ^ cfg.bits - y)) % 2 ^ cfg.bits := by
  rw [truncInt_toNat]
  rcases bits_cases cfg with h | h <;> rw [h] at hy ⊢ <;> omega

theorem truncN_div_toNat (hv : v.toNat < 2 ^ cfg.bits) (n : Nat) : (truncN cfg (v.toNat / n)).toNat = v.toNat / n := by
  rw [truncN_toNat, Nat.mod_eq_of_lt ((Nat.div_le_self _ _).trans_lt hv)]

end

/-- Truncated division leaves the range of a word only by the negation of its least value. -/
theorem tdiv_bounds {a b m : Int} (hlo : -m ≤ a) (hhi : a < m) (hb : b ≠ 0) (hno : ¬ (a = -m ∧ b = -1)) :
    -m ≤ a.tdiv b ∧ a.tdiv b < m := by
  by_cases h1 : b = 1
  · rw [h1, Int.tdiv_one]
    exact ⟨hlo, hhi⟩
  by_cases hneg : b = -1
  · rw [hneg, Int.tdiv_neg, Int.tdiv_one]
    omega
  · have hhalf : a.natAbs / b.natAbs ≤ a.natAbs / 2 := Nat.div_le_div_left (by omega) (by decide)
    have hq : (a.tdiv b).natAbs = a.natAbs / b.natAbs := Int.natAbs_tdiv a b
    omega

/-- Floor division by a positive number stays in a range that holds zero. -/
theorem ediv_bounds {a b m : Int} (hlo : -m ≤ a) (hhi : a < m) (hb : 0 < b) : -m ≤ a / b ∧ a / b < m := by
  have hmul : m * 1 ≤ m * b := Int.mul_le_mul_of_nonneg_left hb (by omega)
  rw [Int.le_ediv_iff_mul_le hb, Int.ediv_lt_iff_lt_mul hb, Int.neg_mul]
  omega

/-- The complement of `x` in `n` bits is bit by bit (R150). -/
theorem truncN_complement {cfg : Config} {x : Word} (hx : x.toNat < 2 ^ cfg.bits) {k : Nat} (hk : k < cfg.bits) :
    (truncN cfg (2 ^ cfg.bits - 1 - x.toNat)).getLsbD k = !x.getLsbD k := by
  have hlt : 2 ^ cfg.bits - 1 - x.toNat < 2 ^ cfg.bits := by omega
  rw [BitVec.getLsbD, truncN_toNat, Nat.mod_eq_of_lt hlt, Nat.sub_sub, Nat.add_comm, Nat.testBit_two_pow_sub_succ hx,
    decide_eq_true hk, Bool.true_and, BitVec.getLsbD]

end Sys2Proof

namespace Sys2Proof.Machine

open Sys2Proof.Safety

theorem fieldFaults (i : Instr) : FieldFaults i := (illegalFieldsFault i).1

/-! The three-operand frame on written sources (R141). -/

section
variable {s : State} {f : AluOp} {d a b : Fin 6}

theorem threeOperand_result {v : Word} (hw : Written s [a, b]) (hv : v.toNat < 2 ^ s.cfg.bits)
    (hf : f s.cfg (s.readReg a) (s.readReg b) = .ok v) :
    threeOperand f (field d) (field a) (field b) s = .next (afterWrite s d v) := by
  rw [threeOperand_ok hf, noteReads_of_written hw, truncN_of_lt _ _ hv]

theorem threeOperand_stops {reason : UndefReason} (hstops : s.cfg.hostArithStops = true)
    (hf : f s.cfg (s.readReg a) (s.readReg b) = .error reason) :
    threeOperand f (field d) (field a) (field b) s = .fault (.undefinedResult reason) := by
  rw [threeOperand_error hf]
  exact undefinedResult_stops hstops

end

/-! NEG (R142). -/

theorem exec_neg {s : State} {r : Fin 6} (hw : Written s [r]) :
    exec (.neg (field r)) s =
      if (s.readReg r).toNat = 2 ^ (s.cfg.bits - 1) then undefinedResult .negOverflow (s.readReg r) 0 r s
      else .next (afterWrite s r (truncInt s.cfg (0 - (s.readReg r).toNat))) := by
  simp only [exec, execNeg, checkReg_field, noteReads_of_written hw, signedValue_eq_min (readReg_lt s r), complete_setReg,
    truncN_truncInt]

/-- Settles O29: negation is subtraction from zero, and the least value is the signed corner. -/
theorem negResult : Obligations.NegResult := by
  refine ⟨fun r => ⟨fieldFaults _, encodedAs_of_bytes rfl rfl rfl⟩, fun s r hw => ?_⟩
  rw [exec_neg hw]
  refine ⟨fun hv => ⟨_, ?_, if_neg hv⟩, fun hv hstops => ?_⟩
  · simpa using truncInt_sub_toNat (x := 0) (readReg_lt s r).le
  · rw [if_pos hv, undefinedResult_stops hstops]

/-! ADD, SUB, MUL (R143, R144, R145). -/

/-- Settles O30: each is its operation of integers, truncated. -/
theorem addSubMulResult : Obligations.AddSubMulResult := by
  refine ⟨fun d a b => ⟨fieldFaults _, fieldFaults _, fieldFaults _⟩,
    fun d a b => ⟨encodedAs_of_bytes rfl rfl rfl, encodedAs_of_bytes rfl rfl rfl, encodedAs_of_bytes rfl rfl rfl⟩,
    fun s d a b hw => ⟨?add, ?sub, ?mul⟩⟩
  case add => exact ⟨_, truncN_toNat _ _, threeOperand_result (f := aluAdd) hw (truncN_lt _ _) rfl⟩
  case sub => exact ⟨_, truncInt_sub_toNat (readReg_lt s b).le, threeOperand_result (f := aluSub) hw (truncInt_lt _ _) rfl⟩
  case mul => exact ⟨_, truncN_toNat _ _, threeOperand_result (f := aluMul) hw (truncN_lt _ _) rfl⟩

/-! DIV (R146). -/

section
variable {cfg : Config} {va vb : Word}

theorem aluDiv_zero (hb : vb.toNat = 0) : aluDiv cfg va vb = .error .divByZero := by
  have hzero : signedValue cfg vb = 0 := (signedValue_eq_zero (hb ▸ Nat.two_pow_pos _)).2 hb
  rw [aluDiv, if_pos hzero, if_pos hb, ite_self]

theorem aluDiv_unsigned (hs : cfg.divSigned = false) (hb : vb.toNat ≠ 0) :
    aluDiv cfg va vb = .ok (truncN cfg (va.toNat / vb.toNat)) := by
  rw [aluDiv, if_neg (Bool.eq_false_iff.1 hs), if_neg hb]

theorem aluDiv_signed (hs : cfg.divSigned = true) (ha : va.toNat < 2 ^ cfg.bits) (hvb : vb.toNat < 2 ^ cfg.bits)
    (hb : vb.toNat ≠ 0) :
    aluDiv cfg va vb =
      if va.toNat = 2 ^ (cfg.bits - 1) ∧ vb.toNat = 2 ^ cfg.bits - 1 then .error .divOverflow
      else .ok (truncInt cfg ((signedValue cfg va).tdiv (signedValue cfg vb))) := by
  simp only [aluDiv, hs, if_true, signedValue_eq_zero hvb, hb, if_false, signedValue_eq_min ha, signedValue_eq_neg_one hvb]

/-- Away from the overflow the word holds the signed quotient. -/
theorem signedValue_quotient (ha : va.toNat < 2 ^ cfg.bits) (hvb : vb.toNat < 2 ^ cfg.bits) (hb : vb.toNat ≠ 0)
    (hno : ¬ (va.toNat = 2 ^ (cfg.bits - 1) ∧ vb.toNat = 2 ^ cfg.bits - 1)) :
    signedValue cfg (truncInt cfg ((signedValue cfg va).tdiv (signedValue cfg vb))) =
      (signedValue cfg va).tdiv (signedValue cfg vb) := by
  rw [← signedValue_eq_min ha, ← signedValue_eq_neg_one hvb] at hno
  obtain ⟨hlo, hhi⟩ := signedValue_bounds ha
  obtain ⟨hqlo, hqhi⟩ := tdiv_bounds hlo hhi (mt (signedValue_eq_zero hvb).1 hb) hno
  exact signedValue_truncInt hqlo hqhi

end

/-- Settles O31: a zero divisor first, then by the signedness the overflow and the quotient. -/
theorem divResult : Obligations.DivResult := by
  refine ⟨fun d a b => ⟨fieldFaults _, encodedAs_of_bytes rfl rfl rfl⟩, fun s d a b hw => ?_⟩
  have ha := readReg_lt s a
  have hvb := readReg_lt s b
  refine ⟨fun hb hstops => ?zero, fun hs ⟨hmin, hones⟩ hstops => ?overflow, fun hs hb hno => ?signed, fun hs hb => ?unsigned⟩
  case zero => exact threeOperand_stops hstops (aluDiv_zero hb)
  case overflow =>
    have hb : (s.readReg b).toNat ≠ 0 := by
      rcases bits_cases s.cfg with h | h <;> simp [hones, h]
    exact threeOperand_stops hstops ((aluDiv_signed hs ha hvb hb).trans (if_pos ⟨hmin, hones⟩))
  case signed =>
    exact ⟨_, truncInt_lt _ _, signedValue_quotient ha hvb hb hno,
      threeOperand_result hw (truncInt_lt _ _) ((aluDiv_signed hs ha hvb hb).trans (if_neg hno))⟩
  case unsigned =>
    exact ⟨_, truncN_div_toNat ha _,
      threeOperand_result hw (truncN_lt _ _) (aluDiv_unsigned hs hb)⟩

/-! AND, ORR, XOR, NOT (R147-R150). -/

/-- A bitwise operation of two words: its result fits, and is `g` of the sources' bits. -/
theorem exec_bitwise {s : State} {f : AluOp} {d a b : Fin 6} {g : Bool → Bool → Bool} {v : Word} (hw : Written s [a, b])
    (hv : v.toNat < 2 ^ s.cfg.bits) (hbit : ∀ k, v.getLsbD k = g ((s.readReg a).getLsbD k) ((s.readReg b).getLsbD k))
    (hf : f s.cfg (s.readReg a) (s.readReg b) = .ok v) :
    ∃ v : Word, v.toNat < 2 ^ s.cfg.bits ∧
      (∀ k < s.cfg.bits, v.getLsbD k = g ((s.readReg a).getLsbD k) ((s.readReg b).getLsbD k)) ∧
      threeOperand f (field d) (field a) (field b) s = .next (afterWrite s d v) :=
  ⟨v, hv, fun k _ => hbit k, threeOperand_result hw hv hf⟩

theorem exec_not {s : State} {d a : Fin 6} (hw : Written s [a]) :
    exec (.not (field d) (field a)) s =
      .next (afterWrite s d (truncN s.cfg (2 ^ s.cfg.bits - 1 - (s.readReg a).toNat))) := by
  simp only [exec, execNot, checkReg_field, noteReads_of_written hw, complete_setReg, truncN_truncN]

/-- Settles O32: a bitwise operation of two words that fit gives one that fits. -/
theorem bitwiseResult : Obligations.BitwiseResult := by
  refine ⟨fun d a b => ⟨fieldFaults _, fieldFaults _, fieldFaults _, fieldFaults _⟩,
    fun d a b => ⟨encodedAs_of_bytes rfl rfl rfl, encodedAs_of_bytes rfl rfl rfl, encodedAs_of_bytes rfl rfl rfl,
      encodedAs_of_bytes rfl rfl rfl⟩, fun s d a b hw => ?_, fun s d a hw => ?_⟩
  · have hx := readReg_lt s a
    have hy := readReg_lt s b
    refine ⟨?and, ?orr, ?xor⟩
    case and =>
      exact exec_bitwise (f := aluAnd) hw (BitVec.toNat_and .. ▸ Nat.and_lt_two_pow _ hy) (fun _ => BitVec.getLsbD_and) rfl
    case orr =>
      exact exec_bitwise (f := aluOrr) hw (BitVec.toNat_or .. ▸ Nat.or_lt_two_pow hx hy) (fun _ => BitVec.getLsbD_or) rfl
    case xor =>
      exact exec_bitwise (f := aluXor) hw (BitVec.toNat_xor .. ▸ Nat.xor_lt_two_pow hx hy) (fun _ => BitVec.getLsbD_xor) rfl
  · exact ⟨_, truncN_lt _ _, fun k hk => truncN_complement (readReg_lt s a) hk, exec_not hw⟩

/-! LSL, LSR (R151, R152). -/

section
variable {cfg : Config} {va vb : Word}

theorem aluLsl_in_range (hsh : vb.toNat < cfg.bits) : aluLsl cfg va vb = .ok (truncN cfg (va.toNat * 2 ^ vb.toNat)) :=
  if_neg (Nat.not_le.2 hsh)

theorem aluLsl_over_wide (hsh : cfg.bits ≤ vb.toNat) : aluLsl cfg va vb = .error .shiftRange := if_pos hsh

theorem aluLsr_zeros (hsh : vb.toNat < cfg.bits) (hl : cfg.lsrArithmetic = false) :
    aluLsr cfg va vb = .ok (truncN cfg (va.toNat / 2 ^ vb.toNat)) := by
  rw [aluLsr, if_neg (Nat.not_le.2 hsh), if_neg (Bool.eq_false_iff.1 hl)]

theorem aluLsr_signs (hsh : vb.toNat < cfg.bits) (hl : cfg.lsrArithmetic = true) :
    aluLsr cfg va vb = .ok (truncInt cfg (signedValue cfg va / 2 ^ vb.toNat)) := by
  rw [aluLsr, if_neg (Nat.not_le.2 hsh), if_pos hl]

theorem aluLsr_over_wide (hsh : cfg.bits ≤ vb.toNat) : aluLsr cfg va vb = .error .shiftRange := if_pos hsh

/-- The word holds the floor of the signed value divided by a power of two. -/
theorem signedValue_shifted (ha : va.toNat < 2 ^ cfg.bits) (n : Nat) :
    signedValue cfg (truncInt cfg (signedValue cfg va / 2 ^ n)) = signedValue cfg va / 2 ^ n := by
  obtain ⟨hlo, hhi⟩ := signedValue_bounds ha
  obtain ⟨hqlo, hqhi⟩ := ediv_bounds hlo hhi (pow_pos two_pos n)
  exact signedValue_truncInt hqlo hqhi

end

/-- Settles O33: a shift in range is a product, truncated. -/
theorem lslResult : Obligations.LslResult := by
  refine ⟨fun d a b => ⟨fieldFaults _, encodedAs_of_bytes rfl rfl rfl⟩, fun s d a b hw =>
    ⟨fun hsh => ?_, fun hsh hstops => threeOperand_stops hstops (aluLsl_over_wide hsh)⟩⟩
  exact ⟨_, truncN_toNat _ _, threeOperand_result hw (truncN_lt _ _) (aluLsl_in_range hsh)⟩

/-- Settles O34: a shift in range is a floor quotient, of the unsigned or of the signed value, and the word holds it. -/
theorem lsrResult : Obligations.LsrResult := by
  refine ⟨fun d a b => ⟨fieldFaults _, encodedAs_of_bytes rfl rfl rfl⟩, fun s d a b hw =>
    ⟨fun hsh hl => ?zeros, fun hsh hl => ?signs, fun hsh hstops => threeOperand_stops hstops (aluLsr_over_wide hsh)⟩⟩
  case zeros =>
    exact ⟨_, truncN_div_toNat (readReg_lt s a) _,
      threeOperand_result hw (truncN_lt _ _) (aluLsr_zeros hsh hl)⟩
  case signs =>
    exact ⟨_, truncInt_lt _ _, signedValue_shifted (readReg_lt s a) _,
      threeOperand_result hw (truncInt_lt _ _) (aluLsr_signs hsh hl)⟩

/-! CMP (R153). -/

theorem truncN_boolWord (cfg : Config) (t : Bool) : truncN cfg (boolWord t).toNat = boolWord t := by
  refine truncN_of_lt _ _ ?_
  rcases bits_cases cfg with h | h <;> rw [h] <;> cases t <;> decide

/-- A comparison of a recognised kind leaves its truth in `d`. -/
theorem exec_cmp_result {s : State} {k d a b : Fin 6} {p : Prop} [Decidable p] (hw : Written s [a, b])
    (hp : cmpHolds s.cfg (field k) (s.readReg a) (s.readReg b) = some (decide p)) :
    (p → exec (.cmp (field k) (field d) (field a) (field b)) s = .next (afterWrite s d 1)) ∧
    (¬p → exec (.cmp (field k) (field d) (field a) (field b)) s = .next (afterWrite s d 0)) := by
  have hkind : ¬ (field k).toNat > 5 := by
    rw [field_toNat]
    omega
  have hexec : exec (.cmp (field k) (field d) (field a) (field b)) s = .next (afterWrite s d (boolWord (decide p))) := by
    simp only [exec, execCmp, if_neg hkind, checkReg_field, noteReads_of_written hw, hp, Option.getD_some, complete_setReg,
      truncN_boolWord]
  rw [hexec]
  exact ⟨fun h => by rw [decide_eq_true h]; rfl, fun h => by rw [decide_eq_false h]; rfl⟩

/-- Settles O36, kind by kind. -/
theorem cmpResult : Obligations.CmpResult := by
  refine ⟨fun k d a b => ⟨fieldFaults _, encodedAs_of_bytes rfl rfl rfl⟩, fun s k d a b hw => ?_⟩
  match k with
  | 0 | 1 | 2 | 3 | 4 | 5 => exact exec_cmp_result hw rfl

end Sys2Proof.Machine
end

section
/-! PROOFS. INVOKE and link: the import table and the callbacks bound in it (R172-R177). -/

namespace Sys2Proof.Machine

open Sys2Proof.Safety

/-! INVOKE in the order of its checks (R173). -/

section
variable {s u : State} {index : BitVec 16} {c : CallbackId}

theorem exec_invoke_outOfRange (hindex : s.importCount.toNat ≤ index.toNat) :
    exec (.invoke index) s = raise (.importFault .outOfRange index) s := if_pos hindex

theorem exec_invoke_unbound (hindex : index.toNat < s.importCount.toNat) (hslot : s.table.getD index.toNat none = none) :
    exec (.invoke index) s = raise (.importFault .unbound index) s := by
  simp only [exec, execInvoke, if_neg (Nat.not_le.2 hindex), hslot]

theorem exec_invoke_returns (hindex : index.toNat < s.importCount.toNat) (hslot : s.table.getD index.toNat none = some c)
    (hacts : callbackActs (s.nextActs c) (s.recordInvocation index) = .ok u) : exec (.invoke index) s = complete u := by
  simp only [exec, execInvoke, if_neg (Nat.not_le.2 hindex), hslot, hacts]

end

/-- Settles O37, one clause an outcome of INVOKE's checks. -/
theorem invokeResult : Obligations.InvokeResult := by
  refine ⟨fun index => encodedAs_of_fields fun e => ?_, fun s index => ⟨fun hindex => ?_, fun hindex hslot => ?_, ?_⟩⟩
  · exact congrArg (List.cons _) (List.append_nil _).symm
  · rw [exec_invoke_outOfRange hindex, raise_eq]
  · rw [exec_invoke_unbound hindex hslot, raise_eq]
  · exact fun c u => exec_invoke_returns

/-- Settles O38: that the acts have their effects is `callbackActs_effect`, what they leave alone `callbackActs_frame`. -/
theorem invokeRunsCallback : Obligations.InvokeRunsCallback := by
  intro s index c hindex hslot hready hframes hallowed
  obtain ⟨u, hacts, heffect⟩ := callbackActs_effect (s := s.recordInvocation index) hframes hready hallowed
  have hframe := callbackActs_frame hacts
  refine ⟨u.answer .ok, exec_invoke_returns hindex hslot hacts, rfl, hframe.invocations, ⟨u, heffect, rfl⟩, hframe.cfg,
    hframe.image, hframe.nameTable, hframe.importCount, hframe.ready.trans hready, hframe.faults, hframe.sinkLog,
    hframe.unwrittenReads, hframe.opAddr, hframe.commands, hframe.initDone, hframe.draws, hframe.undefinedResults,
    hframe.callbackQueue, fun hnone => ?_⟩
  rw [hnone] at hacts
  cases hacts
  rfl

/-! link, as the host's command and as an act of a callback (R172). -/

section
variable {s : State} {name : List Byte} {c : CallbackId} {rest : List HostCommand}

theorem linkName_of_first_match {k : Nat} (hk : k < s.importNames.length) (hname : s.importNames[k] = name)
    (hfirst : ∀ (j : Nat) (hj : j < k), s.importNames[j] ≠ name) :
    s.linkName name c = { s with table := s.table.set k (some c) } := by
  have hfound : s.importNames.idxOf? name = some k :=
    List.findIdx?_eq_some_iff_getElem.2 ⟨hk, by simpa using hname, fun j hj => by simpa using hfirst j hj⟩
  rw [State.linkName, hfound]

theorem linkName_of_no_match (hname : name ∉ s.importNames) : s.linkName name c = s := by
  obtain ⟨k, hk, hmatch, -⟩ | ⟨-, hsame⟩ := linkName_effect s name c
  · exact absurd (hmatch ▸ List.getElem_mem hk) hname
  · exact hsame

/-- A binding does not look at the waiting commands. -/
theorem linkName_commands (s : State) (name : List Byte) (c : CallbackId) (rest : List HostCommand) :
    State.linkName { s with commands := rest } name c = { s.linkName name c with commands := rest } := by
  have hnames : State.importNames { s with commands := rest } = s.importNames := rfl
  rw [State.linkName, State.linkName, hnames]
  split <;> rfl

theorem step_link_ready (hc : s.commands = .link name c :: rest) (hr : s.ready = true) :
    step s = .next { s.linkName name c with commands := rest, result := some .done } := by
  have hrun : runLink name c { s with commands := rest } =
      .next ((State.linkName { s with commands := rest } name c).answer .done) := if_pos hr
  rw [linkName_commands] at hrun
  simp only [step, hc]
  exact hrun

theorem callbackAct_link_ready (hr : s.ready = true) : callbackAct (.link name c) s = .ok (s.linkName name c) := if_pos hr

theorem step_link_not_ready (hc : s.commands = .link name c :: rest) (hr : s.ready = false) :
    step s = .refused .linkBeforeInit := by
  simp only [step, hc, runCommand, runLink, hr, Bool.false_eq_true, if_false]

theorem callbackAct_link_not_ready (hr : s.ready = false) : callbackAct (.link name c) s = .error .linkBeforeInit := by
  simp only [callbackAct, hr, Bool.false_eq_true, if_false]

end

/-- Settles O52: on a ready block the host's command and the callback's act both bind by `linkName`; before, neither has a meaning. -/
theorem linkBindsFirstMatch : Obligations.LinkBindsFirstMatch := by
  intro s name c rest hc
  refine ⟨fun hr k hk hname hfirst => ?_, fun hr hname => ?_, fun hr => ?_⟩
  · rw [step_link_ready hc hr, callbackAct_link_ready hr, linkName_of_first_match hk hname hfirst]
    exact ⟨rfl, rfl⟩
  · rw [step_link_ready hc hr, callbackAct_link_ready hr, linkName_of_no_match hname]
    exact ⟨rfl, rfl⟩
  · exact ⟨step_link_not_ready hc hr, callbackAct_link_not_ready hr⟩

end Sys2Proof.Machine
end

section
/-! PROOFS. JMP, CALL, SCOPE, END and EOP: what each leads to, check by check, and the return after a CALL (R190-R197). -/

namespace Sys2Proof.Machine

open Sys2Proof.Safety

/-- The one field of CALL and SCOPE, of four bytes. -/
theorem encodedAs_of_long {i : Instr} {b : Byte} {p : BitVec 32} (hop : b = BitVec.ofNat 8 (opRow i.op))
    (hlayout : layout i.op = [4]) (hoperands : i.operands = [p.toNat]) :
    EncodedAs i fun e => b :: toBytes e p.toNat 4 :=
  encodedAs_of_fields fun e => by
    simp only [hop, hlayout, hoperands, putFields, List.append_nil]

/-! JMP (R190). -/

theorem exec_jmp {s : State} {c : Fin 6} {target : Pos} (hw : Written s [c]) :
    exec (.jmp (field c) target) s = if (s.readReg c).toNat ≠ 0 then complete (s.jumpTo target) else complete s := by
  simp only [exec, execJmp, checkReg_field, noteReads_of_written hw]

/-- Settles O39, one clause a branch of `exec_jmp`. -/
theorem jmpResult : Obligations.JmpResult := by
  refine ⟨fun c p => ⟨fieldFaults _, encodedAs_of_fields fun e => ?_⟩, fun s c target hw => ?_⟩
  · simp only [Instr.op, layout, Instr.operands, putFields, toBytes_toNat_one, List.append_nil, List.singleton_append]
    rfl
  · rw [exec_jmp hw]
    refine ⟨fun htaken => ⟨fuJump_pc _ _ _, ?_⟩, fun hzero => ?_⟩
    · rw [if_pos htaken]
      rfl
    · rw [if_neg (not_not_intro hzero)]
      rfl

/-! CALL (R191). -/

section
variable {s t : State} {target : Pos}

theorem exec_call_noSlot (hlimit : s.cfg.scopeLimit ≤ s.si + 1) :
    exec (.call target) s = raise (.scopeDepth .callNoSlot s.si) s := if_pos hlimit

theorem exec_call_stages (hslot : s.si + 1 < s.cfg.scopeLimit) :
    exec (.call target) s = complete ((s.setFrameRet (s.si + 1) (s.opAddr + 5)).jumpTo target) :=
  if_neg (Nat.not_le.2 hslot)

/-- A CALL that answers OK has staged its resume position. -/
theorem ret_of_call_ok (hframes : s.frames.length = s.cfg.scopeLimit) (h : exec (.call target) s = .next t)
    (hok : t.result = some .ok) : (t.frame (s.si + 1)).ret = s.opAddr + 5 := by
  by_cases hslot : s.si + 1 < s.cfg.scopeLimit
  · rw [exec_call_stages hslot] at h
    cases h
    exact congrArg Frame.ret (frame_setFrameRet_same s _ _ (hframes ▸ hslot))
  · rw [exec_call_noSlot (Nat.le_of_not_lt hslot)] at h
    cases h
    cases hok

end

/-- Settles O40: the slot is that of `setFrameRet`. -/
theorem callResult : Obligations.CallResult := by
  refine ⟨fun target => encodedAs_of_long rfl rfl rfl, fun s target hframes => ⟨fun hlimit => ?_, fun hslot => ?_⟩⟩
  · rw [exec_call_noSlot hlimit, raise_eq]
  · exact ⟨fuJump s.cfg target s.fu, (s.setFrameRet (s.si + 1) (s.opAddr + 5)).frames, fuJump_pc _ _ _,
      fuJump_image _ _ _, exec_call_stages hslot, List.length_set, frame_setFrameRet_same _ _ _ (hframes ▸ hslot),
      fun k hk => frame_setFrameRet_other _ _ _ _ hk⟩

/-! SCOPE's payload (R63, R99). -/

/-- A copy that succeeds has copied the image's bytes at `pc`, all of them, and stands past them. -/
theorem copyToStack_reads {n a : Nat} {s t : State} (h : copyToStack n a s = some t)
    (hw : s.cfg.fetchMode = .streaming → WindowInv s.cfg s.fu) (hL : s.fu.image.length < 2 ^ 32) :
    ∃ fu', fu'.pc.toNat = s.fu.pc.toNat + n ∧ fu'.image = s.fu.image ∧
      ((s.fu.image.drop s.fu.pc.toNat).take n).length = n ∧
      t = { s with fu := fu', stack := memWriteBytes s.stack a ((s.fu.image.drop s.fu.pc.toNat).take n) } := by
  induction n generalizing a s with
  | zero =>
    cases h
    exact ⟨_, rfl, rfl, rfl, rfl⟩
  | succ n ih =>
    unfold copyToStack at h
    split at h
    · cases h
    · rename_i bs s1 h1
      obtain ⟨fu1, hf, rfl⟩ := fetchBytes_some h1
      obtain ⟨hlen, -, himage⟩ := fuFetch_some hf
      obtain ⟨hbs, hpc, hwindow⟩ := fuFetch_reads hw hL hf
      obtain ⟨fu', hpc', himage', hlen', rfl⟩ := ih (s := State.writeStack { s with fu := fu1 } a bs)
        h hwindow (himage.symm ▸ hL : fu1.image.length < 2 ^ 32)
      have hpayload : (s.fu.image.drop s.fu.pc.toNat).take (n + 1) = bs ++ (fu1.image.drop fu1.pc.toNat).take n := by
        rw [hbs, hpc, himage, take_append_supply, Nat.add_comm]
      refine ⟨fu', ?_, himage'.trans himage, ?_, ?_⟩
      · exact (hpc'.trans (congrArg (· + n) hpc)).trans (Nat.add_right_comm _ _ _)
      · rw [hpayload, List.length_append, hlen, Nat.add_comm]
        exact congrArg Nat.succ hlen'
      · rw [hpayload, memWriteBytes_append, hlen]
        rfl

/-- No copy from inside the image takes bytes past its end (R68). -/
theorem copyToStack_past_end {n a : Nat} {s : State}
    (hw : s.cfg.fetchMode = .streaming → WindowInv s.cfg s.fu) (hL : s.fu.image.length < 2 ^ 32)
    (hpc : s.fu.pc.toNat ≤ s.fu.image.length) (hpast : s.fu.image.length < s.fu.pc.toNat + n) : copyToStack n a s = none := by
  refine Option.eq_none_iff_forall_ne_some.2 fun t hcopy => ?_
  obtain ⟨-, -, -, hlen, -⟩ := copyToStack_reads hcopy hw hL
  rw [List.length_take, List.length_drop] at hlen
  omega

/-- A faithful supplier delivers a payload that lies inside the image, one byte at a time. -/
theorem copyToStack_delivered {n a : Nat} {s : State} (hfaith : FaithfulFetch s.cfg s.fu)
    (hwide : s.cfg.fetchMode = .streaming → 1 ≤ s.cfg.windowSize) (hin : s.fu.pc.toNat + n ≤ s.fu.image.length) :
    ∃ t, copyToStack n a s = some t := by
  induction n generalizing a s with
  | zero => exact ⟨s, rfl⟩
  | succ n ih =>
    have hsome := (hfaith.isSome_iff hwide (.inl Nat.one_pos)).2 (by omega)
    obtain ⟨⟨bs, fu'⟩, hf⟩ := Option.isSome_iff_exists.1 hsome
    obtain ⟨-, hpc, himage, hfaith'⟩ := hfaith.fetch hf
    have hbyte : fetchBytes 1 s = some (bs, { s with fu := fu' }) := by
      rw [fetchBytes, hf, Option.map_some]
    rw [copyToStack, hbyte]
    refine ih (s := State.writeStack { s with fu := fu' } a bs) hfaith' hwide ?_
    show fu'.pc.toNat + n ≤ fu'.image.length
    rw [hpc, himage]
    omega

/-! SCOPE (R192). -/

/-- SCOPE's copy of its payload, from the state in which the new frame has its base. -/
def scopeCopy (s : State) (length : BitVec 32) : Option State :=
  copyToStack length.toNat s.sp (s.setFrameBase (s.si + 1) s.sp)

theorem inCapacity_at_sp (s : State) (n : Nat) : s.inCapacity s.sp n = decide (s.sp + n ≤ s.cfg.stackCapacity) := by
  rw [Bool.eq_iff_iff, inCapacity_iff, decide_eq_true_iff]
  omega

/-- The effect of a SCOPE that completes: the `n` bytes ahead are on the stack, `pc` is past them, and the new frame has the old
`sp` for its base and the return address that was staged. -/
def OpenedScope (s : State) (n : Nat) (o : Result) : Prop :=
  ∃ (fu' : FetchUnit) (m : Memory) (fs : List Frame),
    fu'.pc.toNat = s.pc.toNat + n ∧ fu'.image = s.fu.image ∧
    o = .next { s with fu := fu', stack := m, frames := fs, sp := s.sp + n, si := s.si + 1, result := some .ok } ∧
    BytesAt m s.sp ((s.fu.image.drop s.pc.toNat).take n) ∧
    (∀ a, a < s.sp ∨ s.sp + n ≤ a → memRead m a = memRead s.stack a) ∧
    fs.length = s.frames.length ∧
    fs.getD (s.si + 1) ⟨0, 0⟩ = ⟨s.sp, (s.frame (s.si + 1)).ret⟩ ∧
    (∀ k, k ≠ s.si + 1 → fs.getD k ⟨0, 0⟩ = s.frame k)

section
variable {s t u : State} {length : BitVec 32}

theorem exec_scope_beyondLimit (hlimit : s.cfg.scopeLimit ≤ s.si + 1) :
    exec (.scope length) s = raise (.scopeDepth .openBeyondLimit s.si) s := if_pos hlimit

theorem exec_scope_pastCapacity (hslot : s.si + 1 < s.cfg.scopeLimit)
    (hover : s.cfg.stackCapacity < s.sp + length.toNat) :
    exec (.scope length) s = raise (.stackRange s.sp length.toNat) s := by
  simp only [exec, execScope, ge_iff_le, if_neg (Nat.not_le.2 hslot), inCapacity_at_sp, decide_eq_false (Nat.not_le.2 hover),
    Bool.not_false, if_true]

section
variable (hslot : s.si + 1 < s.cfg.scopeLimit) (hroom : s.sp + length.toNat ≤ s.cfg.stackCapacity)
include hslot hroom

theorem exec_scope_undelivered (hcopy : scopeCopy s length = none) : exec (.scope length) s = .fault .fetchUndefined := by
  rw [scopeCopy] at hcopy
  simp only [exec, execScope, ge_iff_le, if_neg (Nat.not_le.2 hslot), inCapacity_at_sp, decide_eq_true hroom,
    Bool.not_true, Bool.false_eq_true, if_false, hcopy]

theorem exec_scope_copied (hcopy : scopeCopy s length = some u) :
    exec (.scope length) s = complete ((u.setSp (u.sp + length.toNat)).setSi (u.si + 1)) := by
  rw [scopeCopy] at hcopy
  simp only [exec, execScope, ge_iff_le, if_neg (Nat.not_le.2 hslot), inCapacity_at_sp, decide_eq_true hroom,
    Bool.not_true, Bool.false_eq_true, if_false, hcopy]

/-- A payload that is copied is the image's bytes at `pc`. -/
theorem exec_scope_opens (hinv : Inv s) (hcopy : scopeCopy s length = some u) :
    OpenedScope s length.toNat (exec (.scope length) s) := by
  rw [exec_scope_copied hslot hroom hcopy]
  obtain ⟨fu', hpc, himage, hlen, rfl⟩ := copyToStack_reads hcopy hinv.window hinv.imageBound
  refine ⟨fu', _, (s.setFrameBase (s.si + 1) s.sp).frames, hpc, himage, rfl, ?_, fun a ha => ?_, List.length_set, ?_, ?_⟩
  · exact memRead_memWriteBytes_same _ _ _
  · exact memRead_memWriteBytes_other _ _ _ _ (by rwa [hlen])
  · exact frame_setFrameBase_same _ _ _ (hinv.framesLength ▸ hslot)
  · exact fun k hk => frame_setFrameBase_other _ _ _ _ hk

end

/-- A SCOPE that answers OK has opened the next scope, with the address that was staged there. -/
theorem frame_of_scope_ok (hframes : s.frames.length = s.cfg.scopeLimit) (h : exec (.scope length) s = .next t)
    (hok : t.result = some .ok) : t.si = s.si + 1 ∧ t.frame t.si = ⟨s.sp, (s.frame (s.si + 1)).ret⟩ := by
  by_cases hslot : s.si + 1 < s.cfg.scopeLimit
  case neg =>
    rw [exec_scope_beyondLimit (Nat.le_of_not_lt hslot)] at h
    cases h
    cases hok
  by_cases hroom : s.sp + length.toNat ≤ s.cfg.stackCapacity
  case neg =>
    rw [exec_scope_pastCapacity hslot (Nat.lt_of_not_le hroom)] at h
    cases h
    cases hok
  cases hcopy : scopeCopy s length with
  | none =>
    rw [exec_scope_undelivered hslot hroom hcopy] at h
    cases h
  | some u =>
    rw [exec_scope_copied hslot hroom hcopy] at h
    obtain ⟨fu', bs, -, -, rfl⟩ := copyToStack_some hcopy
    cases h
    exact ⟨rfl, frame_setFrameBase_same s _ _ (hframes ▸ hslot)⟩

end

/-- Settles O41: the depth check, the capacity check, and then the payload is copied or cannot be fetched. -/
theorem scopeResult : Obligations.ScopeResult := by
  refine ⟨fun length => encodedAs_of_long rfl rfl rfl, fun s length hinv hpc => ⟨fun hlimit => ?_, fun hslot hover => ?_,
    fun hslot hroom => ⟨fun hin hplan => ?_, fun _ => ?_, fun hpast => ?_⟩⟩⟩
  · rw [exec_scope_beyondLimit hlimit, raise_eq]
  · rw [exec_scope_pastCapacity hslot hover, raise_eq]
  · obtain ⟨-, -, -, hwide, -⟩ := hinv.legal
    have hword := Nat.le_trans (wordBytes_ge s.cfg) hwide
    have hfaith : FaithfulFetch s.cfg s.fu := ⟨hinv.imageBound, fun hm => ⟨hinv.window hm, hplan hm⟩⟩
    obtain ⟨u, hcopy⟩ : ∃ u, scopeCopy s length = some u :=
      copyToStack_delivered hfaith (fun _ => Nat.le_trans (by decide) hword) hin
    exact exec_scope_opens hslot hroom hinv hcopy
  · cases hcopy : scopeCopy s length with
    | none => exact .inr (exec_scope_undelivered hslot hroom hcopy)
    | some u => exact .inl (exec_scope_opens hslot hroom hinv hcopy)
  · exact exec_scope_undelivered hslot hroom (copyToStack_past_end hinv.window hinv.imageBound hpc hpast)

/-! END (R193). -/

section
variable {s : State}

theorem exec_endScope_noneOpen (hclosed : s.si = 0) : exec .endScope s = raise (.scopeDepth .closeNoneOpen s.si) s :=
  if_pos hclosed

theorem exec_endScope_fallsThrough (hopen : s.si ≠ 0) (hret : (s.frame s.si).ret = 0) :
    exec .endScope s = complete ((s.setSp (s.frame s.si).stackBase).setSi (s.si - 1)) := by
  simp only [exec, execEndScope, if_neg hopen, hret, ne_eq, not_true_eq_false, if_false, setSp_si]

theorem exec_endScope_returns (hopen : s.si ≠ 0) (hret : (s.frame s.si).ret ≠ 0) :
    exec .endScope s =
      complete ((((s.setSp (s.frame s.si).stackBase).setFrameRet s.si 0).jumpTo (s.frame s.si).ret).setSi (s.si - 1)) := by
  simp only [exec, execEndScope, if_neg hopen, if_pos hret]
  rfl

end

/-- Settles O42, one clause a branch of END. -/
theorem endResult : Obligations.EndResult := by
  refine ⟨encodedAs_of_bytes (bs := []) rfl rfl rfl, fun s hframes hlimit => ⟨fun hclosed => ?_, fun hopen hret => ?_,
    fun hopen hret => ?_⟩⟩
  · rw [exec_endScope_noneOpen hclosed, raise_eq, hclosed]
  · rw [exec_endScope_fallsThrough hopen hret]
    rfl
  · exact ⟨fuJump s.cfg (s.frame s.si).ret s.fu, (s.setFrameRet s.si 0).frames, fuJump_pc _ _ _, fuJump_image _ _ _,
      exec_endScope_returns hopen hret, List.length_set, frame_setFrameRet_same _ _ _ (hframes ▸ hlimit),
      fun k hk => frame_setFrameRet_other _ _ _ _ hk⟩

/-! CALL, SCOPE, END (R195, R196, R257). -/

/-- A resume position that does not wrap is a return address (R30). -/
theorem resume_ne_zero {p : Pos} (h : p.toNat + 5 < 2 ^ 32) : p + 5 ≠ 0 := by
  bv_omega

/-- Settles O44: the address that CALL stages is the one in the frame that SCOPE opens, and END returns to it. -/
theorem callScopeEndReturns : Obligations.CallScopeEndReturns := by
  intro s s1 s1' s2 s2' s3 target length hframes hresume hcall hcallOk hcfg hlength hsi hstaged
    hscope hscopeOk hframe hdepth hend
  have hret := ret_of_call_ok hframes hcall hcallOk
  obtain ⟨hopened, hnew⟩ := frame_of_scope_ok (by rw [hlength, hframes, hcfg]) hscope hscopeOk
  have htop : s2'.frame s2'.si = ⟨s1'.sp, s.opAddr + 5⟩ := by
    rw [hframe, hnew, hsi, hstaged, hret]
  have hdepth' : s2'.si = s.si + 1 := by
    rw [hdepth, hopened, hsi]
  rw [exec_endScope_returns (by omega) (by rw [htop]; exact resume_ne_zero hresume), htop, hdepth'] at hend
  cases hend
  exact ⟨rfl, fuJump_pc _ _ _, rfl, rfl⟩

/-! EOP (R194). -/

/-- Settles O43: with no command waiting the next transition is a step, which finds the block stopped. -/
theorem eopHalts : Obligations.EopHalts := by
  refine ⟨encodedAs_of_bytes (bs := []) rfl rfl rfl, fun s => ⟨_, rfl, rfl, fun hnone => ?_⟩⟩
  exact step_of_issued (h := (s.setRunning false).answer .halted) (.inl ⟨hnone, rfl⟩)

end Sys2Proof.Machine
end

section
/-! PROOFS. The host's arithmetic where it goes on (R220; log 8). -/

namespace Sys2Proof.Machine

open Sys2Proof.Safety

/-- The three-operand frame where the host's arithmetic goes on (R141; log 8). -/
theorem threeOperand_goesOn {s : State} {f : AluOp} {d a b : Fin 6} {reason : UndefReason} (hw : Written s [a, b])
    (hgoesOn : s.cfg.hostArithStops = false) (hf : f s.cfg (s.readReg a) (s.readReg b) = .error reason) :
    WroteHostValue s d reason (threeOperand f (field d) (field a) (field b) s) := by
  rw [threeOperand_error hf, noteReads_of_written hw]
  exact undefinedResult_goesOn hgoesOn

theorem aluDiv_overflow {cfg : Config} {va vb : Word} (hs : cfg.divSigned = true) (hmin : va.toNat = 2 ^ (cfg.bits - 1))
    (hones : vb.toNat = 2 ^ cfg.bits - 1) : aluDiv cfg va vb = .error .divOverflow := by
  have hbounds : va.toNat < 2 ^ cfg.bits ∧ vb.toNat < 2 ^ cfg.bits ∧ vb.toNat ≠ 0 := by
    rcases bits_cases cfg with h | h <;> simp [hmin, hones, h]
  obtain ⟨ha, hvb, hb⟩ := hbounds
  rw [aluDiv_signed hs ha hvb hb, if_pos ⟨hmin, hones⟩]

/-- Settles O35: each corner ends in `undefinedResult`, which writes a host value. -/
theorem hostArithmeticGoesOn : Obligations.HostArithmeticGoesOn := by
  refine ⟨fun s r hw hgoesOn hmin => ?neg, fun s d a b hw hgoesOn => ⟨fun hb => ?zero, fun hs hmin hones => ?overflow,
    fun hsh => ⟨?lsl, ?lsr⟩⟩⟩
  case neg =>
    rw [exec_neg hw, if_pos hmin]
    exact undefinedResult_goesOn hgoesOn
  case zero => exact threeOperand_goesOn hw hgoesOn (aluDiv_zero hb)
  case overflow => exact threeOperand_goesOn hw hgoesOn (aluDiv_overflow hs hmin hones)
  case lsl => exact threeOperand_goesOn hw hgoesOn (aluLsl_over_wide hsh)
  case lsr => exact threeOperand_goesOn hw hgoesOn (aluLsr_over_wide hsh)

end Sys2Proof.Machine
end

section
/-! PROOFS. What a fault records, whom it tells and how the block is started after it (R210, R211, R214-R219, R248). -/

namespace Sys2Proof.Machine

open Sys2Proof.Safety

/-! Kinds, codes and messages (R210, R211, R219). -/

/-- Of every fault but an INVOKE index out of range, the message is the token of its kind (log 21). -/
theorem message_notGiven {f : FaultInfo} (h : ∀ index, f ≠ .importFault .outOfRange index) :
    f.message = .notGiven f.kind := by
  unfold FaultInfo.message
  split
  · exact absurd rfl (h _)
  · rfl

/-- Settles O60: the tables, row by row, and the messages. -/
theorem faultKindsAndCodes : Obligations.FaultKindsAndCodes := by
  refine ⟨?version, ?stackRange, ?registerRange, ?scopeDepth, ?cmpKind, ?undefinedOpcode, ?importFault, ?headerFormat,
    ?operandLength, ?codes, ?given, fun f h => message_notGiven h⟩
  case codes => rfl
  case given => exact fun _ => rfl
  all_goals intros; exact ⟨rfl, rfl⟩

/-! A step that answers a fault (R214, R249). -/

/-- Only a running block faults in a step: at the opcode, which stands at `pc`, or in the instruction fetched there. -/
theorem runStep_fault {s t : State} {k : FaultKind} (h : runStep s = .next t) (hk : t.result = some (.fault k)) :
    s.running = true ∧ ∃ fu, Faulted { s with opAddr := s.pc, fu := fu } t := by
  by_cases hr : s.running = true
  · refine ⟨hr, ?_⟩
    obtain ⟨hstopped, -⟩ | ⟨fu, -, ⟨b, hfault⟩ | ⟨i, hexec⟩⟩ := runStep_cases h
    · exact absurd (hstopped.symm.trans hr) Bool.false_ne_true
    · exact ⟨fu, Faulted.of_raise_nil hfault⟩
    · obtain ⟨-, rfl⟩ | ⟨-, hfault | ⟨hok, -⟩⟩ := exec_answers hexec
      · cases hk
      · exact ⟨fu, hfault⟩
      · cases hok.symm.trans hk
  · rw [runStep, if_neg hr] at h
    cases h
    cases hk

/-! The sink (R218). -/

/-- Between `s` and `u` the sink was called only if a fault was recorded. -/
def SinkCalledOnFault (s u : State) : Prop :=
  s.faults.length ≤ u.faults.length ∧ (u.faults.length = s.faults.length → u.sinkLog = s.sinkLog)

theorem SinkCalledOnFault.refl (s : State) : SinkCalledOnFault s s := ⟨Nat.le_refl _, fun _ => rfl⟩

/-- No named update calls the sink but `recordFault`, which makes the record longer. -/
theorem closed_sinkCalledOnFault (s : State) : Closed (SinkCalledOnFault s) where
  setReg _ _ _ h := h
  noteReads _ _ h := h
  noteUndefined _ _ h := h
  fetch n u u' bs hf h := by
    obtain ⟨fu', -, rfl⟩ := fetchBytes_some hf
    exact h
  jumpTo _ _ h := h
  opAddr _ h := h
  writeStack _ _ _ _ h := h
  setFrameBase _ _ _ _ _ h := h
  setFrameRet _ _ _ h := h
  setSp _ _ _ h := h
  setSi _ _ _ h := h
  stop _ h := h
  answer _ _ h := h
  recordFault u f p h := by
    have hlonger : s.faults.length < (u.recordFault f p).faults.length := Nat.lt_succ_of_le h.1
    exact ⟨Nat.le_of_lt hlonger, fun he => absurd he.symm (Nat.ne_of_lt hlonger)⟩
  recordInvocation _ _ h := h
  recordRead _ _ _ h := h
  linkName u name c h := by
    have hframe := linkName_frame u name c
    unfold SinkCalledOnFault
    rw [hframe.faults, hframe.sinkLog]
    exact h

/-- `start` records no fault and calls no sink (R248). -/
theorem SinkCalledOnFault.runStart {s u t : State} (h : runStart u = .next t) (hu : SinkCalledOnFault s u) :
    SinkCalledOnFault s t := by
  unfold Machine.runStart at h
  split at h <;> cases h <;> exact hu

theorem Faulted.sinkLog {s t : State} (h : Faulted s t) :
    ∃ r, t.fault = some r ∧ t.result = some (.fault r.info.kind) ∧ t.sinkLog = s.sinkLog ++ sinkCall t r s.running := by
  obtain ⟨reads, f, rfl⟩ := h
  exact ⟨⟨f, s.opAddr⟩, rfl, rfl, rfl⟩

/-- A failed init has called the sink, and one that loads a program has not (R245). -/
theorem runInit_sinkLog {image : List Byte} {plan : List Nat} {s t : State} (h : runInit image plan s = .next t) :
    (∃ r, t.fault = some r ∧ t.result = some (.initFailed r.info.kind) ∧ t.sinkLog = s.sinkLog ++ sinkCall t r false) ∨
    (t.result = some .initOk ∧ t.sinkLog = s.sinkLog) := by
  obtain ⟨-, -, fu', names, -, -, -, ⟨f, p, rfl⟩ | ⟨root, count, -, -, rfl⟩⟩ :=
    runInit_next (Q := fun _ => True) (fun _ _ _ _ _ _ => trivial) trivial h
  · exact .inl ⟨⟨f, p⟩, rfl, rfl, rfl⟩
  · exact .inr ⟨rfl, rfl⟩

/-- Settles O59: a fault of a step or of init calls the sink as it is recorded, and where none is recorded
`SinkCalledOnFault` leaves the log as it was. -/
theorem sinkToldOfFault : Obligations.SinkToldOfFault := by
  refine ⟨fun h s t hissued hstep => ?step, fun s t image plan rest hc hstep => ?init,
    fun s t c rest hc hnotStep hinit hstep => ?other⟩
  case step =>
    rw [step_of_issued hissued] at hstep
    refine ⟨fun k hk => ?_, fun hnone => ?_⟩
    · obtain ⟨hr, fu, hfault⟩ := runStep_fault hstep hk
      obtain ⟨r, hrecord, hresult, hlog⟩ := hfault.sinkLog
      cases hresult.symm.trans hk
      simp only [hr] at hlog
      exact ⟨r, hrecord, rfl, hlog⟩
    · obtain ⟨hfaults, -⟩ | ⟨r, -, hresult, -⟩ := runStep_records hstep
      · exact ((closed_sinkCalledOnFault s).runStep hstep (.refl s)).2 (congrArg List.length hfaults)
      · exact absurd hresult (hnone _)
  case init =>
    simp only [step, hc, runCommand] at hstep
    obtain ⟨r, hrecord, hresult, hlog⟩ | ⟨hresult, hlog⟩ := runInit_sinkLog hstep
    · refine ⟨fun k hk => ?_, fun hnone => absurd hresult (hnone _)⟩
      cases hresult.symm.trans hk
      exact ⟨r, hrecord, rfl, hlog⟩
    · exact ⟨fun k hk => (nomatch hresult.symm.trans hk), fun _ => hlog⟩
  case other =>
    simp only [step, hc] at hstep
    have hsink := (closed_sinkCalledOnFault s).runCommand_next (fun _ _ _ => SinkCalledOnFault.runStart) hinit hstep (.refl s)
    obtain ⟨u, r, rfl, hfaults, -⟩ := runCommand_cases hinit hnotStep hstep
    exact hsink.2 (congrArg List.length hfaults)

/-! A restart (R217, R248). -/

/-- The block as a start of a ready block leaves it, the command taken from the queue (R248). -/
theorem step_start_ready {s : State} {rest : List HostCommand} (hc : s.commands = .start :: rest) (hready : s.ready = true) :
    step s = .next { s with
      commands := rest, frames := List.replicate s.cfg.scopeLimit ⟨0, 0⟩, running := true, result := some .done } := by
  simp only [step, hc, runCommand, runStart, hready, if_true]
  rfl

/-- A frame of a cleared stack of frames is empty, whether it exists or not. -/
theorem frame_of_frames_replicate {s : State} {n : Nat} (h : s.frames = List.replicate n ⟨0, 0⟩) (k : Nat) :
    s.frame k = ⟨0, 0⟩ := by
  rw [State.frame, h, List.getD_eq_getElem?_getD, List.getElem?_getD_replicate_default_eq]

/-- Settles O55: the fault leaves `pc` at the opcode, where the step began, and the block ready; a start moves neither
`pc` nor the record. -/
theorem restartAfterFault : Obligations.RestartAfterFault := by
  intro h s t k hinv hissued hr hstep hk
  rw [step_of_issued hissued] at hstep
  obtain ⟨-, fu, reads, f, rfl⟩ := runStep_fault hstep hk
  have hpc : (fuJump s.cfg s.pc fu).pc = s.pc := fuJump_pc _ _ _
  exact ⟨hpc, _, step_start_ready rfl (hinv.runningReady hr), rfl, hpc, frame_of_frames_replicate rfl, rfl, nofun⟩

end Sys2Proof.Machine
end

section
/-! PROOFS. `step` on a stopped block, `start`, `stop`, `is_running`, and how a run ends (R248-R254). -/

namespace Sys2Proof.Machine

open Sys2Proof.Safety

theorem runStep_stopped {s : State} (hr : s.running = false) : runStep s = .next (s.answer .notRunning) :=
  if_neg (by rw [hr]; exact Bool.false_ne_true)

/-- Settles O6: both ways of issuing a step come to `runStep` of the stopped block. -/
theorem stepWhileStopped : Obligations.StepWhileStopped := by
  intro s hr
  refine ⟨fun hc => ?_, fun rest hc => ?_⟩
  · rw [step_of_issued (.inl ⟨hc, rfl⟩)]
    exact runStep_stopped hr
  · rw [step_of_issued (.inr ⟨rest, hc, rfl⟩)]
    exact runStep_stopped hr

theorem step_start_not_ready {s : State} {rest : List HostCommand} (hc : s.commands = .start :: rest)
    (hready : s.ready = false) : step s = .next { s with commands := rest, result := some .done } := by
  simp only [step, hc, runCommand, runStart, hready, Bool.false_eq_true, if_false]
  rfl

/-- Settles O50: a ready block gets `SCOPE_LIMIT` empty frames, and one that is not ready only answers. -/
theorem startClearsFrames : Obligations.StartClearsFrames := by
  intro s rest hc
  exact ⟨fun hready => ⟨_, step_start_ready hc hready, frame_of_frames_replicate rfl, List.length_replicate, rfl⟩,
    step_start_not_ready hc⟩

/-- Settles O51: each command is taken from the queue and runs in one update. -/
theorem stopAndIsRunning : Obligations.StopAndIsRunning := by
  refine fun s rest => ⟨fun hc => ?_, fun hc => ?_⟩
  · simp only [step, hc]
    rfl
  · simp only [step, hc]
    rfl

/-- `u` keeps the marks of `s` for reads of unwritten registers and for values of the host's arithmetic (logs 6 and 8). -/
def KeepsMarks (s u : State) : Prop :=
  s.unwrittenReads <+: u.unwrittenReads ∧ s.undefinedResults <+: u.undefinedResults

/-- No named update removes a mark; `noteReads` and `noteUndefined` add some. -/
theorem closed_keepsMarks (s : State) : Closed (KeepsMarks s) where
  setReg _ _ _ h := h
  noteReads _ _ h := ⟨h.1.trans (List.prefix_append _ _), h.2⟩
  noteUndefined _ _ h := ⟨h.1, h.2.trans (List.prefix_append _ _)⟩
  fetch n u u' bs hf h := by
    obtain ⟨fu', -, rfl⟩ := fetchBytes_some hf
    exact h
  jumpTo _ _ h := h
  opAddr _ h := h
  writeStack _ _ _ _ h := h
  setFrameBase _ _ _ _ _ h := h
  setFrameRet _ _ _ h := h
  setSp _ _ _ h := h
  setSi _ _ _ h := h
  stop _ h := h
  answer _ _ h := h
  recordFault _ _ _ h := h
  recordInvocation _ _ h := h
  recordRead _ _ _ h := h
  linkName u name c h := by
    have hframe := linkName_frame u name c
    unfold KeepsMarks
    rw [hframe.unwrittenReads, hframe.undefinedResults]
    exact h

/-- `start` touches no mark (R248). -/
theorem KeepsMarks.runStart {s u t : State} (h : runStart u = .next t) (hu : KeepsMarks s u) : KeepsMarks s t := by
  unfold Machine.runStart at h
  split at h <;> cases h <;> exact hu

/-- Neither a failed init nor one that loads a program touches a mark. -/
theorem runInit_keepsMarks {image : List Byte} {plan : List Nat} {s t : State} (h : runInit image plan s = .next t) :
    KeepsMarks s t := by
  obtain ⟨-, -, fu', names, -, -, -, ⟨f, p, rfl⟩ | ⟨root, count, -, -, rfl⟩⟩ :=
    runInit_next (Q := fun _ => True) (fun _ _ _ _ _ _ => trivial) trivial h <;>
  exact ⟨List.prefix_rfl, List.prefix_rfl⟩

/-- No transition removes a mark: init has its own inversion, and every other transition is made of named updates. -/
theorem step_keepsMarks {s t : State} (h : step s = .next t) : KeepsMarks s t := by
  by_cases hinit : ∃ image plan rest, s.commands = .init image plan :: rest
  · obtain ⟨image, plan, rest, hc⟩ := hinit
    simp only [step, hc, runCommand] at h
    exact (runInit_keepsMarks h :)
  · exact (closed_keepsMarks s).step_next (fun _ _ _ => KeepsMarks.runStart) (fun _ _ hu => hu)
      (fun image plan rest hc => hinit ⟨image, plan, rest, hc⟩) h ⟨List.prefix_rfl, List.prefix_rfl⟩

/-- Settles O56: EOP answers HALTED and adds no fault and no mark, and no other instruction answers HALTED. -/
theorem runEndsWell : Obligations.RunEndsWell := by
  refine ⟨fun i s t h => ?_, fun s t h => step_keepsMarks h⟩
  obtain ⟨hi, rfl⟩ | ⟨hi, hother⟩ := exec_answers h
  · exact ⟨fun ⟨_, hclean⟩ => ⟨hi, hclean⟩, fun ⟨_, hclean⟩ => ⟨rfl, hclean⟩⟩
  · refine ⟨fun ⟨hhalted, _⟩ => ?_, fun ⟨heop, _⟩ => absurd heop hi⟩
    obtain hfault | ⟨hok, -⟩ := hother
    · obtain ⟨r, hresult, -⟩ := hfault.answers_and_records
      cases hresult.symm.trans hhalted
    · cases hok.symm.trans hhalted

end Sys2Proof.Machine
end

section
/-! PROOFS. init: the header loader on an image that begins with a header, read field by field (R240-R246). -/

namespace Sys2Proof.Machine

open Sys2Proof.Safety

/-! The fetch unit while init reads the header. -/

/-- The fetch unit stands at `pos`, where the program text `text` is due. The image may hold only a first part of the text, and the
supplier may under-deliver, but neither where the load is `whole`. -/
structure Loading (cfg : Config) (image : List Byte) (whole : Prop) (pos : Nat) (text : List Byte) (fu : FetchUnit) :
    Prop where
  imageBound : image.length < 2 ^ 32
  wide : 4 ≤ cfg.windowSize
  image_eq : fu.image = image
  pc_eq : fu.pc.toNat = pos
  inside : pos ≤ image.length
  window : cfg.fetchMode = .streaming → WindowInv cfg fu
  ahead : fu.ahead <+: text
  complete : whole → fu.ahead = text ∧ fu.plan = []

/-- The load ended in FETCH_UNDEFINED, which a whole load cannot (R68, R221). -/
def CutShort (whole : Prop) (o : Result) : Prop := o = .fault .fetchUndefined ∧ ¬ whole

/-- The block as `init` begins to load, the command taken from the queue (R245). -/
def State.loadStart (s : State) (rest : List HostCommand) (image : List Byte) (plan : List Nat) : State :=
  State.initStart { s with commands := rest } image plan

@[simp] theorem loadStart_cfg (s : State) (rest : List HostCommand) (image : List Byte) (plan : List Nat) :
    (s.loadStart rest image plan).cfg = s.cfg := rfl

theorem step_init {s : State} {image : List Byte} {plan : List Nat} {rest : List HostCommand}
    (hc : s.commands = .init image plan :: rest) (hd : s.initDone = false) (hL : image.length < 2 ^ 32) :
    step s = loadHeader (s.loadStart rest image plan) := by
  simp only [step, hc, runCommand, runInit, hd, Bool.false_eq_true, if_false, if_neg (Nat.not_le.2 hL)]
  rfl

section
variable {s : State} {image : List Byte} {whole : Prop} {pos : Nat} {rest : List Byte}

/-- init begins at position 0 with an empty window (R245). -/
theorem Loading.start {text : List Byte} {plan : List Nat} {queue : List HostCommand} (hlegal : s.cfg.Legal)
    (hL : image.length < 2 ^ 32) (htext : image <+: text) (hwhole : whole → image = text ∧ plan = []) :
    Loading s.cfg image whole 0 text (s.loadStart queue image plan).fu where
  imageBound := hL
  wide := by
    obtain ⟨-, -, -, hwide, -⟩ := hlegal
    exact Nat.le_trans (wordBytes_ge s.cfg) hwide
  image_eq := rfl
  pc_eq := rfl
  inside := Nat.zero_le _
  window _ := ⟨Nat.zero_le _, ⟨Nat.le_refl _, Nat.le_refl _⟩, rfl⟩
  ahead := htext
  complete := hwhole

theorem Loading.faithfulFetch {cfg : Config} {text : List Byte} {fu : FetchUnit}
    (h : Loading cfg image whole pos text fu) (hwhole : whole) : FaithfulFetch cfg fu where
  imageBound := h.image_eq ▸ h.imageBound
  streams hm := ⟨h.window hm, (h.complete hwhole).2⟩

/-- In a whole load the image holds the text that is due. -/
theorem Loading.holds {cfg : Config} {bs : List Byte} {fu : FetchUnit} (h : Loading cfg image whole pos (bs ++ rest) fu)
    (hwhole : whole) : fu.pc.toNat + bs.length ≤ fu.image.length := by
  have hahead := congrArg List.length (h.complete hwhole).1
  rw [FetchUnit.ahead, List.length_drop, List.length_append] at hahead
  have hinside := h.inside
  rw [h.image_eq, h.pc_eq] at hahead ⊢
  omega

/-- A fetch of the bytes that are due gives them, or the load is cut short. -/
theorem Loading.fetch {cfg : Config} {bs : List Byte} {fu : FetchUnit} (h : Loading cfg image whole pos (bs ++ rest) fu)
    (h0 : 0 < bs.length) (h4 : bs.length ≤ 4) :
    (fuFetch cfg bs.length fu = none ∧ ¬ whole) ∨
    ∃ fu', fuFetch cfg bs.length fu = some (bs, fu') ∧ Loading cfg image whole (pos + bs.length) rest fu' := by
  cases hf : fuFetch cfg bs.length fu with
  | none =>
    refine .inl ⟨rfl, fun hwhole => ?_⟩
    have hsome := ((h.faithfulFetch hwhole).isSome_iff (fun _ => Nat.le_trans h4 h.wide) (.inl h0)).2 (h.holds hwhole)
    rw [hf] at hsome
    cases hsome
  | some r =>
    obtain ⟨bs', fu'⟩ := r
    have hL : fu.image.length < 2 ^ 32 := h.image_eq ▸ h.imageBound
    obtain ⟨hlen, -, -⟩ := fuFetch_some hf
    obtain ⟨hahead, hon⟩ := fuFetch_fetchedOn hL h.window hf
    obtain ⟨-, hpc, -⟩ := fuFetch_reads h.window hL hf
    have hprefix : bs' ++ fu'.ahead <+: bs ++ rest := hahead ▸ h.ahead
    obtain rfl : bs' = bs :=
      (List.prefix_of_prefix_length_le ((List.prefix_append _ _).trans hprefix) (List.prefix_append _ _) hlen.le).eq_of_length
        hlen
    have hinside : pos + bs'.length ≤ image.length := by
      have hlength := congrArg List.length hahead
      rw [FetchUnit.ahead, List.length_drop, List.length_append, h.image_eq, h.pc_eq] at hlength
      omega
    refine .inr ⟨fu', rfl, h.imageBound, h.wide, hon.image.trans h.image_eq, hpc.trans (by rw [h.pc_eq]), hinside,
      hon.window, (List.prefix_append_right_inj _).1 hprefix, fun hwhole => ⟨?_, hon.plan (h.complete hwhole).2⟩⟩
    exact List.append_cancel_left (hahead ▸ (h.complete hwhole).1)

theorem Loading.fetchBytes {bs : List Byte} (h : Loading s.cfg image whole pos (bs ++ rest) s.fu)
    (h0 : 0 < bs.length) (h4 : bs.length ≤ 4) :
    (fetchBytes bs.length s = none ∧ ¬ whole) ∨
    ∃ fu', fetchBytes bs.length s = some (bs, { s with fu := fu' }) ∧
      Loading s.cfg image whole (pos + bs.length) rest fu' := by
  obtain ⟨hf, hcut⟩ | ⟨fu', hf, h'⟩ := h.fetch h0 h4
  · exact .inl ⟨by rw [Machine.fetchBytes, hf, Option.map_none], hcut⟩
  · exact .inr ⟨fu', by rw [Machine.fetchBytes, hf, Option.map_some], h'⟩

/-- A header field that is due gives its value, or the load is cut short. -/
theorem Loading.fetchValue {v n : Nat} (h : Loading s.cfg image whole pos (toBytes s.cfg.endian v n ++ rest) s.fu)
    (h0 : 0 < n) (h4 : n ≤ 4) (hv : v < 256 ^ n) :
    (fetchValue n s = none ∧ ¬ whole) ∨
    ∃ fu', fetchValue n s = some (v, { s with fu := fu' }) ∧ Loading s.cfg image whole (pos + n) rest fu' := by
  have hfetch := h.fetchBytes (by rwa [toBytes_length]) (by rwa [toBytes_length])
  rw [toBytes_length] at hfetch
  obtain ⟨hf, hcut⟩ | ⟨fu', hf, h'⟩ := hfetch
  · exact .inl ⟨by rw [Machine.fetchValue, hf, Option.map_none], hcut⟩
  · exact .inr ⟨fu', by rw [Machine.fetchValue, hf, Option.map_some, fromBytes_toBytes, Nat.mod_eq_of_lt hv], h'⟩

/-! The version gate (R241). -/

/-- The two versions are read before either is judged. -/
theorem loadHeader_gate {major minor : BitVec 16}
    (h : Loading s.cfg image whole pos
      (toBytes s.cfg.endian major.toNat 2 ++ (toBytes s.cfg.endian minor.toNat 2 ++ rest)) s.fu) :
    CutShort whole (loadHeader s) ∨
    ∃ fu', Loading s.cfg image whole (pos + 2 + 2) rest fu' ∧
      loadHeader s =
        if major.toNat ≠ s.cfg.engineMajor.toNat then initFail (.version .majorMismatch major minor) 0 { s with fu := fu' }
        else if minor.toNat > s.cfg.engineMinor.toNat then
          initFail (.version .minorTooNew major minor) 2 { s with fu := fu' }
        else loadImports { s with fu := fu' } := by
  obtain ⟨hmajor, hcut⟩ | ⟨fu1, hmajor, h1⟩ := h.fetchValue (by decide) (by decide) major.isLt
  · exact .inl ⟨by rw [loadHeader, hmajor], hcut⟩
  obtain ⟨hminor, hcut⟩ | ⟨fu2, hminor, h2⟩ :=
    Loading.fetchValue (s := { s with fu := fu1 }) h1 (by decide) (by decide) minor.isLt
  · exact .inl ⟨by simp only [loadHeader, hmajor, hminor], hcut⟩
  · refine .inr ⟨fu2, h2, ?_⟩
    simp only [loadHeader, hmajor, hminor, BitVec.ofNat_toNat, BitVec.setWidth_eq]

theorem loadHeader_accepted {minor : BitVec 16} (hminor : minor.toNat ≤ s.cfg.engineMinor.toNat)
    (h : Loading s.cfg image whole pos
      (toBytes s.cfg.endian s.cfg.engineMajor.toNat 2 ++ (toBytes s.cfg.endian minor.toNat 2 ++ rest)) s.fu) :
    CutShort whole (loadHeader s) ∨
    ∃ fu', Loading s.cfg image whole (pos + 2 + 2) rest fu' ∧ loadHeader s = loadImports { s with fu := fu' } := by
  refine (loadHeader_gate h).imp_right fun ⟨fu', h', hload⟩ => ⟨fu', h', ?_⟩
  rw [hload, if_neg (not_not_intro rfl), if_neg (Nat.not_lt.2 hminor)]

/-- Once past the gate init fails with no VERSION. -/
theorem loadImports_not_version {s t : State} (h : loadImports s = .next t) : t.result ≠ some (.initFailed .version) := by
  unfold loadImports at h
  split at h
  · cases h
  dsimp only at h
  split at h
  · cases h; nofun
  split at h
  · cases h
  · cases h; nofun
  unfold loadRoot at h
  dsimp only at h
  split at h
  · cases h
  split at h
  · cases h; nofun
  split at h <;> cases h
  nofun

/-! The import names (R243). -/

theorem readNames_none_needed (room : Nat) (s : State) : readNames room 0 s = some (true, s) := by
  cases room <;> rfl

/-- One byte of the names that is due goes to the name table, and a terminator completes a name. -/
theorem readNames_byte {b : Byte} {room need : Nat} (h : Loading s.cfg image whole pos (b :: rest) s.fu) :
    (readNames (room + 1) (need + 1) s = none ∧ ¬ whole) ∨
    ∃ fu', Loading s.cfg image whole (pos + 1) rest fu' ∧
      readNames (room + 1) (need + 1) s =
        readNames room (need + 1 - [b].count 0) { s with fu := fu', nameTable := s.nameTable ++ [b] } := by
  have hneed : (if [b] = [(0 : Byte)] then need else need + 1) = need + 1 - [b].count 0 := by
    by_cases hb : b = 0
    · simp [hb]
    · rw [if_neg (by simpa using hb), List.count_singleton, if_neg (by simpa using hb), Nat.sub_zero]
  have hfetch := Loading.fetchBytes (bs := [b]) h Nat.one_pos (by rw [List.length_singleton]; decide)
  rw [List.length_singleton] at hfetch
  obtain ⟨hf, hcut⟩ | ⟨fu', hf, h'⟩ := hfetch
  · exact .inl ⟨by rw [readNames, hf], hcut⟩
  · exact .inr ⟨fu', h', by simp only [readNames, hf, hneed]⟩

/-- Reading through bytes that complete the names at their last byte or not at all: they go to the name table, and `room` and `need`
go down by what was read. -/
theorem readNames_through {bs : List Byte} {room need : Nat} (hroom : bs.length ≤ room)
    (hneed : ∀ k < bs.length, (bs.take k).count 0 < need) (h : Loading s.cfg image whole pos (bs ++ rest) s.fu) :
    (readNames room need s = none ∧ ¬ whole) ∨
    ∃ fu', Loading s.cfg image whole (pos + bs.length) rest fu' ∧
      readNames room need s = readNames (room - bs.length) (need - bs.count 0)
        { s with fu := fu', nameTable := s.nameTable ++ bs } := by
  induction bs generalizing room need pos s with
  | nil => exact .inr ⟨s.fu, h, by simp⟩
  | cons b bs ih =>
    obtain ⟨room, rfl⟩ : ∃ r, room = r + 1 := Nat.exists_eq_add_one.2 (Nat.lt_of_lt_of_le (Nat.succ_pos _) hroom)
    obtain ⟨need, rfl⟩ : ∃ n, need = n + 1 := Nat.exists_eq_add_one.2 (hneed 0 (Nat.succ_pos _))
    obtain hcut | ⟨fu1, h1, hread⟩ := readNames_byte (room := room) (need := need) h
    · exact .inl hcut
    have htail (k : Nat) (hk : k < bs.length) : (bs.take k).count 0 < need + 1 - [b].count 0 := by
      have hcount := hneed (k + 1) (Nat.succ_lt_succ hk)
      rw [List.take_succ_cons, ← List.singleton_append, List.count_append] at hcount
      omega
    obtain ⟨hnone, hcut⟩ | ⟨fu2, h2, heq⟩ :=
      ih (s := { s with fu := fu1, nameTable := s.nameTable ++ [b] }) (Nat.le_of_succ_le_succ hroom) htail h1
    · exact .inl ⟨hread.trans hnone, hcut⟩
    · refine .inr ⟨fu2, ?_, hread.trans (heq.trans ?_)⟩
      · rw [List.length_cons, Nat.add_comm bs.length, ← Nat.add_assoc]
        exact h2
      · rw [← List.singleton_append (l := bs), List.count_append, List.length_append, List.append_assoc, Nat.sub_sub,
          List.length_singleton, Nat.add_comm 1, Nat.add_sub_add_right]

/-! The import count (R242), and what reading the names leads to (R243). -/

theorem loadImports_tooMany {n : Nat} (hn : n < 2 ^ 32) (hmax : s.cfg.maxImports < n)
    (h : Loading s.cfg image whole pos (toBytes s.cfg.endian n 4 ++ rest) s.fu) :
    CutShort whole (loadImports s) ∨
    ∃ fu', loadImports s = initFail (.headerFormat .tooManyImports (BitVec.ofNat 32 n) 0) 4 { s with fu := fu' } := by
  obtain ⟨hcount, hcut⟩ | ⟨fu', hcount, -⟩ := h.fetchValue (by decide) (by decide) hn
  · exact .inl ⟨by rw [loadImports, hcount], hcut⟩
  · exact .inr ⟨fu', by simp only [loadImports, hcount, if_pos hmax]⟩

/-- An admissible count, and bytes of the names read through. -/
theorem loadImports_through {n : Nat} {bs : List Byte} (hn : n < 2 ^ 32) (hmax : n ≤ s.cfg.maxImports)
    (hroom : bs.length ≤ s.cfg.nameTableCapacity) (hneed : ∀ k < bs.length, (bs.take k).count 0 < n)
    (h : Loading s.cfg image whole pos (toBytes s.cfg.endian n 4 ++ (bs ++ rest)) s.fu) :
    CutShort whole (loadImports s) ∨
    ∃ fu', Loading s.cfg image whole (pos + 4 + bs.length) rest fu' ∧
      ∀ ok t, readNames (s.cfg.nameTableCapacity - bs.length) (n - bs.count 0)
          { s with fu := fu', nameTable := s.nameTable ++ bs } = some (ok, t) →
        loadImports s = if ok then loadRoot (BitVec.ofNat 32 n) t else
          initFail (.headerFormat .nameTableOverflow (BitVec.ofNat 32 n) t.nameTable.length) 8 t := by
  obtain ⟨hcount, hcut⟩ | ⟨fu1, hcount, h1⟩ := h.fetchValue (by decide) (by decide) hn
  · exact .inl ⟨by rw [loadImports, hcount], hcut⟩
  obtain ⟨hnames, hcut⟩ | ⟨fu2, h2, hnames⟩ := readNames_through (s := { s with fu := fu1 }) hroom hneed h1
  · exact .inl ⟨by simp only [loadImports, hcount, if_neg (Nat.not_lt.2 hmax), hnames], hcut⟩
  · refine .inr ⟨fu2, h2, fun ok t hread => ?_⟩
    simp only [loadImports, hcount, if_neg (Nat.not_lt.2 hmax), hnames, hread]
    cases ok <;> rfl

/-- The table is full before enough terminators were seen. -/
theorem loadImports_overflow {n : Nat} {bs : List Byte} (hn : n < 2 ^ 32) (hmax : n ≤ s.cfg.maxImports)
    (hfull : bs.length = s.cfg.nameTableCapacity) (hfew : bs.count 0 < n)
    (h : Loading s.cfg image whole pos (toBytes s.cfg.endian n 4 ++ (bs ++ rest)) s.fu) :
    CutShort whole (loadImports s) ∨
    ∃ fu', loadImports s =
      initFail (.headerFormat .nameTableOverflow (BitVec.ofNat 32 n) (s.nameTable ++ bs).length) 8
        { s with fu := fu', nameTable := s.nameTable ++ bs } := by
  have hneed (k : Nat) (_ : k < bs.length) : (bs.take k).count 0 < n :=
    Nat.lt_of_le_of_lt ((List.take_sublist k bs).count_le 0) hfew
  refine (loadImports_through hn hmax hfull.le hneed h).imp_right fun ⟨fu', _, hload⟩ => ⟨fu', hload false _ ?_⟩
  obtain ⟨k, hk⟩ : ∃ k, n - bs.count 0 = k + 1 := Nat.exists_eq_add_one.2 (Nat.sub_pos_of_lt hfew)
  rw [hfull, Nat.sub_self, hk, readNames]

/-- The names as the header holds them, each with its terminator (R240). -/
def nameBytes (names : List (List Byte)) : List Byte := (names.map fun n => n ++ [0]).flatten

theorem nameBytes_cons (n : List Byte) (names : List (List Byte)) : nameBytes (n :: names) = n ++ 0 :: nameBytes names := by
  simp [nameBytes]

theorem count_nameBytes {names : List (List Byte)} (hz : ∀ n ∈ names, (0 : Byte) ∉ n) :
    (nameBytes names).count 0 = names.length := by
  induction names with
  | nil => rfl
  | cons n names ih =>
    obtain ⟨hn, hz⟩ := List.forall_mem_cons.1 hz
    rw [nameBytes_cons, List.count_append, List.count_eq_zero.2 hn, List.count_cons_self, ih hz, Nat.zero_add,
      List.length_cons]

/-- No terminator but the last one completes the names, and that is the last byte. -/
theorem count_take_nameBytes {names : List (List Byte)} (hz : ∀ n ∈ names, (0 : Byte) ∉ n) {k : Nat}
    (hk : k < (nameBytes names).length) : ((nameBytes names).take k).count 0 < names.length := by
  induction names generalizing k with
  | nil => exact absurd hk (Nat.not_lt_zero k)
  | cons n names ih =>
    obtain ⟨hn, hz⟩ := List.forall_mem_cons.1 hz
    rw [nameBytes_cons] at hk ⊢
    rw [List.take_append, List.count_append, List.count_eq_zero.2 (mt List.mem_of_mem_take hn), Nat.zero_add]
    rw [List.length_append, List.length_cons] at hk
    cases hj : k - n.length with
    | zero => exact Nat.succ_pos _
    | succ j =>
      rw [List.take_succ_cons, List.count_cons_self]
      exact Nat.succ_lt_succ (ih hz (by omega))

/-- A terminated name is read back from the front of the table (R34, R170). -/
theorem tableNames_name {n : List Byte} (hn : (0 : Byte) ∉ n) (cur bs : List Byte) :
    tableNames cur (n ++ 0 :: bs) = (cur ++ n) :: tableNames [] bs := by
  induction n generalizing cur with
  | nil => rw [List.nil_append, tableNames, if_pos rfl, List.append_nil]
  | cons b n ih =>
    obtain ⟨hb, hn⟩ := not_or.1 (mt List.mem_cons.2 hn)
    rw [List.cons_append, tableNames, if_neg (Ne.symm hb), ih hn, List.append_assoc, List.singleton_append]

/-- So are all the names, in declaration order. -/
theorem tableNames_nameBytes {names : List (List Byte)} (hz : ∀ n ∈ names, (0 : Byte) ∉ n) :
    tableNames [] (nameBytes names) = names := by
  induction names with
  | nil => rfl
  | cons n names ih =>
    obtain ⟨hn, hz⟩ := List.forall_mem_cons.1 hz
    rw [nameBytes_cons, tableNames_name hn, ih hz, List.nil_append]

/-- `names` can be declared: none holds a terminator, and neither their number nor their table is too large (R242, R243). -/
structure NamesFit (cfg : Config) (names : List (List Byte)) : Prop where
  noTerminator : ∀ n ∈ names, (0 : Byte) ∉ n
  count : names.length ≤ cfg.maxImports
  table : (nameBytes names).length ≤ cfg.nameTableCapacity

theorem loadImports_names {names : List (List Byte)} (hn : names.length < 2 ^ 32) (hfit : NamesFit s.cfg names)
    (h : Loading s.cfg image whole pos (toBytes s.cfg.endian names.length 4 ++ (nameBytes names ++ rest)) s.fu) :
    CutShort whole (loadImports s) ∨
    ∃ fu', Loading s.cfg image whole (pos + 4 + (nameBytes names).length) rest fu' ∧
      loadImports s = loadRoot (BitVec.ofNat 32 names.length)
        { s with fu := fu', nameTable := s.nameTable ++ nameBytes names } := by
  have hneed (k : Nat) (hk : k < (nameBytes names).length) : ((nameBytes names).take k).count 0 < names.length :=
    count_take_nameBytes hfit.noTerminator hk
  refine (loadImports_through hn hfit.count hfit.table hneed h).imp_right fun ⟨fu', h', hload⟩ =>
    ⟨fu', h', hload true _ ?_⟩
  rw [count_nameBytes hfit.noTerminator, Nat.sub_self, readNames_none_needed]

/-! The root-scope block (R244). -/

theorem loadRoot_tooLarge {count : BitVec 32} {n : Nat} (hn : n < 2 ^ 32) (hcap : s.cfg.stackCapacity < n)
    (h : Loading s.cfg image whole pos (toBytes s.cfg.endian n 4 ++ rest) s.fu) :
    CutShort whole (loadRoot count s) ∨
    ∃ fu', loadRoot count s = initFail (.stackRange 0 n) (BitVec.ofNat 32 pos) { s with fu := fu' } := by
  have hpc : s.pc = BitVec.ofNat 32 pos := by
    rw [← h.pc_eq, BitVec.ofNat_toNat, BitVec.setWidth_eq]
  obtain ⟨hlen, hcut⟩ | ⟨fu', hlen, -⟩ := h.fetchValue (by decide) (by decide) hn
  · exact .inl ⟨by simp only [loadRoot, hlen], hcut⟩
  · exact .inr ⟨fu', by simp only [loadRoot, hlen, gt_iff_lt, if_pos hcap, hpc]⟩

/-- The block as a successful init leaves it, from the state in which its load began (R40, R245). -/
def State.loaded (s : State) (fu : FetchUnit) (names : List (List Byte)) (root : List Byte) : State :=
  { s with
    fu := fu
    nameTable := s.nameTable ++ nameBytes names
    stack := memWriteBytes s.stack 0 root
    sp := root.length
    importCount := BitVec.ofNat 32 names.length
    ready := true
    result := some .initOk }

theorem Loading.copyRoot {root : List Byte} (h : Loading s.cfg image whole pos (root ++ rest) s.fu) :
    (copyToStack root.length 0 s = none ∧ ¬ whole) ∨
    ∃ fu', fu'.pc.toNat = pos + root.length ∧ pos + root.length ≤ image.length ∧
      copyToStack root.length 0 s = some { s with fu := fu', stack := memWriteBytes s.stack 0 root } := by
  cases hcopy : copyToStack root.length 0 s with
  | none =>
    refine .inl ⟨rfl, fun hwhole => ?_⟩
    obtain ⟨t, ht⟩ := copyToStack_delivered (a := 0) (h.faithfulFetch hwhole)
      (fun _ => Nat.le_trans (by decide) h.wide) (h.holds hwhole)
    cases hcopy.symm.trans ht
  | some t =>
    obtain ⟨fu', hpc, -, hlen, rfl⟩ := copyToStack_reads hcopy h.window (h.image_eq ▸ h.imageBound)
    have hroot : (s.fu.image.drop s.fu.pc.toNat).take root.length = root :=
      (List.prefix_of_prefix_length_le ((List.take_prefix _ _).trans h.ahead) (List.prefix_append _ _) hlen.le).eq_of_length
        hlen
    refine .inr ⟨fu', hpc.trans (by rw [h.pc_eq]), ?_, by rw [hroot]⟩
    have hinside := h.inside
    rw [List.length_take, List.length_drop, h.image_eq, h.pc_eq] at hlen
    omega

theorem loadRoot_loads {count : BitVec 32} {root : List Byte} (hn : root.length < 2 ^ 32)
    (hcap : root.length ≤ s.cfg.stackCapacity)
    (h : Loading s.cfg image whole pos (toBytes s.cfg.endian root.length 4 ++ (root ++ rest)) s.fu) :
    CutShort whole (loadRoot count s) ∨
    ∃ fu', fu'.pc.toNat = pos + 4 + root.length ∧ pos + 4 + root.length ≤ image.length ∧
      loadRoot count s = .next (({ s with
        fu := fu', stack := memWriteBytes s.stack 0 root, sp := root.length, importCount := count, ready := true }
        : State).answer .initOk) := by
  obtain ⟨hlen, hcut⟩ | ⟨fu1, hlen, h1⟩ := h.fetchValue (by decide) (by decide) hn
  · exact .inl ⟨by simp only [loadRoot, hlen], hcut⟩
  obtain ⟨hcopy, hcut⟩ | ⟨fu2, hpc, hinside, hcopy⟩ := Loading.copyRoot (s := { s with fu := fu1 }) h1
  · exact .inl ⟨by simp only [loadRoot, hlen, if_neg (Nat.not_lt.2 hcap), hcopy], hcut⟩
  · exact .inr ⟨fu2, hpc, hinside, by simp only [loadRoot, hlen, if_neg (Nat.not_lt.2 hcap), hcopy]⟩

/-! The header as a whole (R240). -/

theorem header_eq (e : Endian) (major minor : BitVec 16) (names : List (List Byte)) (root : List Byte) :
    header e major minor names root =
      toBytes e major.toNat 2 ++ (toBytes e minor.toNat 2 ++ (toBytes e names.length 4 ++ (nameBytes names ++
        (toBytes e root.length 4 ++ root)))) := by
  simp only [header, nameBytes, List.append_assoc]

/-- The length of a header, as the loader moves over its fields. -/
theorem header_length (e : Endian) (major minor : BitVec 16) (names : List (List Byte)) (root : List Byte) :
    (header e major minor names root).length = 0 + 2 + 2 + 4 + (nameBytes names).length + 4 + root.length := by
  simp only [header_eq, List.length_append, toBytes_length]
  omega

/-- A header that keeps the limits is loaded, unless the load is cut short. -/
theorem loadHeader_loads {minor : BitVec 16} {names : List (List Byte)} {root body : List Byte}
    (hlegal : s.cfg.Legal) (hminor : minor.toNat ≤ s.cfg.engineMinor.toNat) (hfit : NamesFit s.cfg names)
    (hcap : root.length ≤ s.cfg.stackCapacity)
    (h : Loading s.cfg image whole 0 (header s.cfg.endian s.cfg.engineMajor minor names root ++ body) s.fu) :
    CutShort whole (loadHeader s) ∨
    ∃ fu', fu'.pc.toNat = (header s.cfg.endian s.cfg.engineMajor minor names root).length ∧
      (header s.cfg.endian s.cfg.engineMajor minor names root).length ≤ image.length ∧
      loadHeader s = .next (s.loaded fu' names root) := by
  obtain ⟨⟨-, hstack⟩, -, himports, -, -⟩ := hlegal
  have hcount := hfit.count
  rw [header_eq] at h
  simp only [List.append_assoc] at h
  rw [header_length]
  obtain hcut | ⟨fu1, h1, hgate⟩ := loadHeader_accepted hminor h
  · exact .inl hcut
  rw [hgate]
  obtain hcut | ⟨fu2, h2, himp⟩ := loadImports_names (s := { s with fu := fu1 }) (by omega) hfit h1
  · exact .inl hcut
  rw [himp]
  exact loadRoot_loads (s := { s with fu := fu2, nameTable := s.nameTable ++ nameBytes names }) (by omega) hcap h2

end

/-! The obligations. -/

theorem initFail_failedInit (f : FaultInfo) (position : Pos) (s : State) :
    ∃ t, initFail f position s = .next t ∧ FailedInit t f position :=
  ⟨_, rfl, rfl, rfl, rfl, rfl⟩

/-- What cannot be cut short is what it would else have been. -/
theorem of_cutShort_or {o : Result} {P : Prop} (h : CutShort True o ∨ P) : P :=
  h.resolve_left fun hcut => hcut.2 trivial

theorem Loading.startWhole {s : State} {image text : List Byte} {queue : List HostCommand} (hlegal : s.cfg.Legal)
    (hL : image.length < 2 ^ 32) (htext : image = text) :
    Loading s.cfg image True 0 text (s.loadStart queue image []).fu :=
  .start hlegal hL (htext ▸ List.prefix_rfl) fun _ => ⟨htext, rfl⟩

/-- Settles O47: a whole header is loaded, into the state that init begins with. -/
theorem initLoadsProgram : Obligations.InitLoadsProgram := by
  intro s names root body minor rest head hlegal hd hminor hz hcount htable hcap hL hc
  have hstart := Loading.startWhole (queue := rest) hlegal hL rfl
  obtain ⟨fu, hpc, -, hload⟩ := of_cutShort_or
    (loadHeader_loads (s := s.loadStart rest (head ++ body) []) hlegal hminor ⟨hz, hcount, htable⟩ hcap hstart)
  have himports : (BitVec.ofNat 32 names.length).toNat = names.length := by
    obtain ⟨-, -, hmax, -, -⟩ := hlegal
    exact Nat.mod_eq_of_lt (by omega)
  rw [step_init hc hd hL, hload]
  refine ⟨_, rfl, rfl, rfl, rfl, hpc, rfl, rfl, frame_of_frames_replicate rfl, ?names, himports, ?slots, ?root, ?beyond,
    ?written, rfl, rfl, rfl⟩
  case names =>
    show (tableNames [] (nameBytes names)).take (BitVec.ofNat 32 names.length).toNat = names
    rw [tableNames_nameBytes hz, himports, List.take_length]
  case slots => exact fun _ hslot => List.eq_of_mem_replicate hslot
  case root => exact fun k hk => memRead_memWriteBytes_same [] 0 root k hk
  case beyond => exact fun a ha => memRead_memWriteBytes_other [] 0 a root (.inr (by omega))
  case written => exact fun r => Vector.getElem_replicate r.isLt

/-- Settles O48: both versions of the image are read, and the gate judges them. -/
theorem initVersionGate : Obligations.InitVersionGate := by
  intro s major minor more rest image hlegal hd hL hc
  have hstart := Loading.startWhole (queue := rest) hlegal hL (List.append_assoc _ _ _)
  obtain ⟨fu, -, hgate⟩ := of_cutShort_or (loadHeader_gate (s := s.loadStart rest image []) hstart)
  rw [loadStart_cfg] at hgate
  rw [step_init hc hd hL, hgate]
  refine ⟨fun hmajor => ?_, fun hmajor hminor => ?_, fun hmajor hminor => ?_⟩
  · rw [if_pos fun he => hmajor (BitVec.eq_of_toNat_eq he)]
    exact initFail_failedInit _ _ _
  · rw [if_neg (not_not_intro (congrArg BitVec.toNat hmajor)), if_pos hminor]
    exact initFail_failedInit _ _ _
  · rw [if_neg (not_not_intro (congrArg BitVec.toNat hmajor)), if_neg (Nat.not_lt.2 hminor)]
    exact fun t => loadImports_not_version

/-- A header that ends early is never loaded, so its load is cut short (R68, R242). -/
theorem step_init_truncated {s : State} {minor : BitVec 16} {names : List (List Byte)} {root head : List Byte} {n : Nat}
    {plan : List Nat} {rest : List HostCommand} (hhead : head = header s.cfg.endian s.cfg.engineMajor minor names root)
    (hlegal : s.cfg.Legal) (hd : s.initDone = false) (hminor : minor.toNat ≤ s.cfg.engineMinor.toNat)
    (hfit : NamesFit s.cfg names) (hcap : root.length ≤ s.cfg.stackCapacity) (hn : n < head.length)
    (hL : head.length ≤ 2 ^ 32) (hc : s.commands = .init (head.take n) plan :: rest) :
    step s = .fault .fetchUndefined := by
  have hlen : (head.take n).length = n := List.length_take_of_le hn.le
  have hshort : (head.take n).length < 2 ^ 32 := by omega
  have hstart : Loading s.cfg (head.take n) False 0
      (header s.cfg.endian s.cfg.engineMajor minor names root ++ []) (s.loadStart rest (head.take n) plan).fu :=
    .start hlegal hshort ((List.take_prefix n head).trans (hhead ▸ List.prefix_append _ _)) False.elim
  rw [step_init hc hd hshort]
  obtain ⟨hcut, -⟩ | ⟨fu, -, hinside, -⟩ :=
    loadHeader_loads (s := s.loadStart rest (head.take n) plan) hlegal hminor hfit hcap hstart
  · exact hcut
  · exact absurd (hlen ▸ hinside) (hhead ▸ Nat.not_le.2 hn)

/-- An image of this version whose import count is `count` comes to its imports. -/
theorem step_init_imports {s : State} {minor : BitVec 16} {count : BitVec 32} {more : List Byte} {rest : List HostCommand}
    {image : List Byte}
    (himage : image = toBytes s.cfg.endian s.cfg.engineMajor.toNat 2 ++ toBytes s.cfg.endian minor.toNat 2 ++
      toBytes s.cfg.endian count.toNat 4 ++ more)
    (hlegal : s.cfg.Legal) (hd : s.initDone = false) (hminor : minor.toNat ≤ s.cfg.engineMinor.toNat)
    (hL : image.length < 2 ^ 32) (hc : s.commands = .init image [] :: rest) :
    ∃ u : State, u.cfg = s.cfg ∧ u.nameTable = [] ∧
      Loading u.cfg image True 4 (toBytes u.cfg.endian count.toNat 4 ++ more) u.fu ∧ step s = loadImports u := by
  simp only [List.append_assoc] at himage
  rw [step_init hc hd hL]
  obtain ⟨fu, h, hload⟩ := of_cutShort_or
    (loadHeader_accepted (s := s.loadStart rest image []) hminor (.startWhole hlegal hL himage))
  exact ⟨{ s.loadStart rest image [] with fu := fu }, rfl, rfl, h, hload⟩

/-- Settles O49: an image cut short, and the check of the import count, of the name table and of the root block. -/
theorem initHeaderLimits : Obligations.InitHeaderLimits := by
  refine ⟨?_, ?_⟩
  · intro s minor names root n plan rest head hlegal hd hminor hz hcount htable hcap hn hL hc
    exact step_init_truncated rfl hlegal hd hminor ⟨hz, hcount, htable⟩ hcap hn hL hc
  intro s minor count more rest image hlegal hd hminor hL hc
  obtain ⟨u, hcfg, hempty, h, hload⟩ := step_init_imports rfl hlegal hd hminor hL hc
  have hofNat : BitVec.ofNat 32 count.toNat = count := by rw [BitVec.ofNat_toNat, BitVec.setWidth_eq]
  rw [hload, ← hcfg]
  refine ⟨fun hmany => ?count, fun hmax hmore hfew => ?table, fun names rlen tail hz hnames hmax htable hmore hcap => ?root⟩
  case count =>
    obtain ⟨fu, hfail⟩ := of_cutShort_or (loadImports_tooMany count.isLt hmany h)
    rw [hfail, hofNat]
    exact initFail_failedInit _ _ _
  case table =>
    rw [← List.take_append_drop u.cfg.nameTableCapacity more] at h
    have hfull := List.length_take_of_le hmore
    obtain ⟨fu, hfail⟩ := of_cutShort_or (loadImports_overflow count.isLt hmax hfull hfew h)
    rw [hfail, hofNat, hempty, List.nil_append, hfull]
    exact initFail_failedInit _ _ _
  case root =>
    rw [hmore, List.append_assoc _ _ tail, ← hnames] at h
    obtain ⟨fu1, h1, hroot⟩ := of_cutShort_or
      (loadImports_names (hnames ▸ count.isLt) ⟨hz, hnames ▸ hmax, htable⟩ h)
    obtain ⟨fu2, hfail⟩ := of_cutShort_or (loadRoot_tooLarge (count := BitVec.ofNat 32 names.length)
      (s := { u with fu := fu1, nameTable := u.nameTable ++ nameBytes names }) rlen.isLt hcap h1)
    rw [hroot, hfail]
    exact initFail_failedInit _ _ _

end Sys2Proof.Machine
end
